-- ==== Sys2Proof/Word.lean ====
section
/-! DEFINITION. The widths of the engine: 32-bit registers and addresses, 8-bit memory units. -/

namespace Sys2Proof

/-- A register value, a bus address, or a length held in a register (REG_WIDTH = ADDR_WIDTH = 32,
`00_scope.md` rule R9, `20_memory.md` rule R63). -/
abbrev Word := BitVec 32

/-- The unit of every engine memory access (`20_memory.md` rule R73). -/
abbrev Byte := BitVec 8

/-- A byte string: a finite sequence of bytes (`00_scope.md` rule R11). -/
abbrev Bytes := List Byte

end Sys2Proof
end

