-- ==== Sys2Proof/Machine/Fields.lean ====
section
/-! DEFINITION. The multi-byte fields of data streams (`00_scope.md` rule R13, `20_memory.md` rule R68). -/

namespace Sys2Proof.Machine

/-- The byte `(v >> 8·k) and 0xFF`. -/
def byteAt (v k : Nat) : Byte := BitVec.ofNat 8 (v / 2 ^ (8 * k))

/-- `be16(v)`. -/
def be16 (v : Nat) : Bytes := [byteAt v 1, byteAt v 0]

/-- `be32(v)`. -/
def be32 (v : Nat) : Bytes := [byteAt v 3, byteAt v 2, byteAt v 1, byteAt v 0]

/-- `le32(v)`. -/
def le32 (v : Nat) : Bytes := [byteAt v 0, byteAt v 1, byteAt v 2, byteAt v 3]

/-- The value of two bytes, the most significant first. -/
def ofBe16 (b0 b1 : Byte) : Nat := b0.toNat * 2 ^ 8 + b1.toNat

/-- The value of four bytes, the most significant first. -/
def ofBe32 (b0 b1 b2 b3 : Byte) : Nat :=
  b0.toNat * 2 ^ 24 + b1.toNat * 2 ^ 16 + b2.toNat * 2 ^ 8 + b3.toNat

/-- The value of four bytes, the least significant first. -/
def ofLe32 (b0 b1 b2 b3 : Byte) : Nat :=
  b0.toNat + b1.toNat * 2 ^ 8 + b2.toNat * 2 ^ 16 + b3.toNat * 2 ^ 24

/-- The byte at an index of a string; 0 beyond its end, where no rule reads. -/
def byteIn (S : Bytes) (i : Nat) : Byte := S.getD i 0

/-- `rd_be32(S, i)`. -/
def rdBe32 (S : Bytes) (i : Nat) : Nat :=
  ofBe32 (byteIn S i) (byteIn S (i + 1)) (byteIn S (i + 2)) (byteIn S (i + 3))

end Sys2Proof.Machine
end

