-- ==== Sys2Proof/Machine/BitStream.lean ====
section
/-! DEFINITION. The bit-stream packer, the leaf unit of the arithmetic coder (`40_bitstream.md`). -/

namespace Sys2Proof.Machine

/-- Writer state: the finished bytes `W`, latest first, the partial byte `acc` and the count `nb` of
bits in it (rule R120). -/
structure BitWriter where
  outRev : Bytes
  acc : Nat
  nb : Nat
  deriving DecidableEq, Repr

/-- A writer is created empty (rule R120). -/
def emptyWriter : BitWriter := ⟨[], 0, 0⟩

/-- `PutBit(b)` (rule R121). -/
def putBit (b : Bool) (w : BitWriter) : BitWriter :=
  let acc := 2 * w.acc + (if b then 1 else 0)
  if w.nb + 1 = 8 then ⟨BitVec.ofNat 8 acc :: w.outRev, 0, 0⟩ else ⟨w.outRev, acc, w.nb + 1⟩

/-- `k` calls of `PutBit(b)`. -/
def putBits (b : Bool) : Nat → BitWriter → BitWriter
  | 0, w => w
  | k + 1, w => putBits b k (putBit b w)

/-- `Flush()`: the bits held become the high bits of a last byte, the rest of it 0 (rule R122). -/
def flush (w : BitWriter) : Bytes :=
  if 0 < w.nb then (BitVec.ofNat 8 (w.acc * 2 ^ (8 - w.nb)) :: w.outRev).reverse
  else w.outRev.reverse

/-- Reader state: the input string and the bit position (rule R124). -/
structure BitReader where
  input : Bytes
  bp : Nat
  deriving DecidableEq, Repr

/-- The bit of a byte that stands at stream position `j` within it, position 0 being bit 7. -/
def msbBit (b : Byte) (j : Nat) : Nat := b.toNat / 2 ^ (7 - j) % 2

/-- The bit `GetBit()` returns: 0 at and past the end of the input (rule R125). -/
def bitHere (r : BitReader) : Nat :=
  if r.bp / 8 < r.input.length then msbBit (byteIn r.input (r.bp / 8)) (r.bp % 8) else 0

/-- The reader after `GetBit()` (rule R125). -/
def skipBit (r : BitReader) : BitReader := { r with bp := r.bp + 1 }

end Sys2Proof.Machine
end

