-- ==== Sys2Proof/Machine/Params.lean ====
section
/-! DEFINITION. The engine's fixed parameters (`00_scope.md` rule R9). -/

namespace Sys2Proof.Machine

/-- AC_TOP, the initial inclusive upper bound (rule R140). -/
def acTop : Nat := 2 ^ 32 - 1
/-- AC_HALF. -/
def acHalf : Nat := 2 ^ 31
/-- AC_QUARTER. -/
def acQuarter : Nat := 2 ^ 30
/-- AC_3QUARTER. -/
def acThreeQuarter : Nat := 3 * 2 ^ 30
/-- AC_MAX_TOTAL, the largest legal table total (rule R145). -/
def acMaxTotal : Nat := 2 ^ 30 - 1
/-- AC_TABLES. -/
def acTables : Nat := 257
/-- AC_SYMBOLS. -/
def acSymbols : Nat := 256
/-- AC_MODEL_BYTES = 257 × 256 × 4. -/
def acModelBytes : Nat := 263168
/-- AC_HDR_BYTES: the model, then the 4-byte length. -/
def acHdrBytes : Nat := 263172
/-- LZ_MAX_DIST (conflict C1: the 16-bit field wins over the nominal window). -/
def lzMaxDist : Nat := 65535
/-- LZ_MAX_LEN. -/
def lzMaxLen : Nat := 255
/-- LZ_MIN_LEN. -/
def lzMinLen : Nat := 3
/-- LZ_PROBE_CAP. -/
def lzProbeCap : Nat := 256
/-- LZ_BUCKETS. -/
def lzBuckets : Nat := 32768
/-- RLE_RUN_CAP. -/
def rleRunCap : Nat := 255
/-- RLE_MARKER. -/
def rleMarker : Byte := 0xFF
/-- DELTA_STRIDE. -/
def deltaStride : Nat := 4
/-- EXE_OPCODE. -/
def exeOpcode : Byte := 0xE8
/-- MTF_SIZE. -/
def mtfSize : Nat := 256
/-- The number of bytes in the register block (rule R20). -/
def regBlockBytes : Nat := 256
/-- The number of addresses of the memory space (rule R63). -/
def addrSpace : Nat := 2 ^ 32

end Sys2Proof.Machine
end

