-- ==== Sys2Proof/Config.lean ====
section
/-! DEFINITION. What an implementation fixes (the open parameters of `00_scope.md` rule R10, as the
record `Platform` that State carries and no step changes) and the free values (constants without a
body: the spec lets them be anything). -/

namespace Sys2Proof

/-- The bytes at addresses `base .. base + size - 1`. -/
structure Range where
  base : Nat
  size : Nat
  deriving DecidableEq, Repr

/-- The open parameters of `00_scope.md` rule R10.  "a model takes as arguments": they stand in State
so that a statement about every state holds for every platform (log 2).  MemOK is given by the
ranges of addresses where it is FALSE: any predicate on the 2^32 addresses is such a list. -/
structure Platform where
  /-- REG_BASE: bus address of the 256-byte register block. -/
  regBase : Word
  /-- MAX_LEN: the capacity in bytes of each internal working buffer. -/
  maxLen : Nat
  /-- DMA_COHERENT: whether engine accesses are coherent with the host's caches. -/
  dmaCoherent : Bool
  /-- The addresses where a bus-master access is a bus error (MemOK false). -/
  busErrors : List Range
  deriving DecidableEq, Repr

/-- The constraints that rule R10 puts on the parameters: REG_BASE 256-byte aligned,
`1 ≤ MAX_LEN ≤ 2^32 − 1`. -/
def Platform.wf (p : Platform) : Bool :=
  p.regBase.toNat % 256 == 0 && decide (1 ≤ p.maxLen) && decide (p.maxLen < 2 ^ 32)

/-- FREE VALUE: the k-th draw of a byte that the spec lets be any value (`93_implementation_defined.md`
H1, H2, H3).  State.draws counts the draws taken. -/
opaque Config.freeByte : Nat → Byte

end Sys2Proof
end

