-- ==== Sys2Proof/Machine/State.lean ====
section
/-! DEFINITION. The state of the engine and of its host (plain data), the reasons a step can stop, and the
state after reset (`10_state.md`, `60_exceptions.md` rules R321, R330, R331). -/

namespace Sys2Proof.Machine

/-- Memory as (address, byte) pairs.  Canonical form: `Memory.wf` (Machine/Memory.lean). -/
abbrev Memory := List Host.Cell

/-- The nonzero error codes that STATUS.ERRCODE can hold (`60_exceptions.md` rule R321); their
numbers are `ErrCode.byte` (Machine/Flags.lean). -/
inductive ErrCode where
  | illegalCmd | badRange | overlap | dstOverflow | tooLarge | busError
  | acShortInput | acBadModel | acZeroLength | acTooLarge
  | lzBadSize | lzBadToken
  | bwtBadIndex
  | rleTruncated | rleZeroRun
  | unknownAlg | pipeShort
  deriving DecidableEq, Repr

/-- The six registers that START latches as the command's operands (`10_state.md` rule R25). -/
structure Operands where
  /-- CMD (0x08): the command word; all 32 bits are stored as written (rule R28). -/
  cmd : Word
  /-- SRC_ADDR (0x10), rule R33. -/
  srcAddr : Word
  /-- SRC_LEN (0x14), rule R34. -/
  srcLen : Word
  /-- DST_ADDR (0x18), rule R35. -/
  dstAddr : Word
  /-- DST_CAP (0x1C), rule R36. -/
  dstCap : Word
  /-- AUX (0x24), rule R38. -/
  aux : Word
  deriving DecidableEq, Repr

/-- The reset values of the six operand registers (`10_state.md` rule R52). -/
def Operands.reset : Operands :=
  { cmd := 0, srcAddr := 0, srcLen := 0, dstAddr := 0, dstCap := 0, aux := 0 }

/-- The ten registers of the register block (`10_state.md` rule R20). -/
inductive Reg where
  | id | ctrl | cmd | status | srcAddr | srcLen | dstAddr | dstCap | outLen | aux
  deriving DecidableEq, Repr

/-- How wide a host register access is; only `word` has a meaning (`10_state.md` rule R21). -/
inductive AccessWidth where
  | byte | half | word
  deriving DecidableEq, Repr

/-- A field of a register: its lowest bit and its width (the `<REG>.<FIELD>` of
`30_encoding.md` rule R98). -/
structure Field where
  lo : Nat
  width : Nat
  deriving DecidableEq, Repr

/-- What the outside does to the engine and to memory, one atomic step each: the host's register
and memory accesses in program order (`00_scope.md` rule R17, `30_encoding.md` rules R98, R99), the
host's cache maintenance (`20_memory.md` rule R80), and the platform's reset input
(`70_reset_and_hazards.md` rule R360). -/
inductive HostOp where
  /-- `WR`: a register write at a bus address. -/
  | regWrite (width : AccessWidth) (addr : Word) (value : Word)
  /-- `RD`: a register read at a bus address; its result is appended to `observed`. -/
  | regRead (width : AccessWidth) (addr : Word)
  /-- `POLL`: read the register until the field equals the value. -/
  | poll (addr : Word) (field : Field) (value : Nat)
  /-- `MEM`: the host writes the bytes at consecutive addresses. -/
  | memWrite (addr : Nat) (bytes : Bytes)
  /-- The host reads bytes of memory; the result is appended to `observed`. -/
  | memRead (addr : Nat) (count : Nat)
  /-- Wait for the interrupt (the IRQ form of `RUN`, rule R99). -/
  | waitIrq
  /-- The host writes back (cleans) its cached copies of a range. -/
  | cacheClean (range : Range)
  /-- The host discards (invalidates) its cached copies of a range. -/
  | cacheInvalidate (range : Range)
  /-- The platform asserts the engine's reset input. -/
  | hardReset
  deriving DecidableEq, Repr

/-- What a host read returned. -/
inductive Observation where
  | reg (addr : Word) (value : Word)
  | mem (addr : Nat) (bytes : Bytes)
  deriving DecidableEq, Repr

/-- The two agents of `00_scope.md` rule R17. -/
inductive Agent where
  | host | engine
  deriving DecidableEq, Repr

/-- Why the machine stops with a fault. -/
inductive Fault where
  /-- Raised by a host memory write (or the write-back of a dirty cached copy) into the latched
  source or destination range while BUSY = 1: the hazard fault of `60_exceptions.md` rule R330.
  Safe: the model stops where the hardware goes on with no defined outcome. -/
  | bufferHazard
  /-- Raised, with DMA_COHERENT false, by a START whose source range the host has not cleaned, and
  by a host read of output bytes that it has seen complete (DONE = 1) and not invalidated: "A model
  with DMA_COHERENT = false treats a host that omits either duty as a hazard" (`20_memory.md` rule
  R80; `70_reset_and_hazards.md` rule R365, `93_implementation_defined.md` H6).  Safe: the model stops
  where the hardware uses stale bytes. -/
  | coherenceHazard
  /-- Raised by a host memory access beyond the 2^32 addresses of the memory space
  (`20_memory.md` rule R63).  Safe: there is no such byte. -/
  | outsideMemory
  deriving DecidableEq, Repr

/-- Why the model gives a step no meaning. -/
inductive Refusal where
  /-- Raised by an arm of exec for an instruction without a meaning.  No arm does. Safe. -/
  | notModelled (mnemonic : String)
  /-- Raised by a host register access of 8 or 16 bits (`60_exceptions.md` rule R331).  Safe. -/
  | narrowRegisterAccess
  /-- Raised by a host register access that is not word-aligned (rule R331).  Safe. -/
  | misalignedRegisterAccess
  /-- Raised by a host register access outside the 256-byte register block (rule R331).  Safe. -/
  | outsideRegisterBlock
  deriving DecidableEq, Repr

/-- The state.  The engine has no program counter (`10_state.md` rule R40); ID is a constant
(rule R27); STATUS.ERR, the STATUS and CTRL words, the phase and the IRQ line are computed
(Machine/Flags.lean); the working state of rules R44 to R50 lives inside one command only
(rule R43, log 3). -/
structure State where
  /-- CTRL.IRQ_EN (`10_state.md` rule R24). -/
  irqEn : Bool
  /-- STATUS.BUSY, which is also the phase: RUNNING when set (rules R29, R39). -/
  busy : Bool
  /-- STATUS.DONE (rule R29). -/
  done : Bool
  /-- STATUS.ERRCODE, `none` for 0x00 (rules R29, R32). -/
  errCode : Option ErrCode
  /-- The operand registers as the host reads and writes them (rules R28, R33 to R36, R38). -/
  regs : Operands
  /-- The operands latched when the running command was accepted (rule R25). -/
  latch : Operands
  /-- OUT_LEN (rule R37). -/
  outLen : Word
  /-- The memory space (`20_memory.md` rules R60, R63). -/
  mem : Memory
  /-- The open parameters (`00_scope.md` rule R10); no step changes them. -/
  platform : Platform
  /-- The host's remaining steps, in program order (`70_reset_and_hazards.md` rule R368). -/
  inputs : List HostOp
  /-- Who moves first at each coming race of host and engine (`60_exceptions.md` rule R338); when
  none is left the engine moves (weak fairness, `70_reset_and_hazards.md` rule R368). -/
  turns : List Agent
  /-- What the host's reads returned, oldest first. -/
  observed : List Observation
  /-- Ranges that completed commands have written whose completion the host has not yet seen through
  a STATUS read returning DONE = 1 (`20_memory.md` rules R78(b), R81, log 7). -/
  unsynced : List Range
  /-- Destination ranges of abandoned commands, whose bytes a host read may find at any value
  (`10_state.md` rule R26, `93_implementation_defined.md` H2, log 4). -/
  abandoned : List Range
  /-- With DMA_COHERENT false: ranges the engine has written, seen complete, not yet invalidated
  (`20_memory.md` rule R80). -/
  stale : List Range
  /-- With DMA_COHERENT false: ranges the host has written and not yet cleaned (rule R80). -/
  dirty : List Range
  /-- The model's own: how many free bytes have been drawn (`Config.freeByte`). -/
  draws : Nat
  deriving DecidableEq, Repr

/-- The platform that State.reset names (log 2, DESIGN CHOICE: the spec leaves all four open):
the block at 0, the largest MAX_LEN rule R10 allows, coherent, MemOK true everywhere. -/
def Platform.default : Platform :=
  { regBase := 0, maxLen := 2 ^ 32 - 1, dmaCoherent := true, busErrors := [] }

/-- The machine right after power-on hard reset (`10_state.md` rule R52, `70_reset_and_hazards.md`
rules R360, R362): every register 0, IDLE, memory with nothing listed, no host program. -/
def State.reset : State :=
  { irqEn := false, busy := false, done := false, errCode := none
    regs := Operands.reset, latch := Operands.reset, outLen := 0
    mem := [], platform := Platform.default
    inputs := [], turns := [], observed := []
    unsynced := [], abandoned := [], stale := [], dirty := [], draws := 0 }

end Sys2Proof.Machine
end

