-- ==== Sys2Proof/Machine/Flags.lean ====
section
/-! DEFINITION. The flags, the register words they make up, and the interrupt line (`10_state.md` rules
R24, R29, R39, R41, R42). -/

namespace Sys2Proof.Machine

/-- The number of an error code (`60_exceptions.md` rule R321). -/
def ErrCode.byte : ErrCode → Nat
  | .illegalCmd => 0x01
  | .badRange => 0x02
  | .overlap => 0x03
  | .dstOverflow => 0x04
  | .tooLarge => 0x05
  | .busError => 0x06
  | .acShortInput => 0x10
  | .acBadModel => 0x11
  | .acZeroLength => 0x12
  | .acTooLarge => 0x13
  | .lzBadSize => 0x20
  | .lzBadToken => 0x21
  | .bwtBadIndex => 0x30
  | .rleTruncated => 0x40
  | .rleZeroRun => 0x41
  | .unknownAlg => 0x50
  | .pipeShort => 0x51

/-- STATUS.ERRCODE (rule R29), 0x00 for no error. -/
def errCodeField : Option ErrCode → Nat
  | none => 0x00
  | some c => c.byte

/-- STATUS.ERR equals (ERRCODE ≠ 0) at every read (rule R29). -/
def errFlag (s : State) : Bool := decide (errCodeField s.errCode ≠ 0)

/-- A flag as the number 0 or 1. -/
def bit (b : Bool) : Nat := if b then 1 else 0

/-- STATUS as read: BUSY bit 0, DONE bit 1, ERR bit 2, ERRCODE bits 15:8, the rest 0 (rule R29). -/
def statusWord (s : State) : Word :=
  BitVec.ofNat 32
    (bit s.busy + bit s.done * 2 + bit (errFlag s) * 4 + errCodeField s.errCode * 2 ^ 8)

/-- CTRL as read: IRQ_EN bit 2; START, SOFT_RESET and the rest read 0 (rule R24). -/
def ctrlWord (s : State) : Word := BitVec.ofNat 32 (bit s.irqEn * 4)

/-- The interrupt output: DONE and IRQ_EN, level-sensitive (rule R42). -/
def irq (s : State) : Bool := s.done && s.irqEn

/-- ID, a constant (rule R27). -/
def idWord : Word := 0x434B0001

end Sys2Proof.Machine
end

