-- ==== Sys2Proof/Syntax.lean ====
section
/-! DEFINITION. The commands of the engine, one constructor per row of spec/opcode_table.json
(`30_encoding.md` rule R92). -/

namespace Sys2Proof

/-- A command.  The only value carried in a command word is ALG, and only by the two pipeline
commands (`30_encoding.md` rule R91); every other operand is in the operand registers. -/
inductive Instr where
  | nop
  | rleEnc
  | rleDec
  | deltaEnc
  | deltaDec
  | exeFwd
  | exeInv
  | mtfEnc
  | mtfDec
  | bwtFwd
  | bwtInv
  | lzEnc
  | lzDec
  | acEnc
  | acDec
  | pipeEnc (alg : BitVec 8)
  | pipeDec (alg : BitVec 8)
  deriving DecidableEq, Repr

end Sys2Proof
end

