-- ==== Sys2Proof/WellFormed.lean ====
section
/-! DEFINITION. Which terms of the syntax are commands of the engine: ALG is one of the six algorithm
identifiers 0..5 (`30_encoding.md` rule R93; values 6..255 are unknown identifiers, rule R95). -/

namespace Sys2Proof

/-- `alg` is one of STORE(0), LZ_ENTROPY(1), RUN_ENTROPY(2), DELTA_LZ_ENTROPY(3),
BWT_MTF_ENTROPY(4), EXEFILTER_LZ_ENTROPY(5) (`30_encoding.md` rule R93). -/
def algKnown (alg : BitVec 8) : Bool := decide (alg.toNat < 6)

/-- A well-formed command. -/
def Instr.wf : Instr → Bool
  | .nop => true
  | .rleEnc => true
  | .rleDec => true
  | .deltaEnc => true
  | .deltaDec => true
  | .exeFwd => true
  | .exeInv => true
  | .mtfEnc => true
  | .mtfDec => true
  | .bwtFwd => true
  | .bwtInv => true
  | .lzEnc => true
  | .lzDec => true
  | .acEnc => true
  | .acDec => true
  | .pipeEnc alg => algKnown alg
  | .pipeDec alg => algKnown alg

end Sys2Proof
end

