-- ==== Sys2Proof/Decode.lean ====
section
/-! DEFINITION. The command word and its decoder and encoder (`30_encoding.md` rules R90 to R95). -/

namespace Sys2Proof

/-- Why a command word is no command (`30_encoding.md` rule R95). -/
inductive DecodeError where
  /-- A reserved opcode, a nonzero reserved field, ALG on a non-pipeline opcode, or PIPE_ENC with
  an unknown algorithm identifier. -/
  | illegalCmd
  /-- PIPE_DEC with an unknown algorithm identifier. -/
  | unknownAlg
  deriving DecidableEq, Repr

/-- OPC, bits 7:0 of the command word (`30_encoding.md` rule R90). -/
def cmdOpc (w : Word) : Nat := w.toNat % 2 ^ 8

/-- ALG, bits 15:8 of the command word (`30_encoding.md` rule R90). -/
def cmdAlg (w : Word) : Nat := w.toNat / 2 ^ 8 % 2 ^ 8

/-- RSVD, bits 31:16 of the command word (`30_encoding.md` rule R90). -/
def cmdRsvd (w : Word) : Nat := w.toNat / 2 ^ 16

/-- The opcodes that carry no ALG (`30_encoding.md` rule R92, rows 0x00 to 0x0E). -/
def plainOpcodes : List (Nat × Instr) :=
  [(0x00, .nop), (0x01, .rleEnc), (0x02, .rleDec), (0x03, .deltaEnc), (0x04, .deltaDec),
   (0x05, .exeFwd), (0x06, .exeInv), (0x07, .mtfEnc), (0x08, .mtfDec), (0x09, .bwtFwd),
   (0x0A, .bwtInv), (0x0B, .lzEnc), (0x0C, .lzDec), (0x0D, .acEnc), (0x0E, .acDec)]

/-- The opcode of PIPE_ENC (`30_encoding.md` rule R92). -/
def opcPipeEnc : Nat := 0x10

/-- The opcode of PIPE_DEC (`30_encoding.md` rule R92). -/
def opcPipeDec : Nat := 0x11

/-- The command that a command word stands for, or why it stands for none: total on every word
(`30_encoding.md` rules R92, R93, R95).  PIPE_DEC with an unknown algorithm identifier is UNKNOWN_ALG
whatever RSVD holds, and every other illegal word is ILLEGAL_CMD (`92_eei_decisions.md` D3;
`60_exceptions.md` rule R322 item 1: at most one of the two applies). -/
def decode (w : Word) : Except DecodeError Instr :=
  if cmdOpc w = opcPipeDec ∧ 6 ≤ cmdAlg w then .error .unknownAlg
  else if cmdRsvd w ≠ 0 then .error .illegalCmd
  else if cmdOpc w = opcPipeDec then .ok (.pipeDec (BitVec.ofNat 8 (cmdAlg w)))
  else if cmdOpc w = opcPipeEnc then
    if 6 ≤ cmdAlg w then .error .illegalCmd else .ok (.pipeEnc (BitVec.ofNat 8 (cmdAlg w)))
  else if cmdAlg w ≠ 0 then .error .illegalCmd
  else
    match plainOpcodes.lookup (cmdOpc w) with
    | some i => .ok i
    | none => .error .illegalCmd

/-- A command word from its fields (`30_encoding.md` rule R90), RSVD = 0. -/
def cmdWord (opc alg : Nat) : Word := BitVec.ofNat 32 (opc + alg * 2 ^ 8)

/-- The complete command word of a command (`30_encoding.md` rule R94). -/
def encode : Instr → Word
  | .nop => cmdWord 0x00 0
  | .rleEnc => cmdWord 0x01 0
  | .rleDec => cmdWord 0x02 0
  | .deltaEnc => cmdWord 0x03 0
  | .deltaDec => cmdWord 0x04 0
  | .exeFwd => cmdWord 0x05 0
  | .exeInv => cmdWord 0x06 0
  | .mtfEnc => cmdWord 0x07 0
  | .mtfDec => cmdWord 0x08 0
  | .bwtFwd => cmdWord 0x09 0
  | .bwtInv => cmdWord 0x0A 0
  | .lzEnc => cmdWord 0x0B 0
  | .lzDec => cmdWord 0x0C 0
  | .acEnc => cmdWord 0x0D 0
  | .acDec => cmdWord 0x0E 0
  | .pipeEnc alg => cmdWord opcPipeEnc alg.toNat
  | .pipeDec alg => cmdWord opcPipeDec alg.toNat

/-- The bits `w` of a command of `nbits` bits, as the 32-bit command word that CMD holds: the bits
above `nbits` are 0.  None where a bit above bit 31 is set: CMD has no such bit. -/
def tableWord (nbits w : Nat) : Option Word :=
  if w % 2 ^ nbits < 2 ^ 32 then some (BitVec.ofNat 32 (w % 2 ^ nbits)) else none

/-- The command that the decoder reads from the bits `w` as spec/opcode_table.json numbers them. -/
def decodeTableWord (nbits w : Nat) : Option Instr :=
  match tableWord nbits w with
  | none => none
  | some c =>
    match decode c with
    | .ok i => some i
    | .error _ => none

end Sys2Proof
end

