-- ==== Sys2Proof/Machine/Memory.lean ====
section
/-! DEFINITION. The operations on memory (`00_scope.md` rule R14, `20_memory.md` rules R63 to R65). -/

namespace Sys2Proof.Machine

/-- What an unlisted address reads as (log 1, DESIGN CHOICE: the spec gives memory no power-on
contents; the programs of `95_test_vectors.md` start from all-zero memory). -/
def unlistedByte : Byte := 0

/-- The byte at an address. -/
def readByte (m : Memory) (a : Nat) : Byte :=
  match m.lookup a with
  | some b => b
  | none => unlistedByte

/-- The addresses of the list rise strictly. -/
def keysRise : Memory → Bool
  | [] => true
  | [_] => true
  | c :: d :: m => decide (c.1 < d.1) && keysRise (d :: m)

/-- The canonical form: addresses strictly rising and below 2^32, no entry equal to what an unlisted
address reads as. -/
def Memory.wf (m : Memory) : Bool :=
  keysRise m && m.all (fun c => decide (c.1 < 2 ^ 32) && decide (c.2 ≠ unlistedByte))

/-- The cells for a byte string stored from address `a` on, less those that an unlisted address
reads as anyway. -/
def cellsFrom (a : Nat) : Bytes → Memory
  | [] => []
  | b :: bs => if b = unlistedByte then cellsFrom (a + 1) bs else (a, b) :: cellsFrom (a + 1) bs

/-- `MemWrite`: byte `k` of the string goes to address `a + k`; every other address keeps its byte. -/
def writeBytes (m : Memory) (a : Nat) (bs : Bytes) : Memory :=
  m.filter (fun c => decide (c.1 < a)) ++ cellsFrom a bs ++
    m.filter (fun c => decide (a + bs.length ≤ c.1))

/-- `n` bytes from address `a` on, walking down a memory whose cells from `a` on stand at its head. -/
def readFrom : Memory → Nat → Nat → Bytes
  | _, _, 0 => []
  | [], _, n + 1 => List.replicate (n + 1) unlistedByte
  | c :: m, a, n + 1 =>
    if c.1 = a then c.2 :: readFrom m (a + 1) n else unlistedByte :: readFrom (c :: m) (a + 1) n

/-- `MemRead`: the `n` bytes at addresses `a .. a + n - 1` of a memory in canonical form. -/
def readBytes (m : Memory) (a n : Nat) : Bytes :=
  readFrom (m.filter (fun c => decide (a ≤ c.1))) a n

/-- `n` free bytes, the draws `k .. k + n - 1`. -/
def freeBytes (k n : Nat) : Bytes := (List.range n).map (fun i => Config.freeByte (k + i))

end Sys2Proof.Machine
end

