-- ==== Sys2Proof/Machine/Ranges.lean ====
section
/-! DEFINITION. Sets of addresses as ranges (`20_memory.md` rules R76, R77, R86). -/

namespace Sys2Proof.Machine

/-- The address is one of the range's bytes. -/
def inRange (r : Range) (a : Nat) : Bool := decide (r.base ≤ a) && decide (a < r.base + r.size)

/-- The two ranges share an address (an empty range shares none). -/
def rangesMeet (r q : Range) : Bool :=
  decide (0 < r.size) && decide (0 < q.size) &&
    decide (r.base < q.base + q.size) && decide (q.base < r.base + r.size)

/-- Some range of the list holds the address. -/
def inRanges (rs : List Range) (a : Nat) : Bool := rs.any (inRange · a)

/-- Some range of the list shares an address with `q`. -/
def meetsAny (rs : List Range) (q : Range) : Bool := rs.any (rangesMeet · q)

/-- The bytes of `r` that are not in `q`: what lies below it and what lies above it. -/
def rangeMinus (r q : Range) : List Range :=
  if rangesMeet r q then
    [⟨r.base, q.base - r.base⟩, ⟨q.base + q.size, r.base + r.size - (q.base + q.size)⟩].filter
      (fun p => decide (0 < p.size))
  else [r]

/-- The bytes of the listed ranges that are not in `q`. -/
def rangesMinus (rs : List Range) (q : Range) : List Range := rs.flatMap (rangeMinus · q)

/-- The bytes in both ranges. -/
def rangeInter (r q : Range) : Range :=
  ⟨max r.base q.base, min (r.base + r.size) (q.base + q.size) - max r.base q.base⟩

/-- Add a range to a list, unless it is empty. -/
def addRange (rs : List Range) (q : Range) : List Range := if q.size = 0 then rs else rs ++ [q]

end Sys2Proof.Machine
end

