-- ==== Sys2Proof/Machine/Operands.lean ====
section
/-! DEFINITION. The operands of a command: the source and destination ranges, the checks on them before any
memory access, and the source bytes (`20_memory.md` rules R64, R66, R76, R77, `60_exceptions.md` rule
R320 steps 2 to 4). -/

namespace Sys2Proof.Machine

/-- `[SRC_ADDR, SRC_ADDR + SRC_LEN)`. -/
def Operands.src (o : Operands) : Range := ⟨o.srcAddr.toNat, o.srcLen.toNat⟩

/-- `[DST_ADDR, DST_ADDR + DST_CAP)`. -/
def Operands.dst (o : Operands) : Range := ⟨o.dstAddr.toNat, o.dstCap.toNat⟩

/-- A buffer wraps around the top of the address space (`20_memory.md` rule R76). -/
def wraps (r : Range) : Bool := decide (addrSpace < r.base + r.size)

/-- Steps 2 and 3 of `60_exceptions.md` rule R320, in its order: the error, if there is one. -/
def preflight (p : Platform) (o : Operands) : Option ErrCode :=
  if wraps o.src || wraps o.dst then some .badRange
  else if rangesMeet o.src o.dst then some .overlap
  else if p.maxLen < o.srcLen.toNat then some .tooLarge
  else none

/-- MemOK holds at every address of the range (`00_scope.md` rule R10, `20_memory.md` rule R66). -/
def memOk (p : Platform) (r : Range) : Bool := !meetsAny p.busErrors r

/-- The source string `S = MemRead(SRC_ADDR, SRC_LEN)` of the latched operands (rule R64). -/
def sourceBytes (s : State) : Bytes :=
  readBytes s.mem s.latch.srcAddr.toNat s.latch.srcLen.toNat

/-- The command, once accepted, gets past steps 1 to 3 and is not NOP, so it reads its source and
may write its destination (`60_exceptions.md` rule R320). -/
def accessesMemory (p : Platform) (o : Operands) : Bool :=
  match decode o.cmd with
  | .error _ => false
  | .ok .nop => false
  | .ok _ => (preflight p o).isNone

end Sys2Proof.Machine
end

