-- ==== Sys2Proof/Machine/Ops.lean ====
section
/-! DEFINITION. The shared operations on the state: applying a command's result function, completing a
command (the engine's analogue of taking an exception, `60_exceptions.md` rule R340), acknowledging it
(the analogue of the return, rule R341), accepting a command, resetting, and the register block. -/

namespace Sys2Proof.Machine

/-! ## Engine writes to memory -/

/-- A completing command has written the range: the host must see DONE = 1 before it reads it, and
any cached copy the host holds of it is stale (`20_memory.md` rules R78(b), R80, logs 7 and 8). -/
def noteEngineWrite (r : Range) (s : State) : State :=
  { s with
    unsynced := addRange s.unsynced r
    abandoned := rangesMinus s.abandoned r
    dirty := rangesMinus s.dirty r }

/-- A command abandoned by a reset may have written the range.  It never reports DONE = 1, so none
of rule R80's duties is about it (`20_memory.md` rule R80, `10_state.md` rule R26, log 4). -/
def noteAbandonedWrite (r : Range) (s : State) : State :=
  { s with abandoned := addRange s.abandoned r, dirty := rangesMinus s.dirty r }

/-- Every byte of the range takes any value. -/
def spoilRange (s : State) (r : Range) : State :=
  { s with
    mem := writeBytes s.mem r.base (freeBytes s.draws r.size)
    draws := s.draws + r.size }

/-- Every byte of the latched destination range takes any value: the destination of a failed command
(`20_memory.md` rule R65). -/
def spoilDst (s : State) : State := noteEngineWrite s.latch.dst (spoilRange s s.latch.dst)

/-- `MemWrite(DST_ADDR, len(D), D)` of the latched operands (`20_memory.md` rule R65). -/
def storeDst (D : Bytes) (s : State) : State :=
  noteEngineWrite ⟨s.latch.dstAddr.toNat, D.length⟩
    { s with mem := writeBytes s.mem s.latch.dstAddr.toNat D }

/-! ## Command application and completion (`60_exceptions.md` rule R320) -/

/-- What a result function returns as Ok: the output string and, for BWT_FWD, the new AUX value
(`00_scope.md` rule R14). -/
structure Output where
  bytes : Bytes
  aux : Option Word
  deriving DecidableEq, Repr

/-- A result function, given MAX_LEN, the source string and AUX (`00_scope.md` rule R14). -/
abbrev ResultFn := Nat → Bytes → Word → Except ErrCode Output

/-- A result function that writes no AUX, reads none and meets no size limit of its own. -/
def plainResult (f : Bytes → Except ErrCode Bytes) : ResultFn := fun _ S _ =>
  match f S with
  | .ok D => .ok ⟨D, none⟩
  | .error c => .error c

/-- The outcome of a command. -/
inductive CmdOutcome where
  /-- Success with output `D` and, if given, a new AUX value. -/
  | ok (D : Bytes) (aux : Option Word)
  /-- Failure; `touched` says that the command got past steps 1 to 3, so that its destination range
  may hold any values. -/
  | fail (code : ErrCode) (touched : Bool)
  deriving DecidableEq, Repr

/-- Steps 2 to 7 of rule R320 for a command with result function `f`, in the order of rule R322. -/
def outcome (f : ResultFn) (s : State) : CmdOutcome :=
  match preflight s.platform s.latch with
  | some c => .fail c false
  | none =>
    if memOk s.platform s.latch.src = false then .fail .busError true
    else
      match f s.platform.maxLen (sourceBytes s) s.latch.aux with
      | .error c => .fail c true
      | .ok out =>
        if s.platform.maxLen < out.bytes.length then .fail .tooLarge true
        else if s.latch.dstCap.toNat < out.bytes.length then .fail .dstOverflow true
        else if memOk s.platform ⟨s.latch.dstAddr.toNat, out.bytes.length⟩ = false then
          .fail .busError true
        else .ok out.bytes out.aux

/-- AUX after a success: the value BWT_FWD gives, else unchanged (`10_state.md` rule R38). -/
def auxAfter (old : Word) : Option Word → Word
  | some v => v
  | none => old

/-- Completion (rule R320, `Complete`): the output is stored or the destination spoiled, OUT_LEN,
AUX and ERRCODE are written, BUSY falls and DONE rises. -/
def complete (o : CmdOutcome) (s : State) : State :=
  match o with
  | .ok D aux =>
    { storeDst D s with
      outLen := BitVec.ofNat 32 D.length
      regs := { s.regs with aux := auxAfter s.regs.aux aux }
      errCode := none, busy := false, done := true }
  | .fail c touched =>
    { (if touched then spoilDst s else s) with
      outLen := 0, errCode := some c, busy := false, done := true }

/-- The engine's step for a command with result function `f`. -/
def runCommand (f : ResultFn) (s : State) : Host.Outcome State Fault Refusal :=
  .next (complete (outcome f s) s)

/-- The error code of an illegal command word (`30_encoding.md` rule R95, `92_eei_decisions.md` D3). -/
def illegalWordCode : DecodeError → ErrCode
  | .illegalCmd => .illegalCmd
  | .unknownAlg => .unknownAlg

/-- The engine's step for an illegal command word: an error and no memory access
(`30_encoding.md` rule R95, `60_exceptions.md` rule R320 step 1). -/
def completeIllegal (e : DecodeError) (s : State) : State :=
  complete (.fail (illegalWordCode e) false) s

/-- The acknowledgement: DONE falls and with it the interrupt; nothing else changes
(`10_state.md` rule R31, `60_exceptions.md` rule R341). -/
def acknowledge (s : State) : State := { s with done := false }

/-! ## Acceptance and reset -/

/-- The host still holds dirty copies of bytes of the source range.  Rule R80 asks it to clean the
range "before accepting the command" and exempts no command, NOP and illegal words included
(`20_memory.md` rule R80). -/
def uncleanSource (s : State) : Bool := !s.platform.dmaCoherent && meetsAny s.dirty s.regs.src

/-- The registers and the latch just after acceptance (`10_state.md` rule R25). -/
def latchCommand (s : State) : State :=
  { s with busy := true, done := false, errCode := none, outLen := 0, latch := s.regs }

/-- Acceptance of a command (`10_state.md` rule R25); a host that has not cleaned the source range is
at the hazard of `20_memory.md` rule R80. -/
def accept (s : State) : Host.Outcome State Fault Refusal :=
  if uncleanSource s then .fault .coherenceHazard else .next (latchCommand s)

/-- Abandoning a running command: it may have written its destination range, if it is one that
writes memory at all (`10_state.md` rule R26, `60_exceptions.md` rule R320, log 13). -/
def abandon (s : State) : State :=
  if s.busy && accessesMemory s.platform s.latch then
    noteAbandonedWrite s.latch.dst (spoilRange s s.latch.dst)
  else s

/-- Every register, field, the phase and the IRQ line take their reset values: the effect of the
soft and of the hard reset (`10_state.md` rules R26, R52, `70_reset_and_hazards.md` rules R360, R361). -/
def resetEngine (s : State) : State :=
  { abandon s with
    irqEn := false, busy := false, done := false, errCode := none
    regs := Operands.reset, latch := Operands.reset, outLen := 0 }

/-! ## The register block (`10_state.md` rules R20 to R38) -/

/-- The register map (rule R20). -/
def regMap : List (Nat × Reg) :=
  [(0x00, .id), (0x04, .ctrl), (0x08, .cmd), (0x0C, .status), (0x10, .srcAddr), (0x14, .srcLen),
   (0x18, .dstAddr), (0x1C, .dstCap), (0x20, .outLen), (0x24, .aux)]

/-- The value of a register as read; no read changes a register (rules R21, R75). -/
def readReg (r : Reg) (s : State) : Word :=
  match r with
  | .id => idWord
  | .ctrl => ctrlWord s
  | .cmd => s.regs.cmd
  | .status => statusWord s
  | .srcAddr => s.regs.srcAddr
  | .srcLen => s.regs.srcLen
  | .dstAddr => s.regs.dstAddr
  | .dstCap => s.regs.dstCap
  | .outLen => s.outLen
  | .aux => s.regs.aux

/-- The value read at an offset; a reserved offset reads 0 (rule R22). -/
def readOffset (off : Nat) (s : State) : Word :=
  match regMap.lookup off with
  | some r => readReg r s
  | none => 0

/-- A write to CTRL (rules R24, R25, R26): the soft reset first, then IRQ_EN, then START. -/
def writeCtrl (v : Word) (s : State) : Host.Outcome State Fault Refusal :=
  if v.getLsbD 1 then .next (resetEngine s)
  else if v.getLsbD 0 && !s.busy then accept { s with irqEn := v.getLsbD 2 }
  else .next { s with irqEn := v.getLsbD 2 }

/-- A write to an operand register; ignored while BUSY = 1 (rule R23). -/
def writeOperand (f : Operands → Operands) (s : State) : State :=
  if s.busy then s else { s with regs := f s.regs }

/-- A write to STATUS: bit 1 clears DONE while BUSY = 0, all else is ignored (rules R23, R31). -/
def writeStatus (v : Word) (s : State) : State :=
  if v.getLsbD 1 && !s.busy then acknowledge s else s

/-- A host write to a register (rules R22 to R38); ID and OUT_LEN ignore writes. -/
def writeReg (r : Reg) (v : Word) (s : State) : Host.Outcome State Fault Refusal :=
  match r with
  | .id => .next s
  | .ctrl => writeCtrl v s
  | .cmd => .next (writeOperand (fun o => { o with cmd := v }) s)
  | .status => .next (writeStatus v s)
  | .srcAddr => .next (writeOperand (fun o => { o with srcAddr := v }) s)
  | .srcLen => .next (writeOperand (fun o => { o with srcLen := v }) s)
  | .dstAddr => .next (writeOperand (fun o => { o with dstAddr := v }) s)
  | .dstCap => .next (writeOperand (fun o => { o with dstCap := v }) s)
  | .outLen => .next s
  | .aux => .next (writeOperand (fun o => { o with aux := v }) s)

/-- A host write at an offset; a reserved offset ignores it (rule R22). -/
def writeOffset (off : Nat) (v : Word) (s : State) : Host.Outcome State Fault Refusal :=
  match regMap.lookup off with
  | some r => writeReg r v s
  | none => .next s

end Sys2Proof.Machine
end

