-- ==== Sys2Proof/Machine/ArithCoder.lean ====
section
/-! DEFINITION. The context-adaptive arithmetic entropy coder: AC_ENC and AC_DEC (`41_arith_coder.md`). -/

namespace Sys2Proof.Machine

/-! ## The model -/

/-- The 256 counts of a table, in symbol order (rule R141). -/
abbrev FreqTable := List Nat

/-- The 257 tables: table 0 is the initial one, table `1 + c` the one of context `c` (rule R141). -/
abbrev FreqModel := List FreqTable

/-- The table used after a byte (rule R141). -/
def ctxTable (prev : Byte) : Nat := 1 + prev.toNat

/-- Table `t` of a model. -/
def tableOf (m : FreqModel) (t : Nat) : FreqTable := m.getD t []

/-- Every count 1: the Laplace floor (rule R142). -/
def laplaceModel : FreqModel := List.replicate acTables (List.replicate acSymbols 1)

/-- Add one to a count (rule R142). -/
def bumpCount (m : FreqModel) (t s : Nat) : FreqModel := m.modify t (fun tb => tb.modify s (· + 1))

/-- Count the bytes of a plaintext, the first with table `t` (rule R142). -/
def trainFrom (t : Nat) (m : FreqModel) : Bytes → FreqModel
  | [] => m
  | b :: bs => trainFrom (ctxTable b) (bumpCount m t b.toNat) bs

/-- The trained model of a plaintext (rule R142). -/
def trainModel (P : Bytes) : FreqModel := trainFrom 0 laplaceModel P

/-- `cum[t][s]`: the sum of the counts of the symbols below `s` (rule R143). -/
def cumFreq (tb : FreqTable) (s : Nat) : Nat := (tb.take s).sum

/-- `total[t]` (rule R143). -/
def tableTotal (tb : FreqTable) : Nat := tb.sum

/-- Some table total is over AC_MAX_TOTAL (rule R145). -/
def overLimit (m : FreqModel) : Bool := m.any (fun tb => decide (acMaxTotal < tableTotal tb))

/-- The serialized model: every count as `be32`, tables and symbols in order (rule R144). -/
def serializeModel (m : FreqModel) : Bytes := m.flatMap (fun tb => tb.flatMap be32)

/-- The successive four-byte big-endian numbers of a string. -/
def be32s : Bytes → List Nat
  | b0 :: b1 :: b2 :: b3 :: rest => ofBe32 b0 b1 b2 b3 :: be32s rest
  | _ => []

/-- `k` successive pieces of `n` elements. -/
def pieces (n : Nat) : Nat → List Nat → List (List Nat)
  | 0, _ => []
  | k + 1, l => l.take n :: pieces n k (l.drop n)

/-- The model at the head of an AC stream (rule R154, the layout of rule R144). -/
def loadModel (S : Bytes) : FreqModel :=
  pieces acSymbols acTables (be32s (S.take acModelBytes))

/-- A loaded model is corrupted: a count is 0 or a table total is over the limit (rule R154). -/
def badModel (m : FreqModel) : Bool := m.any (fun tb => tb.any (· == 0)) || overLimit m

/-! ## The interval -/

/-- The current code interval, `high` inclusive (`10_state.md` rule R45). -/
structure Interval where
  low : Nat
  high : Nat
  deriving DecidableEq, Repr

/-- The initial interval (rules R146, R155). -/
def fullInterval : Interval := ⟨0, acTop⟩

/-- `r`, the width of the interval (rule R147). -/
def intervalWidth (v : Interval) : Nat := v.high - v.low + 1

/-- `Narrow(t, s)`, shared by encoder and decoder (rules R147, R157). -/
def narrow (tb : FreqTable) (s : Nat) (v : Interval) : Interval :=
  { low := v.low + intervalWidth v * cumFreq tb s / tableTotal tb
    high := v.low + intervalWidth v * cumFreq tb (s + 1) / tableTotal tb - 1 }

/-- The four outcomes of the renormalization tests (rules R148, R158). -/
inductive RenormCase where
  /-- `high` is below half. -/
  | lower
  /-- `low` is at or above half. -/
  | upper
  /-- Both bounds lie within the middle quarters. -/
  | middle
  /-- None of these: the loop ends. -/
  | settled
  deriving DecidableEq, Repr

/-- The tests, in their order (rules R148, R158). -/
def renormCase (v : Interval) : RenormCase :=
  if v.high < acHalf then .lower
  else if acHalf ≤ v.low then .upper
  else if acQuarter ≤ v.low ∧ v.high < acThreeQuarter then .middle
  else .settled

/-- Subtract from both bounds, then shift `low` left by a 0 and `high` by a 1 (rule R148). -/
def shiftBounds (off : Nat) (v : Interval) : Interval :=
  { low := 2 * (v.low - off), high := 2 * (v.high - off) + 1 }

/-- What each case subtracts from the bounds (rules R148, R158). -/
def renormOffset : RenormCase → Nat
  | .lower => 0
  | .upper => acHalf
  | .middle => acQuarter
  | .settled => 0

/-- How many shifts a renormalization can take: each doubles the width, which is at least 1 before
and at most 2^32 after (rule R160(d)). -/
def renormFuel : Nat := 32

/-! ## The encoder -/

/-- The encoder's registers and its bit writer (`10_state.md` rules R45, R46). -/
structure Encoder where
  interval : Interval
  pending : Nat
  writer : BitWriter
  deriving DecidableEq, Repr

/-- The encoder's initial state (rule R146). -/
def initEncoder : Encoder := ⟨fullInterval, 0, emptyWriter⟩

/-- `EmitBit(b)`: the bit, then the deferred bits as its complement (rule R149). -/
def emitBit (b : Bool) (e : Encoder) : Encoder :=
  { e with writer := putBits (!b) e.pending (putBit b e.writer), pending := 0 }

/-- What the encoder does with its bits in each case (rule R148). -/
def renormEmit (c : RenormCase) (e : Encoder) : Encoder :=
  match c with
  | .lower => emitBit false e
  | .upper => emitBit true e
  | .middle => { e with pending := e.pending + 1 }
  | .settled => e

/-- One shift of the encoder's renormalization, in case `c` (rule R148). -/
def renormEncShift (c : RenormCase) (e : Encoder) : Encoder :=
  { renormEmit c e with interval := shiftBounds (renormOffset c) e.interval }

/-- `RenormEnc()`, at most `k` shifts (rule R148). -/
def renormEnc : Nat → Encoder → Encoder
  | 0, e => e
  | k + 1, e =>
    match renormCase e.interval with
    | .settled => e
    | .lower => renormEnc k (renormEncShift .lower e)
    | .upper => renormEnc k (renormEncShift .upper e)
    | .middle => renormEnc k (renormEncShift .middle e)

/-- Encode one symbol with a table: narrow, then renormalize (rule R152). -/
def encodeSym (tb : FreqTable) (s : Nat) (e : Encoder) : Encoder :=
  renormEnc renormFuel { e with interval := narrow tb s e.interval }

/-- Encode a plaintext, its first byte with table `t` (rule R152). -/
def encodeFrom (m : FreqModel) (t : Nat) : Bytes → Encoder → Encoder
  | [], e => e
  | b :: bs, e => encodeFrom m (ctxTable b) bs (encodeSym (tableOf m t) b.toNat e)

/-- `FinishEnc()`: one more deferred bit, the final bit, the deferred bits, the padding (rule R150). -/
def finishEnc (e : Encoder) : Bytes :=
  flush (emitBit (decide (acQuarter ≤ e.interval.low)) { e with pending := e.pending + 1 }).writer

/-- The coded bits of a plaintext under a model (rule R152). -/
def codedBits (m : FreqModel) (P : Bytes) : Bytes := finishEnc (encodeFrom m 0 P initEncoder)

/-- `F_AC_ENC` (rule R152). -/
def acEncode (S : Bytes) : Except ErrCode Bytes :=
  if S.length = 0 then .ok []
  else if overLimit (trainModel S) then .error .acTooLarge
  else .ok (serializeModel (trainModel S) ++ be32 S.length ++ codedBits (trainModel S) S)

/-! ## The decoder -/

/-- The decoder's registers and its bit reader (`10_state.md` rules R45, R46). -/
structure Decoder where
  interval : Interval
  value : Nat
  reader : BitReader
  deriving DecidableEq, Repr

/-- Shift the next code bit into a value: `2 · value + GetBit()`. -/
def pullBit (value : Nat) (d : Decoder) : Decoder :=
  { d with value := 2 * value + bitHere d.reader, reader := skipBit d.reader }

/-- `k` code bits shifted into `value`. -/
def pullBits : Nat → Decoder → Decoder
  | 0, d => d
  | k + 1, d => pullBits k (pullBit d.value d)

/-- The decoder's initial state over the code bytes (rule R155). -/
def initDecoder (B : Bytes) : Decoder := pullBits 32 ⟨fullInterval, 0, ⟨B, 0⟩⟩

/-- The symbol whose cumulative interval contains a position: the first with `scaled < cum[s + 1]`
(rule R156). -/
def symbolAt : FreqTable → Nat → Nat
  | [], _ => 0
  | c :: tb, scaled => if scaled < c then 0 else 1 + symbolAt tb (scaled - c)

/-- The scaled position of the code value (rule R156). -/
def scaledPos (tb : FreqTable) (d : Decoder) : Nat :=
  ((d.value - d.interval.low + 1) * tableTotal tb - 1) / intervalWidth d.interval

/-- One shift of the decoder's renormalization, in case `c` (rule R158). -/
def renormDecShift (c : RenormCase) (d : Decoder) : Decoder :=
  { pullBit (d.value - renormOffset c) d with
    interval := shiftBounds (renormOffset c) d.interval }

/-- `RenormDec()`, at most `k` shifts (rule R158). -/
def renormDec : Nat → Decoder → Decoder
  | 0, d => d
  | k + 1, d =>
    match renormCase d.interval with
    | .settled => d
    | .lower => renormDec k (renormDecShift .lower d)
    | .upper => renormDec k (renormDecShift .upper d)
    | .middle => renormDec k (renormDecShift .middle d)

/-- The decoder after it has decoded symbol `s` with a table (rules R157, R158). -/
def decodeSym (tb : FreqTable) (s : Nat) (d : Decoder) : Decoder :=
  renormDec renormFuel { d with interval := narrow tb s d.interval }

/-- Decode a number of symbols, the first with table `t` (rule R159). -/
def decodeFrom (m : FreqModel) : Nat → Nat → Decoder → Bytes
  | 0, _, _ => []
  | k + 1, t, d =>
    let s := symbolAt (tableOf m t) (scaledPos (tableOf m t) d)
    BitVec.ofNat 8 s ::
      decodeFrom m k (ctxTable (BitVec.ofNat 8 s)) (decodeSym (tableOf m t) s d)

/-- `F_AC_DEC`, with its header checks in their order (rules R153, R154, R159). -/
def acDecode (maxLen : Nat) (S : Bytes) : Except ErrCode Bytes :=
  if S.length < acHdrBytes then .error .acShortInput
  else if badModel (loadModel S) then .error .acBadModel
  else if rdBe32 S acModelBytes = 0 then .error .acZeroLength
  else if maxLen < rdBe32 S acModelBytes then .error .tooLarge
  else
    .ok (decodeFrom (loadModel S) (rdBe32 S acModelBytes) 0 (initDecoder (S.drop acHdrBytes)))

/-! ## The commands -/

/-- AC_ENC (OPC 0x0D, rule R152). -/
def execAcEnc (s : State) : Host.Outcome State Fault Refusal := runCommand (plainResult acEncode) s

/-- AC_DEC as a result function: it checks its length field against MAX_LEN (rule R153). -/
def acDecResult : ResultFn := fun maxLen S aux => plainResult (acDecode maxLen) maxLen S aux

/-- AC_DEC (OPC 0x0E, rule R159). -/
def execAcDec (s : State) : Host.Outcome State Fault Refusal := runCommand acDecResult s

end Sys2Proof.Machine
end

