-- ==== Sys2Proof/Machine/BlockSort.lean ====
section
/-! DEFINITION. The block-sort transform and the move-to-front recoder: BWT_FWD, BWT_INV, MTF_ENC, MTF_DEC
(`43_bwt_mtf.md`). -/

namespace Sys2Proof.Machine

/-! ## BWT forward -/

/-- `rot(i) = S[i..n) ++ S[0..i)` (rule R230). -/
def rotation (S : Bytes) (i : Nat) : Bytes := S.drop i ++ S.take i

/-- Lexicographic order of byte strings, bytes compared as unsigned values (rule R230). -/
def bytesOrder : Bytes → Bytes → Ordering
  | [], [] => .eq
  | [], _ :: _ => .lt
  | _ :: _, [] => .gt
  | a :: as, b :: bs =>
    if a.toNat < b.toNat then .lt else if b.toNat < a.toNat then .gt else bytesOrder as bs

/-- Rotation `i` stands at or before rotation `j`: it is smaller, or equal with `i ≤ j` (rule R230). -/
def rotationLe (S : Bytes) (i j : Nat) : Bool :=
  match bytesOrder (rotation S i) (rotation S j) with
  | .lt => true
  | .eq => decide (i ≤ j)
  | .gt => false

/-- `SA`, the sorted rotation order (rule R230). -/
def sortedRotations (S : Bytes) : List Nat :=
  List.insertionSort (fun i j => rotationLe S i j = true) (List.range S.length)

/-- The transformed bytes (rule R231). -/
def bwtBytes (S : Bytes) : Bytes :=
  (sortedRotations S).map (fun i => byteIn S ((i + S.length - 1) % S.length))

/-- The primary index: the `k` with `SA[k] = 0` (rule R232); 0 for the empty input (rule R233). -/
def bwtPrimary (S : Bytes) : Nat := (sortedRotations S).idxOf 0

/-- `F_BWT_FWD` (rule R234). -/
def bwtFwdResult : ResultFn := fun _ S _ =>
  .ok ⟨bwtBytes S, some (BitVec.ofNat 32 (bwtPrimary S))⟩

/-! ## BWT inverse -/

/-- The indices of `L` that hold byte value `v`, in increasing order. -/
def indicesOf (L : Bytes) (v : Nat) : List Nat :=
  (List.range L.length).filter (fun i => (byteIn L i).toNat == v)

/-- `ord`: the indices of `L` stably sorted by their byte value (rule R235). -/
def stableOrder (L : Bytes) : List Nat := (List.range 256).flatMap (indicesOf L)

/-- `LF[i]`: the place of `i` in `ord` (rule R235). -/
def nextPos (ord : List Nat) (i : Nat) : Nat := ord.idxOf i

/-- The bytes collected by `k` steps of the walk from `q` (rule R236). -/
def walkFrom (L : Bytes) (ord : List Nat) : Nat → Nat → Bytes
  | 0, _ => []
  | k + 1, q => byteIn L q :: walkFrom L ord k (nextPos ord q)

/-- `F_BWT_INV` on a string and a primary index (rule R237). -/
def bwtInverse (L : Bytes) (p : Nat) : Except ErrCode Bytes :=
  if L.length = 0 then if p ≠ 0 then .error .bwtBadIndex else .ok []
  else if L.length ≤ p then .error .bwtBadIndex
  else .ok (walkFrom L (stableOrder L) L.length p).reverse

/-- BWT_INV reads the primary index from AUX (rule R237). -/
def bwtInvResult : ResultFn := fun maxLen S aux =>
  plainResult (fun L => bwtInverse L aux.toNat) maxLen S aux

/-! ## MTF -/

/-- The identity list (rule R238). -/
def identityList : Bytes := (List.range 256).map (BitVec.ofNat 8)

/-- `MoveToFront(j)` (rule R238). -/
def moveToFront (l : Bytes) (j : Nat) : Bytes := l.getD j 0 :: l.eraseIdx j

/-- Recode bytes as their places in the list, moving each to the front (rules R239, R240). -/
def mtfEncFrom : Bytes → Bytes → Bytes
  | _, [] => []
  | l, b :: bs => BitVec.ofNat 8 (l.idxOf b) :: mtfEncFrom (moveToFront l (l.idxOf b)) bs

/-- Recode places in the list as the bytes there, moving each to the front (rules R241, R242). -/
def mtfDecFrom : Bytes → Bytes → Bytes
  | _, [] => []
  | l, j :: js => l.getD j.toNat 0 :: mtfDecFrom (moveToFront l j.toNat) js

/-- `F_MTF_ENC` (rule R240). -/
def mtfEncode (S : Bytes) : Bytes := mtfEncFrom identityList S

/-- `F_MTF_DEC` (rule R242). -/
def mtfDecode (S : Bytes) : Bytes := mtfDecFrom identityList S

/-! ## The commands -/

/-- BWT_FWD (OPC 0x09, rule R234). -/
def execBwtFwd (s : State) : Host.Outcome State Fault Refusal := runCommand bwtFwdResult s

/-- BWT_INV (OPC 0x0A, rule R237). -/
def execBwtInv (s : State) : Host.Outcome State Fault Refusal := runCommand bwtInvResult s

/-- MTF_ENC (OPC 0x07, rule R240). -/
def execMtfEnc (s : State) : Host.Outcome State Fault Refusal :=
  runCommand (plainResult (fun S => .ok (mtfEncode S))) s

/-- MTF_DEC (OPC 0x08, rule R242). -/
def execMtfDec (s : State) : Host.Outcome State Fault Refusal :=
  runCommand (plainResult (fun S => .ok (mtfDecode S))) s

end Sys2Proof.Machine
end

