-- ==== Sys2Proof/Machine/Lz.lean ====
section
/-! DEFINITION. The LZ dictionary coder: LZ_ENC and LZ_DEC (`42_lz.md`). -/

namespace Sys2Proof.Machine

/-- A token (rule R190). -/
structure LzToken where
  dist : Nat
  len : Nat
  lit : Byte
  deriving DecidableEq, Repr

/-! ## The match finder -/

/-- `H(q)`, where three bytes stand at `q` (rule R192). -/
def lzHash (S : Bytes) (q : Nat) : Nat :=
  (((byteIn S q).toNat <<< 10) ^^^ ((byteIn S (q + 1)).toNat <<< 5) ^^^ (byteIn S (q + 2)).toNat)
    &&& 0x7FFF

/-- The hash table and the chains, as lists of key and value whose first entry for a key counts
(`10_state.md` rules R47, R48): `head[h]` is NIL where `h` has no entry. -/
structure LzIndex where
  head : List (Nat × Nat)
  prev : List (Nat × Option Nat)
  deriving DecidableEq, Repr

/-- Every `head[h]` is NIL and `prev` is empty (rule R193). -/
def emptyIndex : LzIndex := ⟨[], []⟩

/-- `prev[c]`; NIL where `c` was not inserted. -/
def prevOf (ix : LzIndex) (c : Nat) : Option Nat :=
  match ix.prev.lookup c with
  | some p => p
  | none => none

/-- `Insert(q)` (rule R194). -/
def lzInsert (S : Bytes) (q : Nat) (ix : LzIndex) : LzIndex :=
  if q + 3 ≤ S.length then
    { head := (lzHash S q, q) :: ix.head
      prev := (q, ix.head.lookup (lzHash S q)) :: ix.prev }
  else ix

/-- Insert the positions `q .. q + k - 1` in increasing order (rule R197). -/
def lzInsertMany (S : Bytes) : Nat → Nat → LzIndex → LzIndex
  | 0, _, ix => ix
  | k + 1, q, ix => lzInsertMany S k (q + 1) (lzInsert S q ix)

/-- How many leading elements two strings share, at most `m` (the inner loop of rule R195). -/
def matchLen : Nat → Bytes → Bytes → Nat
  | 0, _, _ => 0
  | _ + 1, [], _ => 0
  | _ + 1, _ :: _, [] => 0
  | m + 1, a :: as, b :: bs => if a = b then matchLen m as bs + 1 else 0

/-- The best match so far: its length and its distance (rule R195). -/
structure LzMatch where
  len : Nat
  dist : Nat
  deriving DecidableEq, Repr

/-- Walk the chain from candidate `c`, at most `probes` candidates, keeping the first longest match
(rule R195). -/
def walkChain (S : Bytes) (pos maxlen : Nat) (ix : LzIndex) :
    Nat → Option Nat → LzMatch → LzMatch
  | 0, _, best => best
  | _ + 1, none, best => best
  | probes + 1, some c, best =>
    if lzMaxDist < pos - c then best
    else
      let k := matchLen maxlen (S.drop c) (S.drop pos)
      walkChain S pos maxlen ix probes (prevOf ix c) (if best.len < k then ⟨k, pos - c⟩ else best)

/-- `FindMatch(pos)` (rule R195). -/
def findMatch (S : Bytes) (pos : Nat) (ix : LzIndex) : LzMatch :=
  if 3 ≤ S.length - pos then
    walkChain S pos (min lzMaxLen (S.length - pos)) ix lzProbeCap (ix.head.lookup (lzHash S pos))
      ⟨0, 0⟩
  else ⟨0, 0⟩

/-! ## The token emitter -/

/-- The token emitted at `pos` for the match found there (rule R197). -/
def chooseToken (S : Bytes) (pos : Nat) (m : LzMatch) : LzToken :=
  if lzMinLen ≤ m.len ∧ pos + m.len < S.length then ⟨m.dist, m.len, byteIn S (pos + m.len)⟩
  else ⟨0, 0, byteIn S pos⟩

/-- The token stream from `pos` on; a token covers `len + 1` bytes, so `fuel` = the bytes left is
enough (rules R197, R198). -/
def tokensFrom (S : Bytes) : Nat → Nat → LzIndex → List LzToken
  | 0, _, _ => []
  | fuel + 1, pos, ix =>
    if pos < S.length then
      let tk := chooseToken S pos (findMatch S pos ix)
      tk :: tokensFrom S fuel (pos + (tk.len + 1)) (lzInsertMany S (tk.len + 1) pos ix)
    else []

/-- The token stream `T(S)` (rule R198). -/
def lzTokens (S : Bytes) : List LzToken := tokensFrom S S.length 0 emptyIndex

/-- A token as 4 bytes (rule R199). -/
def tokenBytes (t : LzToken) : Bytes := be16 t.dist ++ [BitVec.ofNat 8 t.len, t.lit]

/-- `F_LZ_ENC` (rule R200). -/
def lzEncode (S : Bytes) : Bytes := (lzTokens S).flatMap tokenBytes

/-! ## The token decoder -/

/-- The tokens of a string; the bytes left over after the last whole token are dropped (rule R201
checks the length first). -/
def tokensOf : Bytes → List LzToken
  | b0 :: b1 :: b2 :: b3 :: rest => ⟨ofBe16 b0 b1, b2.toNat, b3⟩ :: tokensOf rest
  | _ => []

/-- Copy `k` bytes, one at a time, each from `dist` bytes before the end; the output is held latest
byte first, so that byte stands at index `dist - 1` (rule R202). -/
def copyBack (dist : Nat) : Nat → Bytes → Bytes
  | 0, rev => rev
  | k + 1, rev => copyBack dist k (rev.getD (dist - 1) 0 :: rev)

/-- `Replay(dist, len, lit)` on the output so far, latest byte first (rule R202). -/
def replayToken (t : LzToken) (rev : Bytes) : Except ErrCode Bytes :=
  if t.len = 0 then
    if t.dist = 0 then .ok (t.lit :: rev) else .error .lzBadToken
  else if t.dist = 0 ∨ rev.length < t.dist then .error .lzBadToken
  else .ok (t.lit :: copyBack t.dist t.len rev)

/-- Replay the tokens in order; the first offending one ends the replay (rule R203). -/
def replayTokens : List LzToken → Bytes → Except ErrCode Bytes
  | [], rev => .ok rev.reverse
  | t :: ts, rev =>
    match replayToken t rev with
    | .ok rev' => replayTokens ts rev'
    | .error c => .error c

/-- `F_LZ_DEC` (rules R201, R203). -/
def lzDecode (S : Bytes) : Except ErrCode Bytes :=
  if S.length % 4 ≠ 0 then .error .lzBadSize else replayTokens (tokensOf S) []

/-! ## The commands -/

/-- LZ_ENC (OPC 0x0B, rule R200). -/
def execLzEnc (s : State) : Host.Outcome State Fault Refusal :=
  runCommand (plainResult (fun S => .ok (lzEncode S))) s

/-- LZ_DEC (OPC 0x0C, rule R203). -/
def execLzDec (s : State) : Host.Outcome State Fault Refusal := runCommand (plainResult lzDecode) s

end Sys2Proof.Machine
end

