-- ==== Sys2Proof/Machine/Transforms.lean ====
section
/-! DEFINITION. The byte-run coder, the delta coder and the executable-address filter: RLE_ENC, RLE_DEC,
DELTA_ENC, DELTA_DEC, EXE_FWD, EXE_INV (`44_rle_delta_exe.md`). -/

namespace Sys2Proof.Machine

/-! ## Byte-run coder -/

/-- The runs of a string that continues a run of `r` bytes `b`: a run ends where the byte changes
or at 255 bytes (rule R260). -/
def runsFrom (b : Byte) (r : Nat) : Bytes → List (Byte × Nat)
  | [] => [(b, r)]
  | c :: rest =>
    if c = b ∧ r < rleRunCap then runsFrom b (r + 1) rest else (b, r) :: runsFrom c 1 rest

/-- The runs of a string, in order (rule R260). -/
def runsOf : Bytes → List (Byte × Nat)
  | [] => []
  | b :: rest => runsFrom b 1 rest

/-- How a run is emitted (rule R261). -/
def emitRun (run : Byte × Nat) : Bytes :=
  if 3 ≤ run.2 ∨ run.1 = rleMarker then [rleMarker, BitVec.ofNat 8 run.2, run.1]
  else List.replicate run.2 run.1

/-- `F_RLE_ENC` (rule R262). -/
def rleEncode (S : Bytes) : Bytes := (runsOf S).flatMap emitRun

/-- Put a prefix before an Ok string. -/
def prependOk (p : Bytes) : Except ErrCode Bytes → Except ErrCode Bytes
  | .ok D => .ok (p ++ D)
  | .error c => .error c

/-- `F_RLE_DEC` (rule R263). -/
def rleDecode : Bytes → Except ErrCode Bytes
  | [] => .ok []
  | [a] => if a = rleMarker then .error .rleTruncated else .ok [a]
  | [a, r] =>
    if a = rleMarker then .error .rleTruncated else prependOk [a] (rleDecode [r])
  | a :: r :: b :: rest =>
    if a = rleMarker then
      if r = 0 then .error .rleZeroRun
      else prependOk (List.replicate r.toNat b) (rleDecode rest)
    else prependOk [a] (rleDecode (r :: b :: rest))

/-! ## Delta coder -/

/-- `F_DELTA_ENC`: each byte less the input byte four places before it, mod 256; the first four
unchanged (rules R270, R271). -/
def deltaEncode (S : Bytes) : Bytes :=
  List.zipWith (fun x y => x - y) S (List.replicate deltaStride 0 ++ S)

/-- Decode with the last four output bytes `w`, oldest first, of which the oldest is added
(rule R272). -/
def deltaDecFrom : Bytes → Bytes → Bytes
  | _, [] => []
  | w, x :: xs => (x + w.headD 0) :: deltaDecFrom (w.tail ++ [x + w.headD 0]) xs

/-- `F_DELTA_DEC` (rules R272, R273): before the first four outputs nothing is added. -/
def deltaDecode (S : Bytes) : Bytes := deltaDecFrom (List.replicate deltaStride 0) S

/-! ## Executable-address filter -/

/-- The call-site scan shared by both directions, from index `i` on: at a call site the displacement
`v` is replaced by `f i v` and the scan goes on after it (rules R280, R281, R283). -/
def exeScan (f : Nat → Word → Word) : Nat → Bytes → Bytes
  | i, c :: b0 :: b1 :: b2 :: b3 :: rest =>
    if c = exeOpcode then
      c :: (le32 (f i (BitVec.ofNat 32 (ofLe32 b0 b1 b2 b3))).toNat ++ exeScan f (i + 5) rest)
    else c :: exeScan f (i + 1) (b0 :: b1 :: b2 :: b3 :: rest)
  | _, short => short

/-- `v + i + 5 mod 2^32` (rule R281). -/
def toAbsolute (i : Nat) (v : Word) : Word := v + BitVec.ofNat 32 (i + 5)

/-- `v − (i + 5) mod 2^32` (rule R283). -/
def toRelative (i : Nat) (v : Word) : Word := v - BitVec.ofNat 32 (i + 5)

/-- `F_EXE_FWD` (rule R282). -/
def exeForward (S : Bytes) : Bytes := exeScan toAbsolute 0 S

/-- `F_EXE_INV` (rule R284). -/
def exeInverse (S : Bytes) : Bytes := exeScan toRelative 0 S

/-! ## The commands -/

/-- RLE_ENC (OPC 0x01, rule R262). -/
def execRleEnc (s : State) : Host.Outcome State Fault Refusal :=
  runCommand (plainResult (fun S => .ok (rleEncode S))) s

/-- RLE_DEC (OPC 0x02, rule R264). -/
def execRleDec (s : State) : Host.Outcome State Fault Refusal := runCommand (plainResult rleDecode) s

/-- DELTA_ENC (OPC 0x03, rule R271). -/
def execDeltaEnc (s : State) : Host.Outcome State Fault Refusal :=
  runCommand (plainResult (fun S => .ok (deltaEncode S))) s

/-- DELTA_DEC (OPC 0x04, rule R273). -/
def execDeltaDec (s : State) : Host.Outcome State Fault Refusal :=
  runCommand (plainResult (fun S => .ok (deltaDecode S))) s

/-- EXE_FWD (OPC 0x05, rule R282). -/
def execExeFwd (s : State) : Host.Outcome State Fault Refusal :=
  runCommand (plainResult (fun S => .ok (exeForward S))) s

/-- EXE_INV (OPC 0x06, rule R284). -/
def execExeInv (s : State) : Host.Outcome State Fault Refusal :=
  runCommand (plainResult (fun S => .ok (exeInverse S))) s

end Sys2Proof.Machine
end

