-- ==== Sys2Proof/Machine/Pipelines.lean ====
section
/-! DEFINITION. NOP and the algorithm pipelines PIPE_ENC and PIPE_DEC (`45_pipelines.md`). -/

namespace Sys2Proof.Machine

/-- NOP (OPC 0x00, `30_encoding.md` rule R96): no memory access and no range check. -/
def execNop (s : State) : Host.Outcome State Fault Refusal := .next (complete (.ok [] none) s)

/-- The algorithm identifiers (`00_scope.md` rule R3). -/
inductive Alg where
  | store | lzEntropy | runEntropy | deltaLzEntropy | bwtMtfEntropy | exeFilterLzEntropy
  deriving DecidableEq, Repr

/-- The identifier of an ALG value (`30_encoding.md` rule R93); none for 6..255. -/
def algOf (alg : BitVec 8) : Option Alg :=
  [Alg.store, .lzEntropy, .runEntropy, .deltaLzEntropy, .bwtMtfEntropy,
    .exeFilterLzEntropy][alg.toNat]?

/-- A stage, its output checked against MAX_LEN (rule R307, `60_exceptions.md` rule R323). -/
def boundedStage (maxLen : Nat) (f : Bytes → Except ErrCode Bytes) (S : Bytes) :
    Except ErrCode Bytes :=
  match f S with
  | .error c => .error c
  | .ok D => if maxLen < D.length then .error .tooLarge else .ok D

/-- Run stages in order, each on the whole output of the one before; the first error ends the
pipeline (rule R307). -/
def runStages (maxLen : Nat) : List (Bytes → Except ErrCode Bytes) → Bytes → Except ErrCode Bytes
  | [], S => .ok S
  | f :: fs, S =>
    match boundedStage maxLen f S with
    | .error c => .error c
    | .ok D => runStages maxLen fs D

/-- BWT with the primary index prepended, the first stage of BWT_MTF_ENTROPY (rules R300, R305). -/
def bwtPrefixed (S : Bytes) : Bytes := be32 (bwtPrimary S) ++ bwtBytes S

/-- Inverse BWT of a string that the primary index stands before (rule R305). -/
def bwtUnprefixed (Y : Bytes) : Except ErrCode Bytes :=
  if Y.length < 4 then .error .pipeShort else bwtInverse (Y.drop 4) (rdBe32 Y 0)

/-- The encode column of rule R300. -/
def encStages : Alg → List (Bytes → Except ErrCode Bytes)
  | .store => []
  | .lzEntropy => [fun S => .ok (lzEncode S), acEncode]
  | .runEntropy => [fun S => .ok (rleEncode S), acEncode]
  | .deltaLzEntropy => [fun S => .ok (deltaEncode S), fun S => .ok (lzEncode S), acEncode]
  | .bwtMtfEntropy => [fun S => .ok (bwtPrefixed S), fun S => .ok (mtfEncode S), acEncode]
  | .exeFilterLzEntropy => [fun S => .ok (exeForward S), fun S => .ok (lzEncode S), acEncode]

/-- The decode column of rule R300; AC_DEC checks its length field against MAX_LEN. -/
def decStages (maxLen : Nat) : Alg → List (Bytes → Except ErrCode Bytes)
  | .store => []
  | .lzEntropy => [acDecode maxLen, lzDecode]
  | .runEntropy => [acDecode maxLen, rleDecode]
  | .deltaLzEntropy => [acDecode maxLen, lzDecode, fun S => .ok (deltaDecode S)]
  | .bwtMtfEntropy => [acDecode maxLen, fun S => .ok (mtfDecode S), bwtUnprefixed]
  | .exeFilterLzEntropy => [acDecode maxLen, lzDecode, fun S => .ok (exeInverse S)]

/-- `F_PIPE_ENC` (rules R301, R306): the empty input gives the empty payload without a unit run. -/
def pipeEncode (maxLen : Nat) (alg : Alg) (S : Bytes) : Except ErrCode Bytes :=
  if S.length = 0 then .ok [] else runStages maxLen (encStages alg) S

/-- `F_PIPE_DEC` (rules R303, R306). -/
def pipeDecode (maxLen : Nat) (alg : Alg) (S : Bytes) : Except ErrCode Bytes :=
  if S.length = 0 then .ok [] else runStages maxLen (decStages maxLen alg) S

/-- PIPE_ENC as a result function. -/
def pipeEncResult (alg : Alg) : ResultFn := fun maxLen S aux =>
  plainResult (pipeEncode maxLen alg) maxLen S aux

/-- PIPE_DEC as a result function. -/
def pipeDecResult (alg : Alg) : ResultFn := fun maxLen S aux =>
  plainResult (pipeDecode maxLen alg) maxLen S aux

/-- PIPE_ENC (OPC 0x10, rule R301).  An unknown ALG, which no decoded command has, completes with
ILLEGAL_CMD (`30_encoding.md` rule R95). -/
def execPipeEnc (alg : BitVec 8) (s : State) : Host.Outcome State Fault Refusal :=
  match algOf alg with
  | none => .next (complete (.fail .illegalCmd false) s)
  | some a => runCommand (pipeEncResult a) s

/-- PIPE_DEC (OPC 0x11, rule R303).  An unknown ALG, which no decoded command has, completes with
UNKNOWN_ALG (`30_encoding.md` rule R95). -/
def execPipeDec (alg : BitVec 8) (s : State) : Host.Outcome State Fault Refusal :=
  match algOf alg with
  | none => .next (complete (.fail .unknownAlg false) s)
  | some a => runCommand (pipeDecResult a) s

end Sys2Proof.Machine
end

