-- ==== Sys2Proof/Machine/Dispatch.lean ====
section
/-! DEFINITION. The meaning of every command: one arm per constructor of Instr. -/

namespace Sys2Proof.Machine

def exec (i : Instr) (s : State) : Host.Outcome State Fault Refusal :=
  match i with
  | .nop => Sys2Proof.Machine.execNop s
  | .rleEnc => Sys2Proof.Machine.execRleEnc s
  | .rleDec => Sys2Proof.Machine.execRleDec s
  | .deltaEnc => Sys2Proof.Machine.execDeltaEnc s
  | .deltaDec => Sys2Proof.Machine.execDeltaDec s
  | .exeFwd => Sys2Proof.Machine.execExeFwd s
  | .exeInv => Sys2Proof.Machine.execExeInv s
  | .mtfEnc => Sys2Proof.Machine.execMtfEnc s
  | .mtfDec => Sys2Proof.Machine.execMtfDec s
  | .bwtFwd => Sys2Proof.Machine.execBwtFwd s
  | .bwtInv => Sys2Proof.Machine.execBwtInv s
  | .lzEnc => Sys2Proof.Machine.execLzEnc s
  | .lzDec => Sys2Proof.Machine.execLzDec s
  | .acEnc => Sys2Proof.Machine.execAcEnc s
  | .acDec => Sys2Proof.Machine.execAcDec s
  | .pipeEnc alg => Sys2Proof.Machine.execPipeEnc alg s
  | .pipeDec alg => Sys2Proof.Machine.execPipeDec alg s

end Sys2Proof.Machine
end

