-- ==== Sys2Proof/Machine/HostPort.lean ====
section
/-! DEFINITION. The steps of the outside: register accesses, memory accesses, polling, waiting for the
interrupt, cache maintenance and the reset input (`10_state.md` rule R21, `20_memory.md` rules R78 to R86,
`60_exceptions.md` rules R330, R331, R338, `70_reset_and_hazards.md` rules R360, R368). -/

namespace Sys2Proof.Machine

/-- The offset of a bus address inside the register block at REG_BASE (`20_memory.md` rule R62). -/
def regOffset (p : Platform) (addr : Word) : Option Nat :=
  if p.regBase.toNat ≤ addr.toNat ∧ addr.toNat < p.regBase.toNat + regBlockBytes then
    some (addr.toNat - p.regBase.toNat)
  else none

/-- The word offset of a register access, or why it has no meaning (`60_exceptions.md` rule R331). -/
def accessOffset (p : Platform) (width : AccessWidth) (addr : Word) : Except Refusal Nat :=
  match width with
  | .byte => .error .narrowRegisterAccess
  | .half => .error .narrowRegisterAccess
  | .word =>
    match regOffset p addr with
    | none => .error .outsideRegisterBlock
    | some off => if off % 4 = 0 then .ok off else .error .misalignedRegisterAccess

/-- A host register write. -/
def hostRegWrite (width : AccessWidth) (addr value : Word) (s : State) :
    Host.Outcome State Fault Refusal :=
  match accessOffset s.platform width addr with
  | .error r => .refused r
  | .ok off => writeOffset off value s

/-- What the host knows after a read at an offset: a STATUS read that returns DONE = 1 orders all
engine writes before the host's later reads (`20_memory.md` rules R78(b), R81); with DMA_COHERENT
false the ranges that completed commands wrote are from then on to be invalidated (rule R80), and
abandoned ranges, of which the host may hold cached copies, stay open (log 4). -/
def seeCompletion (off : Nat) (s : State) : State :=
  if regMap.lookup off = some .status ∧ s.done = true then
    { s with
      unsynced := []
      abandoned := if s.platform.dmaCoherent then [] else s.abandoned
      stale := if s.platform.dmaCoherent then s.stale else s.stale ++ s.unsynced }
  else s

/-- A host register read: the value goes to the host, no register changes (rules R21, R75). -/
def hostRegRead (width : AccessWidth) (addr : Word) (s : State) :
    Host.Outcome State Fault Refusal :=
  match accessOffset s.platform width addr with
  | .error r => .refused r
  | .ok off =>
    .next { seeCompletion off s with
      observed := s.observed ++ [.reg addr (readOffset off s)] }

/-- The value of a field of a register word. -/
def fieldValue (f : Field) (w : Word) : Nat := w.toNat / 2 ^ f.lo % 2 ^ f.width

/-- One read of a `POLL`: with another value in the field the statement stays to be executed
(`30_encoding.md` rule R98). -/
def hostPoll (addr : Word) (f : Field) (value : Nat) (s : State) :
    Host.Outcome State Fault Refusal :=
  match accessOffset s.platform .word addr with
  | .error r => .refused r
  | .ok off =>
    if fieldValue f (readOffset off s) = value then .next (seeCompletion off s)
    else .next { seeCompletion off s with inputs := .poll addr f value :: s.inputs }

/-- The range is one a running command has latched, in whole or in part (`20_memory.md` rule R86). -/
def hitsLatched (s : State) (r : Range) : Bool :=
  s.busy && (rangesMeet s.latch.src r || rangesMeet s.latch.dst r)

/-- A host write to memory (`30_encoding.md` rule R98, `20_memory.md` rule R86).  The host's own
later reads see the bytes it wrote. -/
def hostMemWrite (addr : Nat) (bytes : Bytes) (s : State) : Host.Outcome State Fault Refusal :=
  if addrSpace < addr + bytes.length then .fault .outsideMemory
  else if hitsLatched s ⟨addr, bytes.length⟩ then .fault .bufferHazard
  else .next { s with
    mem := writeBytes s.mem addr bytes
    unsynced := rangesMinus s.unsynced ⟨addr, bytes.length⟩
    abandoned := rangesMinus s.abandoned ⟨addr, bytes.length⟩
    stale := rangesMinus s.stale ⟨addr, bytes.length⟩
    dirty := if s.platform.dmaCoherent then s.dirty
      else addRange s.dirty ⟨addr, bytes.length⟩ }

/-- A host read of this address returns any value: it lies in the destination range of a running
command (`20_memory.md` rule R86), in a range whose completion the host has not seen
(`70_reset_and_hazards.md` rule R365, "the bytes read are a draw", log 7), or in the destination range
of an abandoned command (`93_implementation_defined.md` H2, log 4). -/
def readIsDraw (s : State) (a : Nat) : Bool :=
  (s.busy && inRange s.latch.dst a) || inRanges s.unsynced a || inRanges s.abandoned a

/-- A host read of this address uses a cached copy that the host had to discard: DMA_COHERENT is
false, a completed command wrote the byte, and the host has seen DONE = 1 and not invalidated the
byte since (`20_memory.md` rule R80).  A read that is a draw is never a hazard (`60_exceptions.md`
rule R330, log 7, log 4: before DONE = 1, and after an abandoned command, no duty is yet due). -/
def readIsStale (s : State) (a : Nat) : Bool :=
  !s.platform.dmaCoherent && !readIsDraw s a && inRanges s.stale a

/-- The bytes that a host read returns, the draw numbered `draws + k` standing ready for byte `k`. -/
def hostReadBytes (s : State) (addr count : Nat) : Bytes :=
  (List.range count).map (fun k =>
    if readIsDraw s (addr + k) then Config.freeByte (s.draws + k) else readByte s.mem (addr + k))

/-- A host read of memory. -/
def hostMemRead (addr count : Nat) (s : State) : Host.Outcome State Fault Refusal :=
  if addrSpace < addr + count then .fault .outsideMemory
  else if (List.range count).any (fun k => readIsStale s (addr + k)) then .fault .coherenceHazard
  else .next { s with
    observed := s.observed ++ [.mem addr (hostReadBytes s addr count)]
    draws := s.draws + count }

/-- The host waits until the interrupt line is high (`30_encoding.md` rule R99). -/
def hostWaitIrq (s : State) : Host.Outcome State Fault Refusal :=
  if irq s then .next s else .next { s with inputs := .waitIrq :: s.inputs }

/-- The host writes back its dirty copies of a range: a host write to memory, so a hazard where it
hits a latched range (`20_memory.md` rules R80, R86, log 8). -/
def hostCacheClean (r : Range) (s : State) : Host.Outcome State Fault Refusal :=
  if s.dirty.any (fun d => hitsLatched s (rangeInter d r)) then .fault .bufferHazard
  else .next { s with dirty := rangesMinus s.dirty r }

/-- The host discards its cached copies of a range (`20_memory.md` rule R80).  A dirty copy may or
may not have reached memory: the byte takes any value (log 8).  A byte of an abandoned command's
destination stays open: no DONE = 1 orders that command's writes before the host's reads (log 4). -/
def hostCacheInvalidate (r : Range) (s : State) : Host.Outcome State Fault Refusal :=
  if s.dirty.any (fun d => hitsLatched s (rangeInter d r)) then .fault .bufferHazard
  else
    let s' := (s.dirty.map (rangeInter · r)).foldl spoilRange s
    .next { s' with dirty := rangesMinus s.dirty r, stale := rangesMinus s.stale r }

/-- One step of the outside. -/
def hostDo (op : HostOp) (s : State) : Host.Outcome State Fault Refusal :=
  match op with
  | .regWrite w a v => hostRegWrite w a v s
  | .regRead w a => hostRegRead w a s
  | .poll a f v => hostPoll a f v s
  | .memWrite a bs => hostMemWrite a bs s
  | .memRead a n => hostMemRead a n s
  | .waitIrq => hostWaitIrq s
  | .cacheClean r => hostCacheClean r s
  | .cacheInvalidate r => hostCacheInvalidate r s
  | .hardReset => .next (resetEngine s)

/-- The next step of the host program; with none left nothing happens. -/
def hostStep (s : State) : Host.Outcome State Fault Refusal :=
  match s.inputs with
  | [] => .next s
  | op :: rest => hostDo op { s with inputs := rest }

end Sys2Proof.Machine
end

