-- ==== Sys2Proof/Machine/Schedule.lean ====
section
/-! DEFINITION. Which agent takes the next step (`60_exceptions.md` rule R338, `70_reset_and_hazards.md` rule
R368). -/

namespace Sys2Proof.Machine

/-- Both agents have a step to take: the engine's completion is enabled exactly while BUSY = 1, the
host's while its program is not at its end. -/
def racing (s : State) : Bool := s.busy && !s.inputs.isEmpty

/-- Who moves next, if anyone: at a race the agent that `turns` names, and the engine when it names
none, so that a completion is only finitely often put off (weak fairness, rule R368). -/
def nextAgent (s : State) : Option Agent :=
  if racing s then
    match s.turns with
    | [] => some .engine
    | a :: _ => some a
  else if s.busy then some .engine
  else if s.inputs.isEmpty then none
  else some .host

/-- The state in which that agent takes its step: a choice at a race is used up. -/
def takeTurn (s : State) : State := if racing s then { s with turns := s.turns.tail } else s

end Sys2Proof.Machine
end

