-- ==== Sys2Proof/Machine/Step.lean ====
section
/-! DEFINITION. One step of the whole machine: the host's next access, or the engine's completion of the
running command (`70_reset_and_hazards.md` rule R368). -/

namespace Sys2Proof.Machine

/-- The engine's step: the latched command word is decoded and its command executed
(`60_exceptions.md` rule R320). -/
def engineStep (s : State) : Host.Outcome State Fault Refusal :=
  match decode s.latch.cmd with
  | .ok i => exec i s
  | .error e => .next (completeIllegal e s)

/-- One step.  With the engine IDLE and the host program at its end nothing happens
(`60_exceptions.md` rule R350, `70_reset_and_hazards.md` rule R369). -/
def step (s : State) : Host.Outcome State Fault Refusal :=
  match nextAgent s with
  | none => .next s
  | some .host => hostStep (takeTurn s)
  | some .engine => engineStep (takeTurn s)

/-- `s` just after a START of the command word `w` has been accepted, with the engine to move next:
the word stands in CMD and, with the other operand registers, in the latch
(`10_state.md` rule R25, log 9). -/
def State.withFetchWord (s : State) (nbits w : Nat) : State :=
  let cmd : Word := BitVec.ofNat 32 (w % 2 ^ nbits)
  { s with
    busy := true, done := false, errCode := none, outLen := 0
    regs := { s.regs with cmd := cmd }
    latch := { s.regs with cmd := cmd }
    turns := if s.inputs.isEmpty then s.turns else .engine :: s.turns }

end Sys2Proof.Machine
end

