-- ==== Sys2Proof/Machine/HostProgram.lean ====
section
/-! DEFINITION. The host-program notation (`30_encoding.md` rules R98, R99). -/

namespace Sys2Proof.Machine

/-- The offset of a register (`10_state.md` rule R20). -/
def Reg.offset : Reg → Nat
  | .id => 0x00
  | .ctrl => 0x04
  | .cmd => 0x08
  | .status => 0x0C
  | .srcAddr => 0x10
  | .srcLen => 0x14
  | .dstAddr => 0x18
  | .dstCap => 0x1C
  | .outLen => 0x20
  | .aux => 0x24

/-- The bus address of a register, REG_BASE + offset (`20_memory.md` rule R62). -/
def regAddr (p : Platform) (r : Reg) : Word := p.regBase + BitVec.ofNat 32 r.offset

/-- `WR <REG>, <v32>`. -/
def wr (p : Platform) (r : Reg) (v : Word) : HostOp := .regWrite .word (regAddr p r) v

/-- `RD <REG>`; the name that a program gives the result is its place in `observed`. -/
def rd (p : Platform) (r : Reg) : HostOp := .regRead .word (regAddr p r)

/-- STATUS.DONE (`10_state.md` rule R29). -/
def doneField : Field := ⟨1, 1⟩

/-- `POLL STATUS.DONE == 1`. -/
def pollDone (p : Platform) : HostOp := .poll (regAddr p .status) doneField 1

/-- The encoding of a statement that accesses a register with a value: (offset, value) (rule R98). -/
def writeEncoding (p : Platform) : HostOp → Option (Nat × Word)
  | .regWrite .word addr v =>
    match regOffset p addr with
    | some off => some (off, v)
    | none => none
  | _ => none

/-- The operands of `RUN`. -/
structure RunArgs where
  src : Word
  len : Word
  dst : Word
  cap : Word
  deriving DecidableEq, Repr

/-- The register writes of `RUN` before CMD (rule R99). -/
def runOperands (p : Platform) (a : RunArgs) : List HostOp :=
  [wr p .srcAddr a.src, wr p .srcLen a.len, wr p .dstAddr a.dst, wr p .dstCap a.cap]

/-- The write of AUX in the form of `RUN` that has it, before the write of CMD (rule R99). -/
def runAuxWrite (p : Platform) (aux : Option Word) : List HostOp :=
  match aux with
  | some v => [wr p .aux v]
  | none => []

/-- The end of `RUN`: START and a poll of DONE; with IRQ, START with IRQ_EN, the wait for the
interrupt and a read of STATUS (rule R99). -/
def runStart (p : Platform) (irq : Bool) : List HostOp :=
  if irq then [wr p .ctrl 0x00000005, .waitIrq, rd p .status]
  else [wr p .ctrl 0x00000001, pollDone p]

/-- `RUN` in each of its forms: with or without `aux`, polled or with IRQ (rule R99). -/
def runStatement (p : Platform) (i : Instr) (a : RunArgs) (aux : Option Word) (irq : Bool) :
    List HostOp :=
  runOperands p a ++ runAuxWrite p aux ++ [wr p .cmd (encode i)] ++ runStart p irq

/-- `RUN <CMD>, src, len, dst, cap` (rule R99). -/
def run (p : Platform) (i : Instr) (a : RunArgs) : List HostOp := runStatement p i a none false

/-- `RUN <CMD>, src, len, dst, cap, aux` (rule R99). -/
def runAux (p : Platform) (i : Instr) (a : RunArgs) (aux : Word) : List HostOp :=
  runStatement p i a (some aux) false

/-- `RUN <CMD>, src, len, dst, cap` with IRQ (rule R99). -/
def runIrq (p : Platform) (i : Instr) (a : RunArgs) : List HostOp := runStatement p i a none true

/-- `RUN <CMD>, src, len, dst, cap, aux` with IRQ (rule R99). -/
def runAuxIrq (p : Platform) (i : Instr) (a : RunArgs) (aux : Word) : List HostOp :=
  runStatement p i a (some aux) true

/-- `ACK` (rule R99). -/
def ack (p : Platform) : HostOp := wr p .status 0x00000002

/-- `RESET` (rule R99). -/
def softReset (p : Platform) : HostOp := wr p .ctrl 0x00000002

end Sys2Proof.Machine
end

