-- ==== Sys2Proof/Reference.lean ====
section
/-! DEFINITION. Second, independent forms of some result functions, close to the pseudocode of the spec,
against which statements compare the model's own. -/

namespace Sys2Proof.Reference

open Sys2Proof.Machine

/-- The string with the bytes `bs` put at index `i`. -/
def putAt (D : Bytes) (i : Nat) (bs : Bytes) : Bytes := D.take i ++ bs ++ D.drop (i + bs.length)

/-- The loop of `44_rle_delta_exe.md` rules R282 and R284 on the whole buffer `D`, at scan index `i`;
`add` is what is added to the displacement of a call site at `i`, modulo 2^32. -/
def exeLoop (add : Nat → Nat) : Nat → Nat → Bytes → Bytes
  | 0, _, D => D
  | fuel + 1, i, D =>
    if i + 5 ≤ D.length then
      if byteIn D i = 0xE8 then
        exeLoop add fuel (i + 5)
          (putAt D (i + 1)
            (le32 ((ofLe32 (byteIn D (i + 1)) (byteIn D (i + 2)) (byteIn D (i + 3))
              (byteIn D (i + 4)) + add i) % 2 ^ 32)))
      else exeLoop add fuel (i + 1) D
    else D

/-- What EXE_FWD adds at a call site: `i + 5` (rule R281). -/
def fwdAdd (i : Nat) : Nat := i + 5

/-- What EXE_INV adds modulo 2^32: `−(i + 5)` (rule R283). -/
def invAdd (i : Nat) : Nat := 2 ^ 32 - (i + 5) % 2 ^ 32

/-- The copy loop of `42_lz.md` rule R202: `k` bytes from index `start` on, one at a time. -/
def copyForward : Nat → Nat → Bytes → Bytes
  | 0, _, D => D
  | k + 1, start, D => copyForward k (start + 1) (D ++ [byteIn D start])

/-- `Replay(dist, len, lit)` of `42_lz.md` rule R202 on the output so far. -/
def replayForward (dist len : Nat) (lit : Byte) (D : Bytes) : Except ErrCode Bytes :=
  if len = 0 then if dist ≠ 0 then .error .lzBadToken else .ok (D ++ [lit])
  else if dist = 0 ∨ dist > D.length then .error .lzBadToken
  else .ok (copyForward len (D.length - dist) D ++ [lit])

/-- The loop of `42_lz.md` rule R203 over the tokens `j ..` of `S`, `k` of them. -/
def replayLoop (S : Bytes) : Nat → Nat → Bytes → Except ErrCode Bytes
  | 0, _, D => .ok D
  | k + 1, j, D =>
    match replayForward (ofBe16 (byteIn S (4 * j)) (byteIn S (4 * j + 1)))
        (byteIn S (4 * j + 2)).toNat (byteIn S (4 * j + 3)) D with
    | .error c => .error c
    | .ok D' => replayLoop S k (j + 1) D'

/-- The candidates of `42_lz.md` rule R195 at `pos`: the earlier positions with the same hash, newest
first, up to the first one too far away, at most 256 of them. -/
def chainCandidates (S : Bytes) (pos : Nat) : List Nat :=
  ((((List.range pos).reverse.filter
    (fun c => decide (c + 3 ≤ S.length) && (lzHash S c == lzHash S pos))).takeWhile
      (fun c => decide (pos - c ≤ 65535))).take 256)

/-- The first longest match among the candidates (rule R195): a length and a distance. -/
def bestOf (S : Bytes) (pos : Nat) (cs : List Nat) : LzMatch :=
  cs.foldl (fun best c =>
    let k := matchLen (min 255 (S.length - pos)) (S.drop c) (S.drop pos)
    if best.len < k then ⟨k, pos - c⟩ else best) ⟨0, 0⟩

/-- `FindMatch(pos)` (rule R195). -/
def bestMatch (S : Bytes) (pos : Nat) : LzMatch :=
  if pos + 3 ≤ S.length then bestOf S pos (chainCandidates S pos) else ⟨0, 0⟩

/-- The token of `42_lz.md` rule R197 at cursor `pos`. -/
def tokenAt (S : Bytes) (pos : Nat) : LzToken :=
  if 3 ≤ (bestMatch S pos).len ∧ pos + (bestMatch S pos).len < S.length then
    ⟨(bestMatch S pos).dist, (bestMatch S pos).len, byteIn S (pos + (bestMatch S pos).len)⟩
  else ⟨0, 0, byteIn S pos⟩

/-- `T` is the token stream of `S` from cursor `pos` on (`42_lz.md` rules R197, R198). -/
def TokenStream (S : Bytes) : Nat → List LzToken → Prop
  | pos, [] => pos = S.length
  | pos, t :: ts => pos < S.length ∧ t = tokenAt S pos ∧ TokenStream S (pos + t.len + 1) ts

/-! ## RLE decode -/

/-- The loop of `44_rle_delta_exe.md` rule R263 at index `i`, with the output so far. -/
def rleLoop (S : Bytes) : Nat → Nat → Bytes → Except ErrCode Bytes
  | 0, _, D => .ok D
  | fuel + 1, i, D =>
    if i < S.length then
      if byteIn S i = 0xFF then
        if S.length ≤ i + 2 then .error .rleTruncated
        else if byteIn S (i + 1) = 0x00 then .error .rleZeroRun
        else rleLoop S fuel (i + 3)
          (D ++ List.replicate (byteIn S (i + 1)).toNat (byteIn S (i + 2)))
      else rleLoop S fuel (i + 1) (D ++ [byteIn S i])
    else .ok D

/-! ## MTF -/

/-- `l'` is `l` after `MoveToFront(j)` (`43_bwt_mtf.md` rule R238). -/
def MovedToFront (l l' : Bytes) (j : Nat) : Prop :=
  l'.length = l.length ∧ byteIn l' 0 = byteIn l j ∧
    (∀ k, 0 < k → k ≤ j → byteIn l' k = byteIn l (k - 1)) ∧
    ∀ k, j < k → byteIn l' k = byteIn l k

/-- `lists i` is the recency list before step `i` of a run in which the bytes `B` stand at the
indices `J` (`43_bwt_mtf.md` rules R238, R239, R241). -/
def MtfTrace (B J : Bytes) (lists : Nat → Bytes) : Prop :=
  J.length = B.length ∧ (lists 0).length = 256 ∧
    (∀ j, j < 256 → (byteIn (lists 0) j).toNat = j) ∧
    ∀ i, i < B.length →
      byteIn (lists i) (byteIn J i).toNat = byteIn B i ∧
        MovedToFront (lists i) (lists (i + 1)) (byteIn J i).toNat

/-! ## BWT -/

/-- Byte string `a` stands before byte string `b`, bytes compared as unsigned values. -/
def BytesBefore (a b : Bytes) : Prop :=
  List.Lex (fun x y : Nat => x < y) (a.map BitVec.toNat) (b.map BitVec.toNat)

/-- `SA` is the sorted rotation order of `S` (`43_bwt_mtf.md` rule R230). -/
def SortedRotations (S : Bytes) (SA : List Nat) : Prop :=
  SA.Perm (List.range S.length) ∧
    SA.Pairwise (fun i j =>
      BytesBefore (S.drop i ++ S.take i) (S.drop j ++ S.take j) ∨
        (S.drop i ++ S.take i = S.drop j ++ S.take j ∧ i < j))

/-- `ord` lists the indices of `L` stably sorted by their byte (`43_bwt_mtf.md` rule R235). -/
def StableByteOrder (L : Bytes) (ord : List Nat) : Prop :=
  ord.Perm (List.range L.length) ∧
    ord.Pairwise (fun i j => (byteIn L i).toNat < (byteIn L j).toNat ∨
      (byteIn L i = byteIn L j ∧ i < j))

/-- `q j` is the position of the walk of `43_bwt_mtf.md` rule R236 before step `j`: it starts at the
primary index `p`, and `LF[ord[k]] = k`. -/
def Walk (n p : Nat) (ord : List Nat) (q : Nat → Nat) : Prop :=
  q 0 = p ∧ ∀ j k, j < n → k < n → ord.getD k 0 = q j → q (j + 1) = k

/-! ## Arithmetic coder: the model -/

/-- `tbl(P, i)` (`41_arith_coder.md` rule R141). -/
def tableAt (P : Bytes) : Nat → Nat
  | 0 => 0
  | i + 1 => 1 + (byteIn P i).toNat

/-- `freq[t][s]` after training on `P` (`41_arith_coder.md` rule R142): 1 and one for each position
that uses table `t` and holds byte `s`. -/
def trainedCount (P : Bytes) (t s : Nat) : Nat :=
  1 + ((List.range P.length).filter
    (fun i => (tableAt P i == t) && ((byteIn P i).toNat == s))).length

/-- `freq[t][s]` as loaded from an AC stream (`41_arith_coder.md` rule R154). -/
def loadedCount (S : Bytes) (t s : Nat) : Nat := rdBe32 S (4 * (256 * t + s))

/-- `cum[t][s]` (`41_arith_coder.md` rule R143). -/
def cumOf (freq : Nat → Nat → Nat) (t s : Nat) : Nat := ((List.range s).map (freq t)).sum

/-- The serialized model (`41_arith_coder.md` rule R144). -/
def modelBytes (freq : Nat → Nat → Nat) : Bytes :=
  (List.range 257).flatMap (fun t => (List.range 256).flatMap (fun s => be32 (freq t s)))

/-- Some table total is over AC_MAX_TOTAL (`41_arith_coder.md` rule R145). -/
def SomeTotalOver (freq : Nat → Nat → Nat) : Prop := ∃ t, t < 257 ∧ 0x3FFFFFFF < cumOf freq t 256

/-! ## Arithmetic coder: the encoder -/

/-- Write a bit sequence with the packer (`40_bitstream.md` rules R120 to R122). -/
def packBits (bits : List Bool) : Bytes :=
  flush (bits.foldl (fun w b => putBit b w) emptyWriter)

/-- The bits of the `k` first GetBit calls over `B` (`40_bitstream.md` rules R124, R125). -/
def unpackBits (B : Bytes) (k : Nat) : List Nat := (List.range k).map (fun j => bitHere ⟨B, j⟩)

/-- The encoder's registers, with the bits it has put, in order. -/
structure EncRegs where
  low : Nat
  high : Nat
  pending : Nat
  bits : List Bool

/-- `EmitBit(b)` (`41_arith_coder.md` rule R149). -/
def encEmit (b : Bool) (e : EncRegs) : EncRegs :=
  { e with bits := e.bits ++ (b :: List.replicate e.pending (!b)), pending := 0 }

/-- Subtract `off` from both bounds, then shift (`41_arith_coder.md` rule R148). -/
def encShift (off : Nat) (e : EncRegs) : EncRegs :=
  { e with low := 2 * (e.low - off), high := 2 * (e.high - off) + 1 }

/-- `RenormEnc()` (`41_arith_coder.md` rule R148). -/
def encRenorm : Nat → EncRegs → EncRegs
  | 0, e => e
  | fuel + 1, e =>
    if e.high < 0x80000000 then encRenorm fuel (encShift 0 (encEmit false e))
    else if 0x80000000 ≤ e.low then encRenorm fuel (encShift 0x80000000 (encEmit true e))
    else if 0x40000000 ≤ e.low ∧ e.high < 0xC0000000 then
      encRenorm fuel (encShift 0x40000000 { e with pending := e.pending + 1 })
    else e

/-- One symbol: `Narrow` (`41_arith_coder.md` rule R147) with its two cumulative counts and its
table's total, then `RenormEnc()`. -/
def encSymbol (lo hi tot : Nat) (e : EncRegs) : EncRegs :=
  encRenorm 64
    { e with
      low := e.low + (e.high - e.low + 1) * lo / tot
      high := e.low + (e.high - e.low + 1) * hi / tot - 1 }

/-- The coded bits of `P` (`41_arith_coder.md` rules R146, R150, R152). -/
def encBits (P : Bytes) : List Bool :=
  let e := (List.range P.length).foldl (fun e i =>
    let t := tableAt P i
    let s := (byteIn P i).toNat
    encSymbol (cumOf (trainedCount P) t s) (cumOf (trainedCount P) t (s + 1))
      (cumOf (trainedCount P) t 256) e) ⟨0, 0xFFFFFFFF, 0, []⟩
  (encEmit (decide (0x40000000 ≤ e.low)) { e with pending := e.pending + 1 }).bits

/-- The AC stream of a non-empty `P` (`41_arith_coder.md` rule R151). -/
def acStream (P : Bytes) : Bytes :=
  modelBytes (trainedCount P) ++ be32 P.length ++ packBits (encBits P)

/-! ## Arithmetic coder: the decoder -/

/-- Bit `j` of the reader over `B` (`40_bitstream.md` rule R125). -/
def codeBit (B : Bytes) (j : Nat) : Nat :=
  if j / 8 < B.length then (byteIn B (j / 8)).toNat / 2 ^ (7 - j % 8) % 2 else 0

/-- The decoder's registers; `bp` bits have been read. -/
structure DecRegs where
  low : Nat
  high : Nat
  value : Nat
  bp : Nat

/-- Subtract `off` from the three registers, then shift in a bit (`41_arith_coder.md` rule R158). -/
def decShift (B : Bytes) (off : Nat) (d : DecRegs) : DecRegs :=
  { low := 2 * (d.low - off), high := 2 * (d.high - off) + 1
    value := 2 * (d.value - off) + codeBit B d.bp, bp := d.bp + 1 }

/-- `RenormDec()` (`41_arith_coder.md` rule R158). -/
def decRenorm (B : Bytes) : Nat → DecRegs → DecRegs
  | 0, d => d
  | fuel + 1, d =>
    if d.high < 0x80000000 then decRenorm B fuel (decShift B 0 d)
    else if 0x80000000 ≤ d.low then decRenorm B fuel (decShift B 0x80000000 d)
    else if 0x40000000 ≤ d.low ∧ d.high < 0xC0000000 then
      decRenorm B fuel (decShift B 0x40000000 d)
    else d

/-- `value` before the first symbol: the first 32 code bits (`41_arith_coder.md` rule R155). -/
def firstValue (B : Bytes) : Nat := (List.range 32).foldl (fun v j => 2 * v + codeBit B j) 0

/-- `D` is decoded from the code bytes `B` under the counts `freq`, the registers before symbol `i`
being `d i` (`41_arith_coder.md` rules R155 to R159). -/
def DecodesTo (freq : Nat → Nat → Nat) (B D : Bytes) (d : Nat → DecRegs) : Prop :=
  d 0 = ⟨0, 0xFFFFFFFF, firstValue B, 32⟩ ∧
    ∀ i, i < D.length →
      let t := tableAt D i
      let s := (byteIn D i).toNat
      let tot := cumOf freq t 256
      let r := (d i).high - (d i).low + 1
      let scaled := (((d i).value - (d i).low + 1) * tot - 1) / r
      cumOf freq t s ≤ scaled ∧ scaled < cumOf freq t (s + 1) ∧
        d (i + 1) = decRenorm B 64
          { d i with
            low := (d i).low + r * cumOf freq t s / tot
            high := (d i).low + r * cumOf freq t (s + 1) / tot - 1 }

/-- A table that the coder can use: 256 counts, each at least 1, total at most AC_MAX_TOTAL
(`41_arith_coder.md` rules R145, R154). -/
def UsableTable (tb : FreqTable) : Prop :=
  tb.length = 256 ∧ (∀ c ∈ tb, 1 ≤ c) ∧ tableTotal tb ≤ 0x3FFFFFFF

/-- A renormalized interval (`41_arith_coder.md` rule R160(a)(d)). -/
def Settled (v : Interval) : Prop :=
  v.low < 2 ^ 31 ∧ 2 ^ 31 ≤ v.high ∧ v.high < 2 ^ 32 ∧
    ¬ (2 ^ 30 ≤ v.low ∧ v.high < 3 * 2 ^ 30)

/-! ## Pipelines -/

/-- A stage output, refused when it is over MAX_LEN (`45_pipelines.md` rule R307). -/
def within (maxLen : Nat) (X : Bytes) : Except ErrCode Bytes :=
  if X.length ≤ maxLen then .ok X else .error .tooLarge

/-- The encode column of `45_pipelines.md` rule R300 for a non-empty source. -/
def encodeColumn (maxLen : Nat) (S : Bytes) : Nat → Except ErrCode Bytes
  | 1 => do
    let T ← within maxLen (lzEncode S)
    acEncode T
  | 2 => do
    let T ← within maxLen (rleEncode S)
    acEncode T
  | 3 => do
    let E ← within maxLen (deltaEncode S)
    let T ← within maxLen (lzEncode E)
    acEncode T
  | 4 => do
    let L ← within maxLen (be32 (bwtPrimary S) ++ bwtBytes S)
    let M ← within maxLen (mtfEncode L)
    acEncode M
  | 5 => do
    let X ← within maxLen (exeForward S)
    let T ← within maxLen (lzEncode X)
    acEncode T
  | _ => .ok S

/-- The decode column of `45_pipelines.md` rules R300 and R305 for a non-empty payload. -/
def decodeColumn (maxLen : Nat) (S : Bytes) : Nat → Except ErrCode Bytes
  | 1 => do
    let T ← acDecode maxLen S
    lzDecode T
  | 2 => do
    let T ← acDecode maxLen S
    rleDecode T
  | 3 => do
    let T ← acDecode maxLen S
    let E ← lzDecode T
    let E ← within maxLen E
    .ok (deltaDecode E)
  | 4 => do
    let M ← acDecode maxLen S
    let Y := mtfDecode M
    if Y.length < 4 then .error .pipeShort else bwtInverse (Y.drop 4) (rdBe32 Y 0)
  | 5 => do
    let T ← acDecode maxLen S
    let X ← lzDecode T
    let X ← within maxLen X
    .ok (exeInverse X)
  | _ => .ok S

end Sys2Proof.Reference
end

