-- ==== Sys2Proof/Safety.lean ====
section
/-! DEFINITION. What claims say of the machine: the invariant of its states, what a command needs to succeed,
what a success and a failure leave, and what a safe run is. -/

namespace Sys2Proof.Machine

/-! ## The invariant -/

/-- The invariant of the states that runs reach: memory in canonical form; a legal platform; BUSY
and DONE never both, ERRCODE and OUT_LEN 0 while BUSY (`10_state.md` rules R25, R30); the operand
registers frozen at the latched values while BUSY (rule R23); OUT_LEN 0 after a failure (rule R32)
and never over MAX_LEN (`60_exceptions.md` rule R323); the host's dirty ranges in the address space. -/
structure Inv (s : State) : Prop where
  memory : Memory.wf s.mem = true
  platform : s.platform.wf = true
  busyNotDone : s.busy = true → s.done = false
  busyNoError : s.busy = true → s.errCode = none ∧ s.outLen = 0
  busyLatched : s.busy = true → s.latch = s.regs
  errorNoOutput : s.errCode ≠ none → s.outLen = 0
  outputBounded : s.outLen.toNat ≤ s.platform.maxLen
  dirtyInSpace : ∀ r ∈ s.dirty, r.base + r.size ≤ 2 ^ 32

/-! ## What a command finds and needs -/

/-- `S`: the bytes at `SRC_ADDR .. SRC_ADDR + SRC_LEN - 1` of the latched operands, read one by one
(`20_memory.md` rule R64). -/
def sourceString (s : State) : Bytes :=
  (List.range s.latch.srcLen.toNat).map (fun k => readByte s.mem (s.latch.srcAddr.toNat + k))

/-- MemOK of the platform (`00_scope.md` rule R10). -/
def MemOK (s : State) (a : Nat) : Prop := inRanges s.platform.busErrors a = false

/-- Neither buffer wraps (`20_memory.md` rule R76). -/
def NoWrap (o : Operands) : Prop :=
  o.srcAddr.toNat + o.srcLen.toNat ≤ 2 ^ 32 ∧ o.dstAddr.toNat + o.dstCap.toNat ≤ 2 ^ 32

/-- The two buffers share no address (`20_memory.md` rule R77). -/
def NoOverlap (o : Operands) : Prop :=
  ∀ a, ¬ (o.srcAddr.toNat ≤ a ∧ a < o.srcAddr.toNat + o.srcLen.toNat ∧
    o.dstAddr.toNat ≤ a ∧ a < o.dstAddr.toNat + o.dstCap.toNat)

/-- Steps 2 to 4 of `60_exceptions.md` rule R320 succeed: ranges, source size, source read. -/
def SourceReadable (s : State) : Prop :=
  NoWrap s.latch ∧ NoOverlap s.latch ∧ s.latch.srcLen.toNat ≤ s.platform.maxLen ∧
    ∀ k, k < s.latch.srcLen.toNat → MemOK s (s.latch.srcAddr.toNat + k)

/-- Steps 6 and 7 and the final size check succeed for an output of `n` bytes. -/
def OutputFits (s : State) (n : Nat) : Prop :=
  n ≤ s.platform.maxLen ∧ n ≤ s.latch.dstCap.toNat ∧
    ∀ k, k < n → MemOK s (s.latch.dstAddr.toNat + k)

/-- The command's operands are readable and an output of `n` bytes can be written; memory is in
canonical form. -/
def Runnable (s : State) (n : Nat) : Prop :=
  Memory.wf s.mem = true ∧ SourceReadable s ∧ OutputFits s n

/-! ## What a command leaves -/

/-- Everything that no command changes. -/
def HostSideKept (s t : State) : Prop :=
  t.irqEn = s.irqEn ∧ t.latch = s.latch ∧ t.platform = s.platform ∧ t.inputs = s.inputs ∧
    t.turns = s.turns ∧ t.observed = s.observed ∧ t.stale = s.stale

/-- The registers but AUX, unchanged. -/
def OperandsKept (s t : State) : Prop :=
  t.regs.cmd = s.regs.cmd ∧ t.regs.srcAddr = s.regs.srcAddr ∧ t.regs.srcLen = s.regs.srcLen ∧
    t.regs.dstAddr = s.regs.dstAddr ∧ t.regs.dstCap = s.regs.dstCap

/-- Every byte outside the `n` bytes from DST_ADDR on reads as before. -/
def MemoryKeptOutside (s t : State) (n : Nat) : Prop :=
  ∀ a, (a < s.latch.dstAddr.toNat ∨ s.latch.dstAddr.toNat + n ≤ a) →
    readByte t.mem a = readByte s.mem a

/-- The success of `60_exceptions.md` rule R320 with output `D` and AUX afterwards `aux`: the bytes
of `D` stand at DST_ADDR, every other byte reads as before, OUT_LEN is `len(D)`, ERRCODE 0, BUSY 0,
DONE 1, and nothing else of the engine or the host has changed but the model's record of what the
engine wrote. -/
def Succeeded (s t : State) (D : Bytes) (aux : Word) : Prop :=
  t.busy = false ∧ t.done = true ∧ t.errCode = none ∧ t.outLen.toNat = D.length ∧
    t.regs.aux = aux ∧ OperandsKept s t ∧ HostSideKept s t ∧ t.draws = s.draws ∧
    (∀ k, k < D.length → readByte t.mem (s.latch.dstAddr.toNat + k) = D.getD k 0) ∧
    MemoryKeptOutside s t D.length

/-- A failure of `60_exceptions.md` rule R320 with code `c`: OUT_LEN 0, AUX unchanged, ERRCODE `c`,
BUSY 0, DONE 1; no byte outside the destination range has changed. -/
def FailedWith (s t : State) (c : ErrCode) : Prop :=
  t.busy = false ∧ t.done = true ∧ t.errCode = some c ∧ t.outLen = 0 ∧ t.regs = s.regs ∧
    HostSideKept s t ∧ MemoryKeptOutside s t s.latch.dstCap.toNat

/-- A failure in steps 1 to 3: no memory access at all. -/
def FailedEarly (s t : State) (c : ErrCode) : Prop :=
  FailedWith s t c ∧ t.mem = s.mem ∧ t.draws = s.draws ∧ t.unsynced = s.unsynced ∧
    t.abandoned = s.abandoned ∧ t.dirty = s.dirty

/-- Memory is in canonical form and steps 2 to 4 of `60_exceptions.md` rule R320 succeed. -/
def Readable (s : State) : Prop := Memory.wf s.mem = true ∧ SourceReadable s

/-- The result function that each command applies (files 40 to 45); NOP applies none. -/
def resultOf : Instr → Option ResultFn
  | .nop => none
  | .rleEnc => some (plainResult (fun S => .ok (rleEncode S)))
  | .rleDec => some (plainResult rleDecode)
  | .deltaEnc => some (plainResult (fun S => .ok (deltaEncode S)))
  | .deltaDec => some (plainResult (fun S => .ok (deltaDecode S)))
  | .exeFwd => some (plainResult (fun S => .ok (exeForward S)))
  | .exeInv => some (plainResult (fun S => .ok (exeInverse S)))
  | .mtfEnc => some (plainResult (fun S => .ok (mtfEncode S)))
  | .mtfDec => some (plainResult (fun S => .ok (mtfDecode S)))
  | .bwtFwd => some bwtFwdResult
  | .bwtInv => some bwtInvResult
  | .lzEnc => some (plainResult (fun S => .ok (lzEncode S)))
  | .lzDec => some (plainResult lzDecode)
  | .acEnc => some (plainResult acEncode)
  | .acDec => some acDecResult
  | .pipeEnc alg => (algOf alg).map pipeEncResult
  | .pipeDec alg => (algOf alg).map pipeDecResult

/-! ## Runs -/

/-- A host program has ended: its last statement has executed and the engine is IDLE
(`70_reset_and_hazards.md` rule R369). -/
def Ended (s : State) : Prop := s.inputs = [] ∧ s.busy = false

/-- The host step is a reset: the platform's reset input or a word write of CTRL with SOFT_RESET = 1
(`10_state.md` rule R26, `70_reset_and_hazards.md` rule R360). -/
def isReset (p : Platform) : HostOp → Bool
  | .hardReset => true
  | .regWrite .word addr v => regOffset p addr == some 0x04 && v.getLsbD 1
  | _ => false

/-- A safe run: no number of steps ends in a fault or a refusal. -/
def SafeRun (s : State) : Prop := ∀ k, ∃ t, Host.Core.run core k s = .next t

end Sys2Proof.Machine
end

