-- ==== Sys2Proof/Certificates/Slice0/Obligations.lean ====
section
/-! DEFINITION. The statements for the provers: what the rules of spec/ say of the machine and of each command. -/

section ObligationStatements

open Sys2Proof Sys2Proof.Machine Sys2Proof.Reference

/-! ## The command word -/

/-- Every command's word, written out from `30_encoding.md` rule R94, and its decoding. -/
def Obligations.CommandWordsOfTheOpcodeMap : Prop :=
  (encode .nop = 0x00000000 ∧ decode 0x00000000 = .ok .nop) ∧
  (encode .rleEnc = 0x00000001 ∧ decode 0x00000001 = .ok .rleEnc) ∧
  (encode .rleDec = 0x00000002 ∧ decode 0x00000002 = .ok .rleDec) ∧
  (encode .deltaEnc = 0x00000003 ∧ decode 0x00000003 = .ok .deltaEnc) ∧
  (encode .deltaDec = 0x00000004 ∧ decode 0x00000004 = .ok .deltaDec) ∧
  (encode .exeFwd = 0x00000005 ∧ decode 0x00000005 = .ok .exeFwd) ∧
  (encode .exeInv = 0x00000006 ∧ decode 0x00000006 = .ok .exeInv) ∧
  (encode .mtfEnc = 0x00000007 ∧ decode 0x00000007 = .ok .mtfEnc) ∧
  (encode .mtfDec = 0x00000008 ∧ decode 0x00000008 = .ok .mtfDec) ∧
  (encode .bwtFwd = 0x00000009 ∧ decode 0x00000009 = .ok .bwtFwd) ∧
  (encode .bwtInv = 0x0000000A ∧ decode 0x0000000A = .ok .bwtInv) ∧
  (encode .lzEnc = 0x0000000B ∧ decode 0x0000000B = .ok .lzEnc) ∧
  (encode .lzDec = 0x0000000C ∧ decode 0x0000000C = .ok .lzDec) ∧
  (encode .acEnc = 0x0000000D ∧ decode 0x0000000D = .ok .acEnc) ∧
  (encode .acDec = 0x0000000E ∧ decode 0x0000000E = .ok .acDec) ∧
  (encode (.pipeEnc 0) = 0x00000010 ∧ decode 0x00000010 = .ok (.pipeEnc 0)) ∧
  (encode (.pipeEnc 1) = 0x00000110 ∧ decode 0x00000110 = .ok (.pipeEnc 1)) ∧
  (encode (.pipeEnc 2) = 0x00000210 ∧ decode 0x00000210 = .ok (.pipeEnc 2)) ∧
  (encode (.pipeEnc 3) = 0x00000310 ∧ decode 0x00000310 = .ok (.pipeEnc 3)) ∧
  (encode (.pipeEnc 4) = 0x00000410 ∧ decode 0x00000410 = .ok (.pipeEnc 4)) ∧
  (encode (.pipeEnc 5) = 0x00000510 ∧ decode 0x00000510 = .ok (.pipeEnc 5)) ∧
  (encode (.pipeDec 0) = 0x00000011 ∧ decode 0x00000011 = .ok (.pipeDec 0)) ∧
  (encode (.pipeDec 1) = 0x00000111 ∧ decode 0x00000111 = .ok (.pipeDec 1)) ∧
  (encode (.pipeDec 2) = 0x00000211 ∧ decode 0x00000211 = .ok (.pipeDec 2)) ∧
  (encode (.pipeDec 3) = 0x00000311 ∧ decode 0x00000311 = .ok (.pipeDec 3)) ∧
  (encode (.pipeDec 4) = 0x00000411 ∧ decode 0x00000411 = .ok (.pipeDec 4)) ∧
  (encode (.pipeDec 5) = 0x00000511 ∧ decode 0x00000511 = .ok (.pipeDec 5))

/-- Decoding and encoding agree in both directions: a word decodes to a command exactly when the
command is well formed and the word is its encoding; the table decoder reads the same. -/
def Obligations.DecodeAgreesWithEncode : Prop :=
  (∀ (w : Word) (i : Instr), decode w = .ok i ↔ i.wf = true ∧ encode i = w) ∧
  ∀ (w : Word) (i : Instr), decodeTableWord 32 w.toNat = some i ↔ i.wf = true ∧ encode i = w

/-- What an illegal command word does (`30_encoding.md` rule R95, `60_exceptions.md` rules R320 step
1, R322 item 1, `92_eei_decisions.md` D3): the command completes with UNKNOWN_ALG for PIPE_DEC with an
unknown algorithm identifier, whatever RSVD holds, with ILLEGAL_CMD for every other illegal word, and
makes no memory access. -/
def Obligations.IllegalWordsFail : Prop :=
  ∀ s : State,
    let opc := (s.latch.cmd.extractLsb' 0 8).toNat
    let alg := (s.latch.cmd.extractLsb' 8 8).toNat
    let rsvd := (s.latch.cmd.extractLsb' 16 16).toNat
    let illegal := opc = 0x0F ∨ 0x12 ≤ opc ∨ rsvd ≠ 0 ∨ (alg ≠ 0 ∧ opc ≠ 0x10 ∧ opc ≠ 0x11) ∨
      (opc = 0x10 ∧ 6 ≤ alg)
    let unknown := opc = 0x11 ∧ 6 ≤ alg
    (unknown → ∃ t, engineStep s = .next t ∧ FailedEarly s t .unknownAlg) ∧
    (illegal → ¬ unknown → ∃ t, engineStep s = .next t ∧ FailedEarly s t .illegalCmd) ∧
    (¬ illegal → ¬ unknown → ∃ i, decode s.latch.cmd = .ok i ∧ i.wf = true)

/-! ## The step of the machine -/

/-- A step of the engine runs the decoded command of the latched word (`60_exceptions.md` rule
R320): whenever BUSY = 1 and the host is not the one whose turn it is.  The only thing a step adds
around the command is that a choice at a race is used up. -/
def Obligations.StepRunsTheDecodedCommand : Prop :=
  (∀ (s : State) (i : Instr), s.busy = true → decode s.latch.cmd = .ok i →
    (s.inputs = [] ∨ s.turns.head? ≠ some .host) →
    step s = exec i { s with turns := if s.inputs = [] then s.turns else s.turns.tail }) ∧
  ∀ (s : State) (i : Instr), i.wf = true →
    step (s.withFetchWord 32 (encode i).toNat) =
      exec i { s with
        busy := true, done := false, errCode := none, outLen := 0
        regs := { s.regs with cmd := encode i }, latch := { s.regs with cmd := encode i } }

/-- A step of the host performs its next access (`70_reset_and_hazards.md` rule R368), in IDLE or
when it is the host's turn; in IDLE with no access left nothing happens. -/
def Obligations.StepTakesTheHostsNextAccess : Prop :=
  (∀ (s : State) (op : HostOp) (rest : List HostOp), s.inputs = op :: rest →
    (s.busy = false ∨ s.turns.head? = some .host) →
    step s = hostDo op
      { s with inputs := rest, turns := if s.busy = true then s.turns.tail else s.turns }) ∧
  ∀ s : State, s.inputs = [] → s.busy = false → step s = .next s

/-- What the host reads right after power-on, and that the engine then does nothing
(`10_state.md` rule R52, `70_reset_and_hazards.md` rule R362). -/
def Obligations.PowerOnState : Prop :=
  readReg .id State.reset = 0x434B0001 ∧ readReg .ctrl State.reset = 0 ∧
  readReg .cmd State.reset = 0 ∧ readReg .status State.reset = 0 ∧
  readReg .srcAddr State.reset = 0 ∧ readReg .srcLen State.reset = 0 ∧
  readReg .dstAddr State.reset = 0 ∧ readReg .dstCap State.reset = 0 ∧
  readReg .outLen State.reset = 0 ∧ readReg .aux State.reset = 0 ∧
  irq State.reset = false ∧ State.reset.busy = false ∧ State.reset.irqEn = false ∧
  State.reset.done = false ∧ State.reset.errCode = none ∧ step State.reset = .next State.reset ∧
  ∀ (inputs : List HostOp) (turns : List Agent),
    nextAgent { State.reset with inputs := inputs, turns := turns } ≠ some .engine

/-- The invariant holds right after reset. -/
def Obligations.ResetSatisfiesTheInvariant : Prop := Inv State.reset

/-- Every step of the machine keeps the invariant. -/
def Obligations.StepKeepsTheInvariant : Prop :=
  ∀ s t : State, Inv s → step s = .next t → Inv t

/-! ## Registers -/

/-- Soft and hard reset (`10_state.md` rules R26, R52, `70_reset_and_hazards.md` rules R360, R361):
both leave the same state; every register reads its reset value, IRQ is low, the engine is IDLE and
has no step to take; no byte outside the latched destination range changes, and none at all when no
command was running.  Of the host's side the program, the turns, the observations and the lists
`unsynced` and `stale` are kept, and without a running command `abandoned` and `dirty` too: that is
the model's reading (log 15). -/
def Obligations.ResetGivesTheResetValues : Prop :=
  ∀ (s : State) (v : Word), s.platform.wf = true → v.getLsbD 1 = true →
    ∃ t, hostDo .hardReset s = .next t ∧ hostDo (wr s.platform .ctrl v) s = .next t ∧
      readReg .id t = 0x434B0001 ∧ readReg .ctrl t = 0 ∧ readReg .cmd t = 0 ∧
      readReg .status t = 0 ∧ readReg .srcAddr t = 0 ∧ readReg .srcLen t = 0 ∧
      readReg .dstAddr t = 0 ∧ readReg .dstCap t = 0 ∧ readReg .outLen t = 0 ∧
      readReg .aux t = 0 ∧ irq t = false ∧ t.busy = false ∧ nextAgent t ≠ some .engine ∧
      MemoryKeptOutside s t s.latch.dstCap.toNat ∧ (s.busy = false → t.mem = s.mem) ∧
      t.platform = s.platform ∧ t.inputs = s.inputs ∧ t.turns = s.turns ∧
      t.observed = s.observed ∧ t.unsynced = s.unsynced ∧ t.stale = s.stale ∧
      (s.busy = false → t.abandoned = s.abandoned ∧ t.dirty = s.dirty)

/-- A CTRL write without SOFT_RESET: with START, in IDLE, the acceptance of a command (`10_state.md`
rule R25); without START, or while BUSY = 1, IRQ_EN takes bit 2 and nothing else changes (rules R23,
R24).  The hypothesis on the host's caches is the host's duty of `20_memory.md` rule R80. -/
def Obligations.StartAcceptsTheCommand : Prop :=
  ∀ (s : State) (v : Word), s.platform.wf = true → v.getLsbD 1 = false →
    (v.getLsbD 0 = true → s.busy = false →
      (s.platform.dmaCoherent = true ∨ meetsAny s.dirty s.regs.src = false) →
      ∃ t, hostDo (wr s.platform .ctrl v) s = .next t ∧
        t.busy = true ∧ t.done = false ∧ t.errCode = none ∧ t.outLen = 0 ∧ t.latch = s.regs ∧
        t.irqEn = v.getLsbD 2 ∧ t.regs = s.regs ∧ t.mem = s.mem ∧ t.platform = s.platform ∧
        t.inputs = s.inputs ∧ t.turns = s.turns ∧ t.observed = s.observed ∧
        t.unsynced = s.unsynced ∧ t.abandoned = s.abandoned ∧ t.stale = s.stale ∧
        t.dirty = s.dirty ∧ t.draws = s.draws ∧
        (s.inputs = [] → step t = engineStep t)) ∧
    (v.getLsbD 0 = false ∨ s.busy = true →
      hostDo (wr s.platform .ctrl v) s = .next { s with irqEn := v.getLsbD 2 })

/-- Register writes while BUSY = 1 (`10_state.md` rule R23). -/
def Obligations.BusyWritesAreIgnored : Prop :=
  ∀ (s : State) (v : Word), s.platform.wf = true → s.busy = true →
    (∀ r : Reg, r ∈ [.cmd, .srcAddr, .srcLen, .dstAddr, .dstCap, .aux, .status] →
      hostDo (wr s.platform r v) s = .next s) ∧
    (v.getLsbD 1 = false →
      hostDo (wr s.platform .ctrl v) s = .next { s with irqEn := v.getLsbD 2 }) ∧
    (v.getLsbD 1 = true → hostDo (wr s.platform .ctrl v) s = hostDo .hardReset s)

/-- A write to an operand register while BUSY = 0: the register reads back as written, all 32 bits,
and nothing else changes (`10_state.md` rules R28, R33 to R36, R38, `20_memory.md` rule R75). -/
def Obligations.OperandWritesReadBack : Prop :=
  ∀ (s : State) (v : Word) (r : Reg), s.platform.wf = true → s.busy = false →
    r ∈ [Reg.cmd, .srcAddr, .srcLen, .dstAddr, .dstCap, .aux] →
    ∃ t, hostDo (wr s.platform r v) s = .next t ∧ readReg r t = v ∧
      (∀ q : Reg, q ≠ r → readReg q t = readReg q s) ∧
      t = { s with regs := t.regs } ∧
      ∃ u, hostDo (rd s.platform r) t = .next u ∧
        u.observed = t.observed ++ [.reg (regAddr s.platform r) v]

/-- STATUS.DONE: set by every completion, cleared by a write of STATUS bit 1 while BUSY = 0, which
changes nothing else (`10_state.md` rule R31). -/
def Obligations.StatusWriteClearsDone : Prop :=
  (∀ s t : State, engineStep s = .next t → t.done = true) ∧
  ∀ (s : State) (v : Word), s.platform.wf = true →
    (s.busy = false → v.getLsbD 1 = true →
      hostDo (wr s.platform .status v) s = .next { s with done := false }) ∧
    (s.busy = true ∨ v.getLsbD 1 = false → hostDo (wr s.platform .status v) s = .next s)

/-- ID (`10_state.md` rule R27), and what a read of any register does (`10_state.md` rule R21,
`20_memory.md` rule R75): it returns the register's value and changes no register, no memory and
nothing else but what the host has read and, for STATUS, which engine writes the host may take as
performed (`20_memory.md` rules R78(b), R81). -/
def Obligations.IdIsConstant : Prop :=
  ∀ (s : State) (v : Word), s.platform.wf = true →
    hostDo (wr s.platform .id v) s = .next s ∧
    hostDo (rd s.platform .id) s = .next { s with
      observed := s.observed ++ [.reg (regAddr s.platform .id) 0x434B0001] } ∧
    ∀ r : Reg, ∃ t, hostDo (rd s.platform r) s = .next t ∧
      t.observed = s.observed ++ [.reg (regAddr s.platform r) (readReg r s)] ∧
      (∀ q : Reg, readReg q t = readReg q s) ∧ t.mem = s.mem ∧
      t = { s with
        observed := t.observed, unsynced := t.unsynced
        abandoned := t.abandoned, stale := t.stale } ∧
      (r ≠ .status ∨ s.done = false →
        t.unsynced = s.unsynced ∧ t.abandoned = s.abandoned ∧ t.stale = s.stale)

/-- Reserved offsets read 0 and ignore writes; reserved bits of CTRL and STATUS read 0 and ignore
writes; OUT_LEN ignores writes; CMD stores all its bits (`10_state.md` rules R22, R37). -/
def Obligations.ReservedOffsetsAndBits : Prop :=
  ∀ (s : State) (v : Word), s.platform.wf = true →
    (∀ off : Nat, 0x28 ≤ off → off ≤ 0xFC → off % 4 = 0 →
      let a := s.platform.regBase + BitVec.ofNat 32 off
      hostDo (.regWrite .word a v) s = .next s ∧
      hostDo (.regRead .word a) s = .next { s with observed := s.observed ++ [.reg a 0] }) ∧
    (readReg .ctrl s).extractLsb' 3 29 = 0 ∧ (readReg .status s).extractLsb' 3 5 = 0 ∧
    (readReg .status s).extractLsb' 16 16 = 0 ∧
    hostDo (wr s.platform .ctrl v) s = hostDo (wr s.platform .ctrl (v &&& 0x7)) s ∧
    hostDo (wr s.platform .status v) s = hostDo (wr s.platform .status (v &&& 0x2)) s ∧
    hostDo (wr s.platform .outLen v) s = .next s ∧
    (s.busy = false → ∃ t, hostDo (wr s.platform .cmd v) s = .next t ∧
      (readReg .cmd t).extractLsb' 16 16 = v.extractLsb' 16 16)

/-- The fields of STATUS and CTRL and the numbers of the error codes (`10_state.md` rules R24, R29,
`60_exceptions.md` rule R321). -/
def Obligations.StatusAndCtrlFields : Prop :=
  ∀ s : State,
    (readReg .status s).getLsbD 0 = s.busy ∧ (readReg .status s).getLsbD 1 = s.done ∧
    ((readReg .status s).getLsbD 2 = true ↔ (readReg .status s).extractLsb' 8 8 ≠ 0) ∧
    (∀ p ∈ [((none : Option ErrCode), (0x00 : Byte)), (some .illegalCmd, 0x01),
        (some .badRange, 0x02), (some .overlap, 0x03), (some .dstOverflow, 0x04),
        (some .tooLarge, 0x05), (some .busError, 0x06), (some .acShortInput, 0x10),
        (some .acBadModel, 0x11), (some .acZeroLength, 0x12), (some .acTooLarge, 0x13),
        (some .lzBadSize, 0x20), (some .lzBadToken, 0x21), (some .bwtBadIndex, 0x30),
        (some .rleTruncated, 0x40), (some .rleZeroRun, 0x41), (some .unknownAlg, 0x50),
        (some .pipeShort, 0x51)],
      s.errCode = p.1 → (readReg .status s).extractLsb' 8 8 = p.2) ∧
    (readReg .ctrl s).getLsbD 0 = false ∧ (readReg .ctrl s).getLsbD 1 = false ∧
    (readReg .ctrl s).getLsbD 2 = s.irqEn

/-- The interrupt line (`10_state.md` rule R42): DONE and IRQ_EN; what makes it rise and fall.  The
last two clauses, the host's wait for it (`30_encoding.md` rule R99), have the form of log 22, the
model's choice: a wait stays at the head of the program while IRQ is low. -/
def Obligations.IrqLine : Prop :=
  (∀ s : State, irq s = ((readReg .status s).getLsbD 1 && (readReg .ctrl s).getLsbD 2)) ∧
  (∀ s t : State, engineStep s = .next t → irq t = s.irqEn) ∧
  (∀ (s t : State) (v : Word), s.platform.wf = true →
    hostDo (wr s.platform .ctrl v) s = .next t →
    (v.getLsbD 1 = true → irq t = false) ∧
    (v.getLsbD 1 = false → v.getLsbD 0 = true → s.busy = false → irq t = false) ∧
    (v.getLsbD 1 = false → (v.getLsbD 0 = false ∨ s.busy = true) →
      irq t = (s.done && v.getLsbD 2))) ∧
  (∀ s t : State, hostDo .hardReset s = .next t → irq t = false) ∧
  (∀ (s t : State) (v : Word), s.platform.wf = true → s.busy = false → v.getLsbD 1 = true →
    hostDo (wr s.platform .status v) s = .next t → irq t = false) ∧
  (∀ s : State, irq s = true → hostDo .waitIrq s = .next s) ∧
  ∀ s : State, irq s = false →
    hostDo .waitIrq s = .next { s with inputs := .waitIrq :: s.inputs }

/-- Register accesses without a meaning are refused, and no others (`60_exceptions.md` rule R331);
a refusal lasts for the rest of the run. -/
def Obligations.AccessRefusals : Prop :=
  (∀ (s : State) (a v : Word) (w : AccessWidth), w = .byte ∨ w = .half →
    hostDo (.regWrite w a v) s = .refused .narrowRegisterAccess ∧
    hostDo (.regRead w a) s = .refused .narrowRegisterAccess) ∧
  (∀ (s : State) (a v : Word) (f : Field) (n : Nat),
    (a.toNat < s.platform.regBase.toNat ∨ s.platform.regBase.toNat + 256 ≤ a.toNat) →
    hostDo (.regWrite .word a v) s = .refused .outsideRegisterBlock ∧
    hostDo (.regRead .word a) s = .refused .outsideRegisterBlock ∧
    hostDo (.poll a f n) s = .refused .outsideRegisterBlock) ∧
  (∀ (s : State) (a v : Word) (f : Field) (n : Nat), s.platform.wf = true →
    s.platform.regBase.toNat ≤ a.toNat → a.toNat < s.platform.regBase.toNat + 256 →
    (a.toNat % 4 ≠ 0 →
      hostDo (.regWrite .word a v) s = .refused .misalignedRegisterAccess ∧
      hostDo (.regRead .word a) s = .refused .misalignedRegisterAccess ∧
      hostDo (.poll a f n) s = .refused .misalignedRegisterAccess) ∧
    (a.toNat % 4 = 0 → ∀ r : Refusal, hostDo (.regWrite .word a v) s ≠ .refused r ∧
      hostDo (.regRead .word a) s ≠ .refused r ∧ hostDo (.poll a f n) s ≠ .refused r)) ∧
  ∀ (s : State) (r : Refusal) (k : Nat), step s = .refused r →
    Host.Core.run core (k + 1) s = .refused r

/-! ## Memory, ordering and hazards -/

/-- The buffer hazard (`20_memory.md` rule R86, `60_exceptions.md` rule R330): while BUSY = 1 a host
write to any latched source or destination byte is a hazard fault, which lasts for the rest of the
run; any other host write is none; a host read of destination bytes is no fault and returns free
values. -/
def Obligations.BufferHazard : Prop :=
  (∀ (s : State) (a : Nat) (bs : Bytes), s.busy = true → a + bs.length ≤ 2 ^ 32 →
    ((∃ k, k < bs.length ∧
        (inRange s.latch.src (a + k) = true ∨ inRange s.latch.dst (a + k) = true)) →
      hostDo (.memWrite a bs) s = .fault .bufferHazard) ∧
    ((∀ k, k < bs.length →
        inRange s.latch.src (a + k) = false ∧ inRange s.latch.dst (a + k) = false) →
      ∃ t, hostDo (.memWrite a bs) s = .next t ∧
        (∀ k, k < bs.length → readByte t.mem (a + k) = byteIn bs k) ∧
        ∀ x, (x < a ∨ a + bs.length ≤ x) → readByte t.mem x = readByte s.mem x)) ∧
  (∀ (s : State) (a n : Nat), s.busy = true → a + n ≤ 2 ^ 32 →
    (∀ k, k < n → inRange s.latch.dst (a + k) = true) →
    hostDo (.memRead a n) s = .next { s with
      observed := s.observed ++
        [.mem a ((List.range n).map (fun k => Config.freeByte (s.draws + k)))]
      draws := s.draws + n }) ∧
  ∀ (s : State) (f : Fault) (k : Nat), step s = .fault f →
    Host.Core.run core (k + 1) s = .fault f

/-- What the host's memory accesses do with no command running (`20_memory.md` rules R63, R78, R81):
a write is in memory for the engine to read; on a coherent platform a read after a STATUS read that
returned DONE = 1 returns the bytes in memory; on any platform a read of bytes whose completion the
host has not seen, or of an abandoned command's destination, returns free values (logs 7 and 4, the
model's reading).  That an access beyond the 2^32 addresses is the fault outsideMemory is log 18, the
model's reading of rule R63. -/
def Obligations.HostMemoryAccesses : Prop :=
  (∀ (s : State) (a : Nat) (bs : Bytes), s.busy = false → a + bs.length ≤ 2 ^ 32 →
    ∃ t, hostDo (.memWrite a bs) s = .next t ∧ t.regs = s.regs ∧
      (∀ k, k < bs.length → readByte t.mem (a + k) = byteIn bs k) ∧
      ∀ x, (x < a ∨ a + bs.length ≤ x) → readByte t.mem x = readByte s.mem x) ∧
  (∀ s : State, s.platform.wf = true → s.platform.dmaCoherent = true → s.busy = false →
    s.done = true →
    ∃ t, hostDo (rd s.platform .status) s = .next t ∧ t.mem = s.mem ∧
      ∀ a n : Nat, a + n ≤ 2 ^ 32 →
        ∃ u, hostDo (.memRead a n) t = .next u ∧ u.mem = s.mem ∧
          u.observed = t.observed ++
            [.mem a ((List.range n).map (fun k => readByte s.mem (a + k)))]) ∧
  (∀ s a n, a + n ≤ 2 ^ 32 →
    (∀ k, k < n → inRanges s.unsynced (a + k) = true ∨ inRanges s.abandoned (a + k) = true) →
    hostDo (.memRead a n) s = .next { s with
      observed := s.observed ++
        [.mem a ((List.range n).map (fun k => Config.freeByte (s.draws + k)))]
      draws := s.draws + n }) ∧
  ∀ (s : State) (a n : Nat) (bs : Bytes), (2 ^ 32 < a + n → hostDo (.memRead a n) s =
      .fault .outsideMemory) ∧
    (2 ^ 32 < a + bs.length → hostDo (.memWrite a bs) s = .fault .outsideMemory)

/-- The host's cache duties (`20_memory.md` rule R80, as log 8 models the host's caches): with
DMA_COHERENT false a START whose source holds uncleaned bytes, and a read of output bytes after
DONE = 1 was seen and before they were invalidated, are hazards; cleaning and invalidating remove
them.  A read of the destination of an abandoned command is none (log 4), and with DMA_COHERENT true
there is no such hazard. -/
def Obligations.CoherenceDuties : Prop :=
  (∀ (s : State) (v : Word), s.platform.wf = true → s.platform.dmaCoherent = false →
    s.busy = false → v.getLsbD 0 = true → v.getLsbD 1 = false →
    (∃ a, inRanges s.dirty a = true ∧ inRange s.regs.src a = true) →
    hostDo (wr s.platform .ctrl v) s = .fault .coherenceHazard) ∧
  (∀ s : State, s.platform.wf = true → s.busy = false →
    ∃ t, hostDo (.cacheClean s.regs.src) s = .next t ∧ t.mem = s.mem ∧ t.regs = s.regs ∧
      ∀ v : Word, v.getLsbD 0 = true → v.getLsbD 1 = false →
        ∃ u, hostDo (wr s.platform .ctrl v) t = .next u ∧ u.busy = true ∧ u.latch = s.regs) ∧
  (∀ (s : State) (a n k : Nat), s.platform.dmaCoherent = false → a + n ≤ 2 ^ 32 → k < n →
    inRanges s.stale (a + k) = true → inRanges s.unsynced (a + k) = false →
    inRanges s.abandoned (a + k) = false → (s.busy = false ∨ inRange s.latch.dst (a + k) = false) →
    hostDo (.memRead a n) s = .fault .coherenceHazard) ∧
  (∀ s : State, s.platform.wf = true → s.platform.dmaCoherent = false → s.busy = false →
    s.done = true →
    ∃ t, hostDo (rd s.platform .status) s = .next t ∧ t.mem = s.mem ∧
      ∀ a, a < 2 ^ 32 → inRanges s.unsynced a = true → inRanges s.abandoned a = false →
        hostDo (.memRead a 1) t = .fault .coherenceHazard) ∧
  (∀ s a n, s.busy = true → accessesMemory s.platform s.latch = true → a + n ≤ 2 ^ 32 →
    (∀ k, k < n → inRange s.latch.dst (a + k) = true) →
    ∃ t, hostDo .hardReset s = .next t ∧
      ∀ r : Range, ∃ u, hostDo (.cacheInvalidate r) t = .next u ∧
        hostDo (.memRead a n) u = .next { u with
          observed := u.observed ++
            [.mem a ((List.range n).map (fun k => Config.freeByte (u.draws + k)))]
          draws := u.draws + n }) ∧
  (∀ (s : State) (r : Range), s.busy = false →
    (∀ a, inRange r a = true → inRanges s.unsynced a = false ∧ inRanges s.abandoned a = false) →
    ∃ t, hostDo (.cacheInvalidate r) s = .next t ∧ t.regs = s.regs ∧
      ((∀ a, inRanges s.dirty a = true → inRange r a = false) →
        ∀ a, readByte t.mem a = readByte s.mem a) ∧
      ∀ a n : Nat, r.base ≤ a → a + n ≤ r.base + r.size → a + n ≤ 2 ^ 32 →
        ∃ u, hostDo (.memRead a n) t = .next u ∧
          u.observed = t.observed ++
            [.mem a ((List.range n).map (fun k => readByte t.mem (a + k)))]) ∧
  ∀ (s : State) (op : HostOp), s.platform.dmaCoherent = true →
    hostDo op s ≠ .fault .coherenceHazard

/-! ## Progress -/

/-- A poll of DONE with no command accepted never ends (`70_reset_and_hazards.md` rule R368). -/
def Obligations.PollWithoutStartNeverEnds : Prop :=
  ∀ (s : State) (k : Nat), s.platform.wf = true → s.busy = false → s.done = false →
    s.inputs = [pollDone s.platform] → Host.Core.run core k s = .next s

/-- Every accepted command completes, unless a reset abandons it or the host program ends in a fault
or a refusal (`60_exceptions.md` rule R320, `70_reset_and_hazards.md` rules R367, R368): within one step
more than the host is given turns, BUSY has fallen, and DONE = 1 or the host's last step was a reset.
The bound on the turns is log 6, the model's form of weak fairness. -/
def Obligations.CompletionIsReached : Prop :=
  ∀ s : State, Inv s → s.busy = true →
    ∃ k, k ≤ s.turns.length + 1 ∧
      ((∃ t, Host.Core.run core k s = .next t ∧ t.busy = false ∧
          (t.done = true ∨ ∃ pre op, s.inputs = pre ++ op :: t.inputs ∧
            isReset s.platform op = true)) ∨
        (∃ f, Host.Core.run core k s = .fault f) ∨ ∃ r, Host.Core.run core k s = .refused r)

/-- The pseudo-statement `RUN` of `30_encoding.md` rule R99 in its four forms (with or without AUX,
polled or with IRQ), from any IDLE state and under any interleaving: it ends, and what it leaves in
memory and in the registers is what the command, run on the operands that RUN names and on the
memory it found, leaves.  The bound on the turns is log 6, the model's form of weak fairness. -/
def Obligations.RunStatementCompletes : Prop :=
  ∀ (s : State) (i : Instr) (a : RunArgs) (aux : Option Word) (irq : Bool),
    Inv s → i.wf = true → s.busy = false → s.inputs = runStatement s.platform i a aux irq →
    (s.platform.dmaCoherent = true ∨ meetsAny s.dirty ⟨a.src.toNat, a.len.toNat⟩ = false) →
    let args : Operands := ⟨encode i, a.src, a.len, a.dst, a.cap, aux.getD s.regs.aux⟩
    ∃ k u t v, k ≤ s.turns.length + 10 ∧
      u.regs = args ∧ u.latch = args ∧ u.mem = s.mem ∧ u.platform = s.platform ∧
      u.draws = s.draws ∧ exec i u = .next t ∧ Host.Core.run core k s = .next v ∧
      Ended v ∧ v.done = true ∧ v.irqEn = irq ∧ v.mem = t.mem ∧ v.regs = t.regs ∧
      v.outLen = t.outLen ∧ v.errCode = t.errCode ∧ v.platform = s.platform ∧ v.unsynced = [] ∧
      v.observed = s.observed ++
        if irq then [.reg (regAddr s.platform .status) (readReg .status v)] else []

/-! ## Command application -/

/-- The range checks (`20_memory.md` rules R76, R77): every command but NOP completes with BAD_RANGE
when a buffer wraps, else with OVERLAP when the buffers share an address, without any memory
access; then with TOO_LARGE when the source is over MAX_LEN. -/
def Obligations.RangeChecksComeFirst : Prop :=
  ∀ (i : Instr) (s : State), i.wf = true → i ≠ .nop →
    (¬ NoWrap s.latch → ∃ t, exec i s = .next t ∧ FailedEarly s t .badRange) ∧
    (NoWrap s.latch → ¬ NoOverlap s.latch →
      ∃ t, exec i s = .next t ∧ FailedEarly s t .overlap) ∧
    (NoWrap s.latch → NoOverlap s.latch → s.platform.maxLen < s.latch.srcLen.toNat →
      ∃ t, exec i s = .next t ∧ FailedEarly s t .tooLarge)

/-- The later checks, in the order of `60_exceptions.md` rule R322: a bus error on the source read,
the result function's own error, an output over MAX_LEN, an output over DST_CAP, a bus error on the
destination write; past all of them the command succeeds. -/
def Obligations.LaterChecksInOrder : Prop :=
  ∀ (i : Instr) (f : ResultFn) (s : State), resultOf i = some f → Memory.wf s.mem = true →
    NoWrap s.latch → NoOverlap s.latch → s.latch.srcLen.toNat ≤ s.platform.maxLen →
    ((∃ k, k < s.latch.srcLen.toNat ∧ ¬ MemOK s (s.latch.srcAddr.toNat + k)) →
      ∃ t, exec i s = .next t ∧ FailedWith s t .busError) ∧
    (SourceReadable s →
      (∀ c, f s.platform.maxLen (sourceString s) s.latch.aux = .error c →
        ∃ t, exec i s = .next t ∧ FailedWith s t c) ∧
      (∀ out, f s.platform.maxLen (sourceString s) s.latch.aux = .ok out →
        (s.platform.maxLen < out.bytes.length →
          ∃ t, exec i s = .next t ∧ FailedWith s t .tooLarge) ∧
        (out.bytes.length ≤ s.platform.maxLen → s.latch.dstCap.toNat < out.bytes.length →
          ∃ t, exec i s = .next t ∧ FailedWith s t .dstOverflow) ∧
        (out.bytes.length ≤ s.platform.maxLen → out.bytes.length ≤ s.latch.dstCap.toNat →
          (∃ k, k < out.bytes.length ∧ ¬ MemOK s (s.latch.dstAddr.toNat + k)) →
          ∃ t, exec i s = .next t ∧ FailedWith s t .busError) ∧
        (OutputFits s out.bytes.length →
          ∃ t, exec i s = .next t ∧ Succeeded s t out.bytes (auxAfter s.regs.aux out.aux))))

/-- Every command completes from every state, whatever its operands and its source bytes
(`60_exceptions.md` rules R320, R325): IDLE, DONE, and nothing changed but OUT_LEN, ERRCODE, AUX and
the destination range; a failure leaves OUT_LEN 0 and every other register as it was. -/
def Obligations.EveryCommandCompletes : Prop :=
  ∀ (i : Instr) (s : State), ∃ t, exec i s = .next t ∧ t.busy = false ∧ t.done = true ∧
    OperandsKept s t ∧ HostSideKept s t ∧
    ((t.errCode = none ∧ t.outLen.toNat ≤ s.latch.dstCap.toNat ∧ t.draws = s.draws ∧
        MemoryKeptOutside s t t.outLen.toNat) ∨
      ∃ c, FailedWith s t c)

/-- What the engine's writes mean for the host's later reads (`20_memory.md` rules R78(b), R80): the
bytes a success has stored, and no others, are now to be read only after DONE = 1 has been seen, and
hold no uncleaned bytes and nothing of an abandoned command (logs 7, 8 and 4, the model's reading). -/
def Obligations.EngineWritesAwaitTheHost : Prop :=
  ∀ (i : Instr) (s t : State), exec i s = .next t → t.errCode = none → ∀ a : Nat,
    (inRanges t.unsynced a = true ↔ inRanges s.unsynced a = true ∨
      (s.latch.dstAddr.toNat ≤ a ∧ a < s.latch.dstAddr.toNat + t.outLen.toNat)) ∧
    (inRanges t.abandoned a = true ↔ inRanges s.abandoned a = true ∧
      ¬ (s.latch.dstAddr.toNat ≤ a ∧ a < s.latch.dstAddr.toNat + t.outLen.toNat)) ∧
    (inRanges t.dirty a = true ↔ inRanges s.dirty a = true ∧
      ¬ (s.latch.dstAddr.toNat ≤ a ∧ a < s.latch.dstAddr.toNat + t.outLen.toNat))

/-- Two runs with the same operands and source bytes give the same ERRCODE, OUT_LEN, AUX and, on
success, destination bytes (`60_exceptions.md` rule R324, `10_state.md` rule R51). -/
def Obligations.OutcomeIsDetermined : Prop :=
  ∀ s₁ s₂ t₁ t₂ : State, Memory.wf s₁.mem = true → Memory.wf s₂.mem = true →
    s₁.latch = s₂.latch → s₁.regs.aux = s₂.regs.aux → s₁.platform = s₂.platform →
    sourceString s₁ = sourceString s₂ →
    engineStep s₁ = .next t₁ → engineStep s₂ = .next t₂ →
    t₁.errCode = t₂.errCode ∧ t₁.outLen = t₂.outLen ∧ t₁.regs.aux = t₂.regs.aux ∧
    (t₁.errCode = none → ∀ k, k < t₁.outLen.toNat →
      readByte t₁.mem (s₁.latch.dstAddr.toNat + k) = readByte t₂.mem (s₁.latch.dstAddr.toNat + k))

/-- AUX (`10_state.md` rule R38): no command but BWT_FWD writes it, no failure does, and no command
but BWT_INV reads it. -/
def Obligations.OnlyBwtUsesAux : Prop :=
  (∀ (i : Instr) (s t : State), exec i s = .next t → (i ≠ .bwtFwd ∨ t.errCode ≠ none) →
    t.regs.aux = s.regs.aux) ∧
  ∀ (i : Instr) (s t : State) (v : Word), i ≠ .bwtInv → exec i s = .next t →
    exec i { s with latch := { s.latch with aux := v } } =
      .next { t with latch := { t.latch with aux := v } }

/-! ## NOP, run and delta coders, executable-address filter -/

/-- NOP (`30_encoding.md` rule R96). -/
def Obligations.NopCompletes : Prop :=
  (∀ s : State, Memory.wf s.mem = true →
    ∃ t, exec .nop s = .next t ∧ Succeeded s t [] s.regs.aux ∧ t.mem = s.mem ∧
      t.unsynced = s.unsynced ∧ t.abandoned = s.abandoned ∧ t.dirty = s.dirty) ∧
  (∀ w : Word, decode w = .ok .nop ↔ w = 0) ∧ State.reset.regs.cmd = 0 ∧
  ∀ w : Word, ((w.extractLsb' 0 8).toNat = 0x0F ∨ 0x12 ≤ (w.extractLsb' 0 8).toNat) →
    ∃ e, decode w = .error e

/-- RLE_ENC (`44_rle_delta_exe.md` rules R260, R261, R262): the source falls into maximal runs of at
most 255 bytes, each emitted as a triple or literally. -/
def Obligations.RleEncEmitsMaximalRuns : Prop :=
  ∀ s : State, ∃ runs : List (Byte × Nat),
    runs.flatMap (fun p => List.replicate p.2 p.1) = sourceString s ∧
    (∀ p ∈ runs, 1 ≤ p.2 ∧ p.2 ≤ 255) ∧
    runs.IsChain (fun p q => p.1 ≠ q.1 ∨ p.2 = 255) ∧
    let D := runs.flatMap (fun p =>
      if 3 ≤ p.2 ∨ p.1 = 0xFF then [0xFF, BitVec.ofNat 8 p.2, p.1] else List.replicate p.2 p.1)
    (Runnable s D.length → ∃ t, exec .rleEnc s = .next t ∧ Succeeded s t D s.regs.aux)

/-- RLE_DEC (`44_rle_delta_exe.md` rules R263, R264). -/
def Obligations.RleDecExpandsMarkers : Prop :=
  ∀ s : State,
    (∀ D, rleLoop (sourceString s) (sourceString s).length 0 [] = .ok D → Runnable s D.length →
      ∃ t, exec .rleDec s = .next t ∧ Succeeded s t D s.regs.aux) ∧
    (∀ c, rleLoop (sourceString s) (sourceString s).length 0 [] = .error c → Readable s →
      ∃ t, exec .rleDec s = .next t ∧ FailedWith s t c)

/-- DELTA_ENC (`44_rle_delta_exe.md` rules R270, R271). -/
def Obligations.DeltaEncSubtracts : Prop :=
  ∀ s : State, Runnable s s.latch.srcLen.toNat →
    ∃ (E : Bytes) (t : State), exec .deltaEnc s = .next t ∧ Succeeded s t E s.regs.aux ∧
      E.length = (sourceString s).length ∧
      ∀ i, i < E.length → byteIn E i =
        if i < 4 then byteIn (sourceString s) i
        else byteIn (sourceString s) i - byteIn (sourceString s) (i - 4)

/-- DELTA_DEC (`44_rle_delta_exe.md` rules R272, R273). -/
def Obligations.DeltaDecAdds : Prop :=
  ∀ s : State, Runnable s s.latch.srcLen.toNat →
    ∃ (D : Bytes) (t : State), exec .deltaDec s = .next t ∧ Succeeded s t D s.regs.aux ∧
      D.length = (sourceString s).length ∧
      ∀ i, i < D.length → byteIn D i =
        if i < 4 then byteIn (sourceString s) i
        else byteIn (sourceString s) i + byteIn D (i - 4)

/-- EXE_FWD (`44_rle_delta_exe.md` rules R280, R281, R282). -/
def Obligations.ExeFwdRewritesCalls : Prop :=
  ∀ s : State, Runnable s s.latch.srcLen.toNat →
    let D := exeLoop fwdAdd (sourceString s).length 0 (sourceString s)
    ∃ t, exec .exeFwd s = .next t ∧ Succeeded s t D s.regs.aux ∧
      D.length = (sourceString s).length

/-- EXE_INV (`44_rle_delta_exe.md` rules R280, R283, R284). -/
def Obligations.ExeInvRewritesCalls : Prop :=
  ∀ s : State, Runnable s s.latch.srcLen.toNat →
    let D := exeLoop invAdd (sourceString s).length 0 (sourceString s)
    ∃ t, exec .exeInv s = .next t ∧ Succeeded s t D s.regs.aux ∧
      D.length = (sourceString s).length

/-! ## Block sort and move to front -/

/-- MTF_ENC (`43_bwt_mtf.md` rules R238, R239, R240). -/
def Obligations.MtfEncFollowsTheList : Prop :=
  ∀ s : State, Runnable s s.latch.srcLen.toNat →
    ∃ (D : Bytes) (lists : Nat → Bytes) (t : State), exec .mtfEnc s = .next t ∧
      Succeeded s t D s.regs.aux ∧ MtfTrace (sourceString s) D lists

/-- MTF_DEC (`43_bwt_mtf.md` rules R238, R241, R242). -/
def Obligations.MtfDecFollowsTheList : Prop :=
  ∀ s : State, Runnable s s.latch.srcLen.toNat →
    ∃ (D : Bytes) (lists : Nat → Bytes) (t : State), exec .mtfDec s = .next t ∧
      Succeeded s t D s.regs.aux ∧ MtfTrace D (sourceString s) lists

/-- BWT_FWD (`43_bwt_mtf.md` rules R230 to R234): the bytes before the sorted rotations, and AUX the
place of rotation 0 among them. -/
def Obligations.BwtFwdSortsRotations : Prop :=
  ∀ s : State, Runnable s s.latch.srcLen.toNat →
    let S := sourceString s
    ∃ (SA : List Nat) (L : Bytes) (p : Word) (t : State), SortedRotations S SA ∧
      L.length = S.length ∧
      (∀ k, k < S.length → byteIn L k = byteIn S ((SA.getD k 0 + S.length - 1) % S.length)) ∧
      (if S.length = 0 then p = 0 else p.toNat < S.length ∧ SA.getD p.toNat 0 = 0) ∧
      exec .bwtFwd s = .next t ∧ Succeeded s t L p

/-- BWT_INV (`43_bwt_mtf.md` rules R235, R236, R237): the primary index from AUX, checked; the walk
through the stably sorted bytes, reversed. -/
def Obligations.BwtInvWalks : Prop :=
  ∀ s : State,
    let L := sourceString s
    let n := L.length
    let p := s.latch.aux.toNat
    ((if n = 0 then p ≠ 0 else n ≤ p) → Readable s →
      ∃ t, exec .bwtInv s = .next t ∧ FailedWith s t .bwtBadIndex) ∧
    ((if n = 0 then p = 0 else p < n) → Runnable s n →
      ∃ (ord : List Nat) (q : Nat → Nat) (D : Bytes) (t : State), StableByteOrder L ord ∧
        Walk n p ord q ∧ D.length = n ∧
        (∀ j, j < n → byteIn D (n - 1 - j) = byteIn L (q j)) ∧
        exec .bwtInv s = .next t ∧ Succeeded s t D s.regs.aux)

/-! ## Dictionary coder -/

/-- LZ_ENC (`42_lz.md` rules R192 to R200): the token stream of the source, found by searching the
earlier positions with the same hash newest first, serialized. -/
def Obligations.LzEncEmitsTheTokenStream : Prop :=
  ∀ s : State, ∃ T : List LzToken, TokenStream (sourceString s) 0 T ∧
    let D := T.flatMap (fun t => be16 t.dist ++ [BitVec.ofNat 8 t.len, t.lit])
    (Runnable s D.length → ∃ t, exec .lzEnc s = .next t ∧ Succeeded s t D s.regs.aux)

/-- LZ_DEC (`42_lz.md` rules R201, R202, R203). -/
def Obligations.LzDecReplaysTokens : Prop :=
  ∀ s : State,
    let S := sourceString s
    (S.length % 4 ≠ 0 → Readable s →
      ∃ t, exec .lzDec s = .next t ∧ FailedWith s t .lzBadSize) ∧
    (S.length % 4 = 0 →
      (∀ D, replayLoop S (S.length / 4) 0 [] = .ok D → Runnable s D.length →
        ∃ t, exec .lzDec s = .next t ∧ Succeeded s t D s.regs.aux) ∧
      (∀ c, replayLoop S (S.length / 4) 0 [] = .error c → Readable s →
        ∃ t, exec .lzDec s = .next t ∧ FailedWith s t c))

/-- Every token LZ_ENC emits satisfies the token invariant, and the tokens cover exactly the source
(`42_lz.md` rules R191, R198). -/
def Obligations.LzTokensAreSound : Prop :=
  ∀ S : Bytes, ((lzTokens S).map (fun t => t.len + 1)).sum = S.length ∧
    ∀ (pre post : List LzToken) (t : LzToken), lzTokens S = pre ++ t :: post →
      (t.len = 0 → t.dist = 0) ∧
      (0 < t.len → 3 ≤ t.len ∧ t.len ≤ 255 ∧ 1 ≤ t.dist ∧
        t.dist ≤ min 65535 (pre.map (fun u => u.len + 1)).sum)

/-! ## Arithmetic coder -/

/-- AC_ENC (`41_arith_coder.md` rules R141 to R152): the trained counts, the length and the coded
bits; AC_TOO_LARGE when a table total is over the limit; nothing for nothing. -/
def Obligations.AcEncFollowsTheRules : Prop :=
  ∀ s : State,
    let P := sourceString s
    (P = [] → Runnable s 0 → ∃ t, exec .acEnc s = .next t ∧ Succeeded s t [] s.regs.aux) ∧
    (P ≠ [] → SomeTotalOver (trainedCount P) → Readable s →
      ∃ t, exec .acEnc s = .next t ∧ FailedWith s t .acTooLarge) ∧
    (P ≠ [] → ¬ SomeTotalOver (trainedCount P) → Runnable s (acStream P).length →
      ∃ t, exec .acEnc s = .next t ∧ Succeeded s t (acStream P) s.regs.aux)

/-- AC_DEC (`41_arith_coder.md` rules R153 to R159): the header checks in their order, then the
decoded bytes. -/
def Obligations.AcDecFollowsTheRules : Prop :=
  ∀ s : State,
    let S := sourceString s
    let L := rdBe32 S 263168
    let bad := (∃ t k, t < 257 ∧ k < 256 ∧ loadedCount S t k = 0) ∨ SomeTotalOver (loadedCount S)
    (S.length < 263172 → Readable s →
      ∃ t, exec .acDec s = .next t ∧ FailedWith s t .acShortInput) ∧
    (263172 ≤ S.length → bad → Readable s →
      ∃ t, exec .acDec s = .next t ∧ FailedWith s t .acBadModel) ∧
    (263172 ≤ S.length → ¬ bad → L = 0 → Readable s →
      ∃ t, exec .acDec s = .next t ∧ FailedWith s t .acZeroLength) ∧
    (263172 ≤ S.length → ¬ bad → s.platform.maxLen < L → Readable s →
      ∃ t, exec .acDec s = .next t ∧ FailedWith s t .tooLarge) ∧
    (263172 ≤ S.length → ¬ bad → 0 < L → Runnable s L →
      ∃ (D : Bytes) (d : Nat → DecRegs) (t : State), D.length = L ∧
        DecodesTo (loadedCount S) (S.drop 263172) D d ∧
        exec .acDec s = .next t ∧ Succeeded s t D s.regs.aux)

/-- The coder's invariants (`41_arith_coder.md` rule R160) for every usable table; the decoder starts
with `low ≤ value ≤ high` for every bit stream and every symbol keeps it. -/
def Obligations.AcCoderInvariants : Prop :=
  Settled fullInterval ∧
  (∀ B : Bytes, (initDecoder B).interval = fullInterval ∧
    fullInterval.low ≤ (initDecoder B).value ∧ (initDecoder B).value ≤ fullInterval.high) ∧
  (∀ v : Interval, Settled v → 2 ^ 30 < intervalWidth v) ∧
  (∀ v : Interval, v.low ≤ v.high → v.high < 2 ^ 32 → renormCase v ≠ .settled →
    (shiftBounds (renormOffset (renormCase v)) v).low ≤
        (shiftBounds (renormOffset (renormCase v)) v).high ∧
      (shiftBounds (renormOffset (renormCase v)) v).high < 2 ^ 32) ∧
  ∀ (tb : FreqTable) (v : Interval), UsableTable tb → Settled v →
    (∀ s, s < 256 → v.low ≤ (narrow tb s v).low ∧ (narrow tb s v).low ≤ (narrow tb s v).high ∧
      (narrow tb s v).high ≤ v.high) ∧
    (∀ (s : Nat) (e : Encoder), s < 256 → e.interval = v →
      Settled (encodeSym tb s e).interval) ∧
    ∀ d : Decoder, d.interval = v → v.low ≤ d.value → d.value ≤ v.high →
      scaledPos tb d < tableTotal tb ∧ symbolAt tb (scaledPos tb d) < 256 ∧
      Settled (decodeSym tb (symbolAt tb (scaledPos tb d)) d).interval ∧
      (decodeSym tb (symbolAt tb (scaledPos tb d)) d).interval.low ≤
        (decodeSym tb (symbolAt tb (scaledPos tb d)) d).value ∧
      (decodeSym tb (symbolAt tb (scaledPos tb d)) d).value ≤
        (decodeSym tb (symbolAt tb (scaledPos tb d)) d).interval.high

/-- The bit-stream packer (`40_bitstream.md` rules R123, R127). -/
def Obligations.BitPackerRoundTrip : Prop :=
  ∀ bits : List Bool,
    (packBits bits).length = (bits.length + 7) / 8 ∧
    (∀ j, j < bits.length → (byteIn (packBits bits) (j / 8)).getLsbD (7 - j % 8) =
      bits.getD j false) ∧
    ∀ m : Nat, unpackBits (packBits bits) (bits.length + m) =
      bits.map (fun b => if b then 1 else 0) ++ List.replicate m 0

/-! ## Pipelines -/

/-- PIPE_ENC (`45_pipelines.md` rules R300, R301, R307): the encode column of the algorithm, every
stage output within MAX_LEN; nothing for nothing; ILLEGAL_CMD for an unknown ALG. -/
def Obligations.PipeEncComposesStages : Prop :=
  ∀ (s : State) (alg : BitVec 8),
    let r := if sourceString s = [] then .ok []
      else encodeColumn s.platform.maxLen (sourceString s) alg.toNat
    (algKnown alg = true →
      (∀ D, r = .ok D → Runnable s D.length →
        ∃ t, exec (.pipeEnc alg) s = .next t ∧ Succeeded s t D s.regs.aux) ∧
      (∀ c, r = .error c → Readable s →
        ∃ t, exec (.pipeEnc alg) s = .next t ∧ FailedWith s t c)) ∧
    (6 ≤ alg.toNat → ∃ t, exec (.pipeEnc alg) s = .next t ∧ FailedEarly s t .illegalCmd)

/-- PIPE_DEC (`45_pipelines.md` rules R300, R303, R305, R307): the decode column of the algorithm,
every stage output within MAX_LEN; nothing for nothing; UNKNOWN_ALG for an unknown ALG. -/
def Obligations.PipeDecComposesStages : Prop :=
  ∀ (s : State) (alg : BitVec 8),
    let r := if sourceString s = [] then .ok []
      else decodeColumn s.platform.maxLen (sourceString s) alg.toNat
    (algKnown alg = true →
      (∀ D, r = .ok D → Runnable s D.length →
        ∃ t, exec (.pipeDec alg) s = .next t ∧ Succeeded s t D s.regs.aux) ∧
      (∀ c, r = .error c → Readable s →
        ∃ t, exec (.pipeDec alg) s = .next t ∧ FailedWith s t c)) ∧
    (6 ≤ alg.toNat → ∃ t, exec (.pipeDec alg) s = .next t ∧ FailedEarly s t .unknownAlg)

/-- STORE copies in both directions (`45_pipelines.md` rule R304). -/
def Obligations.StoreCopies : Prop :=
  ∀ s : State, Runnable s s.latch.srcLen.toNat →
    (∃ t, exec (.pipeEnc 0) s = .next t ∧ Succeeded s t (sourceString s) s.regs.aux) ∧
    ∃ t, exec (.pipeDec 0) s = .next t ∧ Succeeded s t (sourceString s) s.regs.aux

/-- Pipelines of the empty input (`45_pipelines.md` rule R306). -/
def Obligations.PipelinesOfNothing : Prop :=
  ∀ (s : State) (alg : BitVec 8), algKnown alg = true → s.latch.srcLen = 0 → Runnable s 0 →
    (∃ t, exec (.pipeEnc alg) s = .next t ∧ Succeeded s t [] s.regs.aux) ∧
    ∃ t, exec (.pipeDec alg) s = .next t ∧ Succeeded s t [] s.regs.aux

/-! ## Round trips -/

/-- `44_rle_delta_exe.md` rule R265. -/
def Obligations.RleRoundTrip : Prop := ∀ S : Bytes, rleDecode (rleEncode S) = .ok S

/-- `44_rle_delta_exe.md` rule R274. -/
def Obligations.DeltaRoundTrip : Prop := ∀ S : Bytes, deltaDecode (deltaEncode S) = S

/-- `44_rle_delta_exe.md` rule R285, in both orders. -/
def Obligations.ExeRoundTrip : Prop :=
  ∀ S : Bytes, exeInverse (exeForward S) = S ∧ exeForward (exeInverse S) = S

/-- `43_bwt_mtf.md` rule R243, its first law. -/
def Obligations.MtfRoundTrip : Prop := ∀ S : Bytes, mtfDecode (mtfEncode S) = S

/-- `43_bwt_mtf.md` rule R243, its second law. -/
def Obligations.BwtRoundTrip : Prop :=
  ∀ S : Bytes, bwtInverse (bwtBytes S) (bwtPrimary S) = .ok S

/-- `42_lz.md` rule R204, its first law. -/
def Obligations.LzRoundTrip : Prop := ∀ S : Bytes, lzDecode (lzEncode S) = .ok S

/-- `41_arith_coder.md` rule R162: for every non-empty plaintext with every table total within the
limit, AC_ENC gives a stream and AC_DEC restores the plaintext from it, for every MAX_LEN of
`00_scope.md` rule R10 that the plaintext is within. -/
def Obligations.AcRoundTrip : Prop :=
  ∀ (maxLen : Nat) (S : Bytes), maxLen < 2 ^ 32 → S ≠ [] → S.length ≤ maxLen →
    ¬ SomeTotalOver (trainedCount S) →
    ∃ D, acEncode S = .ok D ∧ acDecode maxLen D = .ok S

/-- `45_pipelines.md` rule R309: what PIPE_ENC makes of any source, the empty one too, PIPE_DEC with
the same algorithm restores. -/
def Obligations.PipelineRoundTrip : Prop :=
  ∀ (maxLen : Nat) (alg : Alg) (S D : Bytes), maxLen < 2 ^ 32 → S.length ≤ maxLen →
    pipeEncode maxLen alg S = .ok D → pipeDecode maxLen alg D = .ok S

end ObligationStatements
end

