-- ==== Sys2Proof/Laws/Memory.lean ====
section
/-! SUPPORT. The laws of memory: what a read returns after a write, that every write keeps the canonical
form, that equal contents are equal data, and what a multi-byte read returns. -/

namespace Sys2Proof.Machine

/-! ## Reading one byte -/

@[simp] theorem readByte_nil (a : Nat) : readByte [] a = unlistedByte := rfl

theorem readByte_cons (k : Nat) (b : Byte) (m : Memory) (a : Nat) :
    readByte ((k, b) :: m) a = if a = k then b else readByte m a := by
  unfold readByte
  by_cases h : a = k
  · subst h; simp [List.lookup]
  · have : (a == k) = false := by simpa using h
    simp [List.lookup, this, h]

theorem readByte_of_absent (m : Memory) (a : Nat) (h : ∀ c ∈ m, c.1 ≠ a) :
    readByte m a = unlistedByte := by
  induction m with
  | nil => rfl
  | cons c m ih =>
    obtain ⟨k, b⟩ := c
    have hk : a ≠ k := fun e => h (k, b) (by simp) e.symm
    rw [readByte_cons, if_neg hk]
    exact ih (fun c hc => h c (by simp [hc]))

/-- Cells with no key `a` in front do not matter to the read at `a`. -/
theorem readByte_append_absent (m m' : Memory) (a : Nat) (h : ∀ c ∈ m, c.1 ≠ a) :
    readByte (m ++ m') a = readByte m' a := by
  induction m with
  | nil => rfl
  | cons c m ih =>
    obtain ⟨k, b⟩ := c
    have hk : a ≠ k := fun e => h (k, b) (by simp) e.symm
    rw [List.cons_append, readByte_cons, if_neg hk]
    exact ih (fun c hc => h c (by simp [hc]))

/-- Cells with no key `a` behind do not matter to the read at `a`. -/
theorem readByte_append_right (m m' : Memory) (a : Nat) (h : ∀ c ∈ m', c.1 ≠ a) :
    readByte (m ++ m') a = readByte m a := by
  induction m with
  | nil => simpa using readByte_of_absent m' a h
  | cons c m ih =>
    obtain ⟨k, b⟩ := c
    rw [List.cons_append, readByte_cons, readByte_cons, ih]

/-- A filter that keeps the cells of `a` keeps the byte read at `a`. -/
theorem readByte_filter (p : Host.Cell → Bool) (m : Memory) (a : Nat)
    (h : ∀ b, p (a, b) = true) : readByte (m.filter p) a = readByte m a := by
  induction m with
  | nil => rfl
  | cons c m ih =>
    obtain ⟨k, b⟩ := c
    by_cases hk : a = k
    · subst hk
      rw [List.filter_cons_of_pos (h b), readByte_cons, readByte_cons, if_pos rfl, if_pos rfl]
    · rw [readByte_cons, if_neg hk]
      by_cases hp : p (k, b) = true
      · rw [List.filter_cons_of_pos hp, readByte_cons, if_neg hk, ih]
      · rw [List.filter_cons_of_neg hp, ih]

/-! ## The cells of a stored string -/

theorem cellsFrom_keys (bs : Bytes) (a : Nat) :
    ∀ c ∈ cellsFrom a bs, a ≤ c.1 ∧ c.1 < a + bs.length ∧ c.2 ≠ unlistedByte := by
  induction bs generalizing a with
  | nil => simp [cellsFrom]
  | cons b bs ih =>
    intro c hc
    unfold cellsFrom at hc
    have step : c ∈ cellsFrom (a + 1) bs → a ≤ c.1 ∧ c.1 < a + (b :: bs).length ∧
        c.2 ≠ unlistedByte := fun h => by
      obtain ⟨h1, h2, h3⟩ := ih (a + 1) c h
      exact ⟨by omega, by simp only [List.length_cons]; omega, h3⟩
    split at hc
    · exact step hc
    · rename_i hb
      rcases List.mem_cons.mp hc with rfl | h
      · exact ⟨Nat.le_refl _, by simp, hb⟩
      · exact step h

/-- The byte that the cells of a stored string give at offset `k`. -/
theorem readByte_cellsFrom (bs : Bytes) (a k : Nat) :
    readByte (cellsFrom a bs) (a + k) = bs.getD k unlistedByte := by
  induction bs generalizing a k with
  | nil => simp [cellsFrom]
  | cons b bs ih =>
    have later : ∀ j, readByte (cellsFrom (a + 1) bs) (a + (j + 1)) = bs.getD j unlistedByte :=
      fun j => by rw [show a + (j + 1) = a + 1 + j by omega]; exact ih (a + 1) j
    have first : readByte (cellsFrom (a + 1) bs) a = unlistedByte :=
      readByte_of_absent _ _ (fun c hc => by have := cellsFrom_keys bs (a + 1) c hc; omega)
    unfold cellsFrom
    split
    · rename_i hb
      cases k with
      | zero => simpa [hb] using first
      | succ j => simpa using later j
    · cases k with
      | zero => simp [readByte_cons]
      | succ j => rw [readByte_cons, if_neg (by omega)]; simpa using later j

/-! ## Reading after a write -/

/-- A read inside the bytes written gives the byte written (`00_scope.md` rule R14). -/
theorem readByte_writeBytes_inside (m : Memory) (a : Nat) (bs : Bytes) (k : Nat)
    (hk : k < bs.length) : readByte (writeBytes m a bs) (a + k) = bs.getD k unlistedByte := by
  unfold writeBytes
  rw [readByte_append_right, readByte_append_absent, readByte_cellsFrom]
  · intro c hc; have := List.of_mem_filter hc; simp at this; omega
  · intro c hc; have := List.of_mem_filter hc; simp at this; omega

/-- A read outside the bytes written gives what it gave before. -/
theorem readByte_writeBytes_outside (m : Memory) (a : Nat) (bs : Bytes) (x : Nat)
    (hx : x < a ∨ a + bs.length ≤ x) : readByte (writeBytes m a bs) x = readByte m x := by
  have hcells : ∀ c ∈ cellsFrom a bs, c.1 ≠ x := fun c hc => by
    have := cellsFrom_keys bs a c hc; omega
  unfold writeBytes
  rcases hx with hx | hx
  · rw [readByte_append_right, readByte_append_right _ _ _ hcells,
      readByte_filter _ _ _ (by simp [hx])]
    intro c hc; have := List.of_mem_filter hc; simp at this; omega
  · rw [readByte_append_absent, readByte_filter _ _ _ (by simp [hx])]
    intro c hc
    rcases List.mem_append.mp hc with h | h
    · have := List.of_mem_filter h; simp at this; omega
    · exact hcells c h

/-! ## The canonical form -/

/-- Rising keys as a pairwise fact. -/
theorem keysRise_iff (m : Memory) : keysRise m = true ↔ m.Pairwise (fun c d => c.1 < d.1) := by
  induction m with
  | nil => simp [keysRise]
  | cons c m ih =>
    cases m with
    | nil => simp [keysRise]
    | cons d m =>
      simp only [keysRise, Bool.and_eq_true, decide_eq_true_eq, ih]
      constructor
      · rintro ⟨hcd, hp⟩
        refine List.pairwise_cons.mpr ⟨fun e he => ?_, hp⟩
        rcases List.mem_cons.mp he with rfl | he
        · exact hcd
        · exact Nat.lt_trans hcd ((List.pairwise_cons.mp hp).1 e he)
      · intro h
        exact ⟨(List.pairwise_cons.mp h).1 d (by simp), (List.pairwise_cons.mp h).2⟩

/-- The canonical form, spelt out. -/
theorem Memory.wf_iff (m : Memory) : Memory.wf m = true ↔
    m.Pairwise (fun c d => c.1 < d.1) ∧ ∀ c ∈ m, c.1 < 2 ^ 32 ∧ c.2 ≠ unlistedByte := by
  simp [Memory.wf, keysRise_iff]

theorem Memory.wf_nil : Memory.wf [] = true := rfl

theorem cellsFrom_pairwise (bs : Bytes) (a : Nat) :
    (cellsFrom a bs).Pairwise (fun c d => c.1 < d.1) := by
  induction bs generalizing a with
  | nil => simp [cellsFrom]
  | cons b bs ih =>
    unfold cellsFrom
    split
    · exact ih (a + 1)
    · refine List.pairwise_cons.mpr ⟨fun c hc => ?_, ih (a + 1)⟩
      have := cellsFrom_keys bs (a + 1) c hc
      show a < c.1
      omega

/-- A write inside the address space keeps the canonical form. -/
theorem writeBytes_wf (m : Memory) (a : Nat) (bs : Bytes) (hm : Memory.wf m = true)
    (ha : a + bs.length ≤ 2 ^ 32) : Memory.wf (writeBytes m a bs) = true := by
  obtain ⟨hp, hv⟩ := (Memory.wf_iff m).mp hm
  refine (Memory.wf_iff _).mpr ⟨?_, ?_⟩
  · unfold writeBytes
    refine List.pairwise_append.mpr ⟨List.pairwise_append.mpr
      ⟨hp.filter _, cellsFrom_pairwise bs a, ?_⟩, hp.filter _, ?_⟩
    · intro c hc d hd
      have h1 := List.of_mem_filter hc
      have h2 := cellsFrom_keys bs a d hd
      simp at h1; omega
    · intro c hc d hd
      have h2 := List.of_mem_filter hd
      simp at h2
      rcases List.mem_append.mp hc with h | h
      · have h1 := List.of_mem_filter h
        simp at h1; omega
      · have h1 := cellsFrom_keys bs a c h
        omega
  · intro c hc
    unfold writeBytes at hc
    rcases List.mem_append.mp hc with hc | hc
    · rcases List.mem_append.mp hc with hc | hc
      · exact hv c (List.mem_of_mem_filter hc)
      · have := cellsFrom_keys bs a c hc
        exact ⟨by omega, this.2.2⟩
    · exact hv c (List.mem_of_mem_filter hc)

/-- Writing nothing changes nothing. -/
theorem writeBytes_nil (m : Memory) (a : Nat) (hm : Memory.wf m = true) :
    writeBytes m a [] = m := by
  obtain ⟨hp, -⟩ := (Memory.wf_iff m).mp hm
  induction m with
  | nil => rfl
  | cons c m ih =>
    obtain ⟨hc, hp'⟩ := List.pairwise_cons.mp hp
    have hm' : Memory.wf m = true := (Memory.wf_iff m).mpr
      ⟨hp', fun d hd => ((Memory.wf_iff _).mp hm).2 d (by simp [hd])⟩
    have ih' := ih hm' hp'
    simp only [writeBytes, cellsFrom, List.length_nil, Nat.add_zero, List.append_nil] at ih' ⊢
    by_cases h : c.1 < a
    · rw [List.filter_cons_of_pos (by simpa using h),
        List.filter_cons_of_neg (by simpa using h), List.cons_append, ih']
    · have hlow : m.filter (fun d => decide (d.1 < a)) = [] := by
        refine List.filter_eq_nil_iff.mpr (fun d hd => ?_)
        have := hc d hd
        simp; omega
      have hhigh : m.filter (fun d => decide (a ≤ d.1)) = m := by
        refine List.filter_eq_self.mpr (fun d hd => ?_)
        have := hc d hd
        simp; omega
      rw [List.filter_cons_of_neg (by simpa using h),
        List.filter_cons_of_pos (by simpa using h), hlow, hhigh, List.nil_append]

/-- Two canonical memories that read alike everywhere are the same list. -/
theorem Memory.eq_of_reads (m m' : Memory) (h : Memory.wf m = true) (h' : Memory.wf m' = true)
    (hr : ∀ a, readByte m a = readByte m' a) : m = m' := by
  induction m generalizing m' with
  | nil =>
    cases m' with
    | nil => rfl
    | cons c' m' =>
      obtain ⟨k, b⟩ := c'
      have := hr k
      rw [readByte_cons, if_pos rfl, readByte_nil] at this
      exact absurd this.symm (((Memory.wf_iff _).mp h').2 (k, b) (by simp)).2
  | cons c m ih =>
    obtain ⟨k, b⟩ := c
    obtain ⟨hp, hv⟩ := (Memory.wf_iff _).mp h
    obtain ⟨hlt, hp2⟩ := List.pairwise_cons.mp hp
    have hb : b ≠ unlistedByte := (hv (k, b) (by simp)).2
    have habs : ∀ a, a ≤ k → readByte m a = unlistedByte := fun a ha =>
      readByte_of_absent m a (fun d hd => by have := hlt d hd; simp at this; omega)
    cases m' with
    | nil =>
      have := hr k
      rw [readByte_cons, if_pos rfl, readByte_nil] at this
      exact absurd this hb
    | cons c' m' =>
      obtain ⟨k', b'⟩ := c'
      obtain ⟨hp', hv'⟩ := (Memory.wf_iff _).mp h'
      obtain ⟨hlt', hp2'⟩ := List.pairwise_cons.mp hp'
      have hb' : b' ≠ unlistedByte := (hv' (k', b') (by simp)).2
      have habs' : ∀ a, a ≤ k' → readByte m' a = unlistedByte := fun a ha =>
        readByte_of_absent m' a (fun d hd => by have := hlt' d hd; simp at this; omega)
      have hkk : k = k' := by
        rcases Nat.lt_trichotomy k k' with hlt1 | heq | hgt
        · have := hr k
          rw [readByte_cons, if_pos rfl, readByte_cons, if_neg (by omega), habs' k (by omega)] at this
          exact absurd this hb
        · exact heq
        · have := hr k'
          rw [readByte_cons, if_neg (by omega), readByte_cons, if_pos rfl, habs k' (by omega)] at this
          exact absurd this.symm hb'
      subst hkk
      have hbb : b = b' := by
        have := hr k
        rwa [readByte_cons, if_pos rfl, readByte_cons, if_pos rfl] at this
      subst hbb
      have hm : Memory.wf m = true :=
        (Memory.wf_iff m).mpr ⟨hp2, fun d hd => hv d (by simp [hd])⟩
      have hm' : Memory.wf m' = true :=
        (Memory.wf_iff m').mpr ⟨hp2', fun d hd => hv' d (by simp [hd])⟩
      have tails : ∀ a, readByte m a = readByte m' a := fun a => by
        by_cases ha : a = k
        · subst ha; rw [habs a (Nat.le_refl _), habs' a (Nat.le_refl _)]
        · have := hr a
          rwa [readByte_cons, if_neg ha, readByte_cons, if_neg ha] at this
      rw [ih m' hm hm' tails]

/-! ## Reading a string -/

theorem length_readFrom (m : Memory) (a n : Nat) : (readFrom m a n).length = n := by
  induction n generalizing m a with
  | zero => cases m <;> rfl
  | succ n ih =>
    cases m with
    | nil => simp [readFrom]
    | cons c m =>
      unfold readFrom
      split <;> simp [ih]

@[simp] theorem length_readBytes (m : Memory) (a n : Nat) : (readBytes m a n).length = n :=
  length_readFrom _ a n

@[simp] theorem length_freeBytes (k n : Nat) : (freeBytes k n).length = n := by
  simp [freeBytes]

/-- Walking down cells with rising keys from `a` on gives the bytes read one by one. -/
theorem readFrom_eq (m : Memory) (a n : Nat) (hp : m.Pairwise (fun c d => c.1 < d.1))
    (ha : ∀ c ∈ m, a ≤ c.1) :
    readFrom m a n = (List.range n).map (fun k => readByte m (a + k)) := by
  induction n generalizing m a with
  | zero => cases m <;> rfl
  | succ n ih =>
    rw [List.range_succ_eq_map, List.map_cons, List.map_map]
    cases m with
    | nil =>
      simp only [readFrom, readByte_nil, List.replicate_succ, List.cons.injEq, true_and]
      exact (List.eq_replicate_iff.mpr ⟨by simp, by simp⟩).symm
    | cons c m =>
      obtain ⟨k, b⟩ := c
      obtain ⟨hlt, hp'⟩ := List.pairwise_cons.mp hp
      unfold readFrom
      by_cases hk : k = a
      · subst hk
        rw [if_pos rfl, ih m (k + 1) hp' (fun d hd => hlt d hd), Nat.add_zero k, readByte_cons,
          if_pos rfl]
        refine congrArg _ (List.map_congr_left (fun j _ => ?_))
        show readByte m (k + 1 + j) = readByte ((k, b) :: m) (k + (j + 1))
        rw [readByte_cons, if_neg (by omega)]
        congr 1; omega
      · have hka : a < k := by have := ha (k, b) (by simp); simp at this; omega
        rw [if_neg hk, ih ((k, b) :: m) (a + 1) hp ?_]
        · rw [Nat.add_zero a, readByte_of_absent]
          · refine congrArg _ (List.map_congr_left (fun j _ => ?_))
            show readByte ((k, b) :: m) (a + 1 + j) = readByte ((k, b) :: m) (a + (j + 1))
            congr 1; omega
          · intro d hd
            rcases List.mem_cons.mp hd with rfl | hd
            · exact hk
            · have := hlt d hd; simp at this; omega
        · intro d hd
          rcases List.mem_cons.mp hd with rfl | hd
          · exact hka
          · have := hlt d hd; simp at this; omega

/-- `MemRead` of a canonical memory is its bytes read one by one (`00_scope.md` rule R14). -/
theorem readBytes_eq (m : Memory) (a n : Nat) (hm : Memory.wf m = true) :
    readBytes m a n = (List.range n).map (fun k => readByte m (a + k)) := by
  obtain ⟨hp, -⟩ := (Memory.wf_iff m).mp hm
  unfold readBytes
  rw [readFrom_eq _ a n (hp.filter _)]
  · exact List.map_congr_left (fun k _ => readByte_filter _ _ _ (by simp))
  · intro c hc
    simpa using List.of_mem_filter hc

end Sys2Proof.Machine
end

