-- ==== Sys2Proof/Laws/Ranges.lean ====
section
/-! SUPPORT. The laws of address ranges and of the checks made with them. -/

namespace Sys2Proof.Machine

theorem inRange_iff (r : Range) (a : Nat) :
    inRange r a = true ↔ r.base ≤ a ∧ a < r.base + r.size := by
  simp [inRange]

/-- Two ranges meet exactly when they share an address (`20_memory.md` rule R77). -/
theorem rangesMeet_iff (r q : Range) :
    rangesMeet r q = true ↔ ∃ a, inRange r a = true ∧ inRange q a = true := by
  simp only [rangesMeet, Bool.and_eq_true, decide_eq_true_eq, inRange_iff]
  constructor
  · rintro ⟨⟨⟨h1, h2⟩, h3⟩, h4⟩
    exact ⟨max r.base q.base, by omega⟩
  · rintro ⟨a, h⟩
    omega

theorem rangeInter_iff (r q : Range) (a : Nat) :
    inRange (rangeInter r q) a = true ↔ inRange r a = true ∧ inRange q a = true := by
  simp only [inRange_iff, rangeInter]
  omega

theorem inRanges_iff (rs : List Range) (a : Nat) :
    inRanges rs a = true ↔ ∃ r ∈ rs, inRange r a = true := by
  simp [inRanges]

theorem rangeMinus_iff (r q : Range) (a : Nat) :
    inRanges (rangeMinus r q) a = true ↔ inRange r a = true ∧ inRange q a = false := by
  unfold rangeMinus
  split
  · rename_i h
    simp only [rangesMeet, Bool.and_eq_true, decide_eq_true_eq] at h
    rw [Bool.eq_false_iff, ne_eq, inRange_iff, inRange_iff, inRanges_iff]
    simp only [List.mem_filter, List.mem_cons, List.not_mem_nil, or_false, decide_eq_true_eq]
    constructor
    · rintro ⟨p, ⟨rfl | rfl, hp⟩, ha⟩ <;> rw [inRange_iff] at ha <;> simp at ha hp <;> omega
    · rintro ⟨h1, h2⟩
      by_cases hl : a < q.base
      · refine ⟨_, ⟨Or.inl rfl, ?_⟩, (inRange_iff _ _).mpr ?_⟩ <;> simp <;> omega
      · refine ⟨_, ⟨Or.inr rfl, ?_⟩, (inRange_iff _ _).mpr ?_⟩ <;> simp <;> omega
  · rename_i h
    rw [inRanges_iff]
    constructor
    · rintro ⟨p, hp, ha⟩
      obtain rfl : p = r := by simpa using hp
      refine ⟨ha, ?_⟩
      by_contra hq
      exact h ((rangesMeet_iff p q).mpr ⟨a, ha, by simpa using hq⟩)
    · rintro ⟨ha, -⟩
      exact ⟨r, by simp, ha⟩

theorem rangesMinus_iff (rs : List Range) (q : Range) (a : Nat) :
    inRanges (rangesMinus rs q) a = true ↔ inRanges rs a = true ∧ inRange q a = false := by
  simp only [rangesMinus, inRanges_iff, List.mem_flatMap]
  constructor
  · rintro ⟨p, ⟨r, hr, hp⟩, ha⟩
    have := (rangeMinus_iff r q a).mp ((inRanges_iff _ _).mpr ⟨p, hp, ha⟩)
    exact ⟨⟨r, hr, this.1⟩, this.2⟩
  · rintro ⟨⟨r, hr, ha⟩, hq⟩
    obtain ⟨p, hp, hpa⟩ := (inRanges_iff _ _).mp ((rangeMinus_iff r q a).mpr ⟨ha, hq⟩)
    exact ⟨p, ⟨r, hr, hp⟩, hpa⟩

theorem addRange_iff (rs : List Range) (q : Range) (a : Nat) :
    inRanges (addRange rs q) a = true ↔ inRanges rs a = true ∨ inRange q a = true := by
  unfold addRange
  split
  · rename_i h
    have : inRange q a = false := by
      rw [Bool.eq_false_iff, ne_eq, inRange_iff, h]; omega
    simp [this]
  · simp [inRanges]

/-- MemOK holds on a range exactly when it holds at each of its addresses
(`20_memory.md` rule R66). -/
theorem memOk_iff (p : Platform) (r : Range) :
    memOk p r = true ↔ ∀ a, inRange r a = true → inRanges p.busErrors a = false := by
  simp only [memOk, Bool.not_eq_true', meetsAny, List.any_eq_false, inRanges]
  constructor
  · intro h a ha e he hea
    exact h e he ((rangesMeet_iff e r).mpr ⟨a, hea, ha⟩)
  · intro h e he hm
    obtain ⟨a, hea, ha⟩ := (rangesMeet_iff e r).mp hm
    exact h a ha e he hea

/-- Any predicate MemOK on the addresses is some platform's (`00_scope.md` rule R10). -/
theorem every_memOk_is_a_platform (ok : Nat → Bool) :
    ∃ bad : List Range, ∀ a, a < 2 ^ 32 → (inRanges bad a = false ↔ ok a = true) := by
  refine ⟨((List.range (2 ^ 32)).filter (fun a => !ok a)).map (fun a => ⟨a, 1⟩), fun a ha => ?_⟩
  rw [Bool.eq_false_iff, ne_eq, inRanges_iff]
  constructor
  · intro h
    by_contra hok
    refine h ⟨⟨a, 1⟩, List.mem_map.mpr ⟨a, List.mem_filter.mpr ⟨List.mem_range.mpr ha, ?_⟩, rfl⟩,
      (inRange_iff _ _).mpr ⟨Nat.le_refl _, Nat.lt_succ_self _⟩⟩
    simpa using hok
  · rintro hok ⟨r, hr, hra⟩
    obtain ⟨b, hb, rfl⟩ := List.mem_map.mp hr
    have hbad := (List.mem_filter.mp hb).2
    have heq : b = a := by rw [inRange_iff] at hra; simp only at hra; omega
    subst heq
    simp [hok] at hbad

/-- What passing steps 2 and 3 of `60_exceptions.md` rule R320 means. -/
theorem preflight_none_iff (p : Platform) (o : Operands) :
    preflight p o = none ↔
      o.srcAddr.toNat + o.srcLen.toNat ≤ 2 ^ 32 ∧ o.dstAddr.toNat + o.dstCap.toNat ≤ 2 ^ 32 ∧
        rangesMeet o.src o.dst = false ∧ o.srcLen.toNat ≤ p.maxLen := by
  unfold preflight wraps Operands.src Operands.dst addrSpace
  split
  · rename_i h
    simp only [Bool.or_eq_true, decide_eq_true_eq] at h
    simp only [reduceCtorEq, false_iff]
    omega
  · rename_i h
    simp only [Bool.or_eq_true, decide_eq_true_eq] at h
    split
    · rename_i h2
      simp only [reduceCtorEq, false_iff]
      rintro ⟨-, -, h3, -⟩
      rw [h2] at h3
      exact absurd h3 (by decide)
    · rename_i h2
      split
      · simp only [reduceCtorEq, false_iff]
        omega
      · simp only [true_iff]
        exact ⟨by omega, by omega, by simpa using h2, by omega⟩

end Sys2Proof.Machine
end

