-- ==== Sys2Proof/Laws/State.lean ====
section
/-! SUPPORT. What each update of the state does to each field, so that no proof unfolds a record update. -/

namespace Sys2Proof.Machine


/-! ## noteEngineWrite -/


@[simp] theorem noteEngineWrite_irqEn (r : Range) (s : State) :
    (noteEngineWrite r s).irqEn = s.irqEn := rfl

@[simp] theorem noteEngineWrite_busy (r : Range) (s : State) :
    (noteEngineWrite r s).busy = s.busy := rfl

@[simp] theorem noteEngineWrite_done (r : Range) (s : State) :
    (noteEngineWrite r s).done = s.done := rfl

@[simp] theorem noteEngineWrite_errCode (r : Range) (s : State) :
    (noteEngineWrite r s).errCode = s.errCode := rfl

@[simp] theorem noteEngineWrite_regs (r : Range) (s : State) :
    (noteEngineWrite r s).regs = s.regs := rfl

@[simp] theorem noteEngineWrite_latch (r : Range) (s : State) :
    (noteEngineWrite r s).latch = s.latch := rfl

@[simp] theorem noteEngineWrite_outLen (r : Range) (s : State) :
    (noteEngineWrite r s).outLen = s.outLen := rfl

@[simp] theorem noteEngineWrite_mem (r : Range) (s : State) :
    (noteEngineWrite r s).mem = s.mem := rfl

@[simp] theorem noteEngineWrite_platform (r : Range) (s : State) :
    (noteEngineWrite r s).platform = s.platform := rfl

@[simp] theorem noteEngineWrite_inputs (r : Range) (s : State) :
    (noteEngineWrite r s).inputs = s.inputs := rfl

@[simp] theorem noteEngineWrite_turns (r : Range) (s : State) :
    (noteEngineWrite r s).turns = s.turns := rfl

@[simp] theorem noteEngineWrite_observed (r : Range) (s : State) :
    (noteEngineWrite r s).observed = s.observed := rfl

@[simp] theorem noteEngineWrite_unsynced (r : Range) (s : State) :
    (noteEngineWrite r s).unsynced = addRange s.unsynced r := rfl

@[simp] theorem noteEngineWrite_abandoned (r : Range) (s : State) :
    (noteEngineWrite r s).abandoned = rangesMinus s.abandoned r := rfl

@[simp] theorem noteEngineWrite_stale (r : Range) (s : State) :
    (noteEngineWrite r s).stale = s.stale := rfl

@[simp] theorem noteEngineWrite_dirty (r : Range) (s : State) :
    (noteEngineWrite r s).dirty = rangesMinus s.dirty r := rfl

@[simp] theorem noteEngineWrite_draws (r : Range) (s : State) :
    (noteEngineWrite r s).draws = s.draws := rfl


/-! ## noteAbandonedWrite -/


@[simp] theorem noteAbandonedWrite_irqEn (r : Range) (s : State) :
    (noteAbandonedWrite r s).irqEn = s.irqEn := rfl

@[simp] theorem noteAbandonedWrite_busy (r : Range) (s : State) :
    (noteAbandonedWrite r s).busy = s.busy := rfl

@[simp] theorem noteAbandonedWrite_done (r : Range) (s : State) :
    (noteAbandonedWrite r s).done = s.done := rfl

@[simp] theorem noteAbandonedWrite_errCode (r : Range) (s : State) :
    (noteAbandonedWrite r s).errCode = s.errCode := rfl

@[simp] theorem noteAbandonedWrite_regs (r : Range) (s : State) :
    (noteAbandonedWrite r s).regs = s.regs := rfl

@[simp] theorem noteAbandonedWrite_latch (r : Range) (s : State) :
    (noteAbandonedWrite r s).latch = s.latch := rfl

@[simp] theorem noteAbandonedWrite_outLen (r : Range) (s : State) :
    (noteAbandonedWrite r s).outLen = s.outLen := rfl

@[simp] theorem noteAbandonedWrite_mem (r : Range) (s : State) :
    (noteAbandonedWrite r s).mem = s.mem := rfl

@[simp] theorem noteAbandonedWrite_platform (r : Range) (s : State) :
    (noteAbandonedWrite r s).platform = s.platform := rfl

@[simp] theorem noteAbandonedWrite_inputs (r : Range) (s : State) :
    (noteAbandonedWrite r s).inputs = s.inputs := rfl

@[simp] theorem noteAbandonedWrite_turns (r : Range) (s : State) :
    (noteAbandonedWrite r s).turns = s.turns := rfl

@[simp] theorem noteAbandonedWrite_observed (r : Range) (s : State) :
    (noteAbandonedWrite r s).observed = s.observed := rfl

@[simp] theorem noteAbandonedWrite_unsynced (r : Range) (s : State) :
    (noteAbandonedWrite r s).unsynced = s.unsynced := rfl

@[simp] theorem noteAbandonedWrite_abandoned (r : Range) (s : State) :
    (noteAbandonedWrite r s).abandoned = addRange s.abandoned r := rfl

@[simp] theorem noteAbandonedWrite_stale (r : Range) (s : State) :
    (noteAbandonedWrite r s).stale = s.stale := rfl

@[simp] theorem noteAbandonedWrite_dirty (r : Range) (s : State) :
    (noteAbandonedWrite r s).dirty = rangesMinus s.dirty r := rfl

@[simp] theorem noteAbandonedWrite_draws (r : Range) (s : State) :
    (noteAbandonedWrite r s).draws = s.draws := rfl


/-! ## spoilRange -/


@[simp] theorem spoilRange_irqEn (s : State) (r : Range) :
    (spoilRange s r).irqEn = s.irqEn := rfl

@[simp] theorem spoilRange_busy (s : State) (r : Range) :
    (spoilRange s r).busy = s.busy := rfl

@[simp] theorem spoilRange_done (s : State) (r : Range) :
    (spoilRange s r).done = s.done := rfl

@[simp] theorem spoilRange_errCode (s : State) (r : Range) :
    (spoilRange s r).errCode = s.errCode := rfl

@[simp] theorem spoilRange_regs (s : State) (r : Range) :
    (spoilRange s r).regs = s.regs := rfl

@[simp] theorem spoilRange_latch (s : State) (r : Range) :
    (spoilRange s r).latch = s.latch := rfl

@[simp] theorem spoilRange_outLen (s : State) (r : Range) :
    (spoilRange s r).outLen = s.outLen := rfl

@[simp] theorem spoilRange_mem (s : State) (r : Range) :
    (spoilRange s r).mem = writeBytes s.mem r.base (freeBytes s.draws r.size) := rfl

@[simp] theorem spoilRange_platform (s : State) (r : Range) :
    (spoilRange s r).platform = s.platform := rfl

@[simp] theorem spoilRange_inputs (s : State) (r : Range) :
    (spoilRange s r).inputs = s.inputs := rfl

@[simp] theorem spoilRange_turns (s : State) (r : Range) :
    (spoilRange s r).turns = s.turns := rfl

@[simp] theorem spoilRange_observed (s : State) (r : Range) :
    (spoilRange s r).observed = s.observed := rfl

@[simp] theorem spoilRange_unsynced (s : State) (r : Range) :
    (spoilRange s r).unsynced = s.unsynced := rfl

@[simp] theorem spoilRange_abandoned (s : State) (r : Range) :
    (spoilRange s r).abandoned = s.abandoned := rfl

@[simp] theorem spoilRange_stale (s : State) (r : Range) :
    (spoilRange s r).stale = s.stale := rfl

@[simp] theorem spoilRange_dirty (s : State) (r : Range) :
    (spoilRange s r).dirty = s.dirty := rfl

@[simp] theorem spoilRange_draws (s : State) (r : Range) :
    (spoilRange s r).draws = s.draws + r.size := rfl


/-! ## spoilDst -/


@[simp] theorem spoilDst_irqEn (s : State) :
    (spoilDst s).irqEn = s.irqEn := rfl

@[simp] theorem spoilDst_busy (s : State) :
    (spoilDst s).busy = s.busy := rfl

@[simp] theorem spoilDst_done (s : State) :
    (spoilDst s).done = s.done := rfl

@[simp] theorem spoilDst_errCode (s : State) :
    (spoilDst s).errCode = s.errCode := rfl

@[simp] theorem spoilDst_regs (s : State) :
    (spoilDst s).regs = s.regs := rfl

@[simp] theorem spoilDst_latch (s : State) :
    (spoilDst s).latch = s.latch := rfl

@[simp] theorem spoilDst_outLen (s : State) :
    (spoilDst s).outLen = s.outLen := rfl

@[simp] theorem spoilDst_mem (s : State) :
    (spoilDst s).mem = writeBytes s.mem s.latch.dstAddr.toNat (freeBytes s.draws s.latch.dstCap.toNat) := rfl

@[simp] theorem spoilDst_platform (s : State) :
    (spoilDst s).platform = s.platform := rfl

@[simp] theorem spoilDst_inputs (s : State) :
    (spoilDst s).inputs = s.inputs := rfl

@[simp] theorem spoilDst_turns (s : State) :
    (spoilDst s).turns = s.turns := rfl

@[simp] theorem spoilDst_observed (s : State) :
    (spoilDst s).observed = s.observed := rfl

@[simp] theorem spoilDst_unsynced (s : State) :
    (spoilDst s).unsynced = addRange s.unsynced s.latch.dst := rfl

@[simp] theorem spoilDst_abandoned (s : State) :
    (spoilDst s).abandoned = rangesMinus s.abandoned s.latch.dst := rfl

@[simp] theorem spoilDst_stale (s : State) :
    (spoilDst s).stale = s.stale := rfl

@[simp] theorem spoilDst_dirty (s : State) :
    (spoilDst s).dirty = rangesMinus s.dirty s.latch.dst := rfl

@[simp] theorem spoilDst_draws (s : State) :
    (spoilDst s).draws = s.draws + s.latch.dstCap.toNat := rfl


/-! ## storeDst -/


@[simp] theorem storeDst_irqEn (D : Bytes) (s : State) :
    (storeDst D s).irqEn = s.irqEn := rfl

@[simp] theorem storeDst_busy (D : Bytes) (s : State) :
    (storeDst D s).busy = s.busy := rfl

@[simp] theorem storeDst_done (D : Bytes) (s : State) :
    (storeDst D s).done = s.done := rfl

@[simp] theorem storeDst_errCode (D : Bytes) (s : State) :
    (storeDst D s).errCode = s.errCode := rfl

@[simp] theorem storeDst_regs (D : Bytes) (s : State) :
    (storeDst D s).regs = s.regs := rfl

@[simp] theorem storeDst_latch (D : Bytes) (s : State) :
    (storeDst D s).latch = s.latch := rfl

@[simp] theorem storeDst_outLen (D : Bytes) (s : State) :
    (storeDst D s).outLen = s.outLen := rfl

@[simp] theorem storeDst_mem (D : Bytes) (s : State) :
    (storeDst D s).mem = writeBytes s.mem s.latch.dstAddr.toNat D := rfl

@[simp] theorem storeDst_platform (D : Bytes) (s : State) :
    (storeDst D s).platform = s.platform := rfl

@[simp] theorem storeDst_inputs (D : Bytes) (s : State) :
    (storeDst D s).inputs = s.inputs := rfl

@[simp] theorem storeDst_turns (D : Bytes) (s : State) :
    (storeDst D s).turns = s.turns := rfl

@[simp] theorem storeDst_observed (D : Bytes) (s : State) :
    (storeDst D s).observed = s.observed := rfl

@[simp] theorem storeDst_unsynced (D : Bytes) (s : State) :
    (storeDst D s).unsynced = addRange s.unsynced ⟨s.latch.dstAddr.toNat, D.length⟩ := rfl

@[simp] theorem storeDst_abandoned (D : Bytes) (s : State) :
    (storeDst D s).abandoned = rangesMinus s.abandoned ⟨s.latch.dstAddr.toNat, D.length⟩ := rfl

@[simp] theorem storeDst_stale (D : Bytes) (s : State) :
    (storeDst D s).stale = s.stale := rfl

@[simp] theorem storeDst_dirty (D : Bytes) (s : State) :
    (storeDst D s).dirty = rangesMinus s.dirty ⟨s.latch.dstAddr.toNat, D.length⟩ := rfl

@[simp] theorem storeDst_draws (D : Bytes) (s : State) :
    (storeDst D s).draws = s.draws := rfl


/-! ## complete, success -/


@[simp] theorem complete_ok_irqEn (D : Bytes) (aux : Option Word) (s : State) :
    (complete (.ok D aux) s).irqEn = s.irqEn := rfl

@[simp] theorem complete_ok_busy (D : Bytes) (aux : Option Word) (s : State) :
    (complete (.ok D aux) s).busy = false := rfl

@[simp] theorem complete_ok_done (D : Bytes) (aux : Option Word) (s : State) :
    (complete (.ok D aux) s).done = true := rfl

@[simp] theorem complete_ok_errCode (D : Bytes) (aux : Option Word) (s : State) :
    (complete (.ok D aux) s).errCode = none := rfl

@[simp] theorem complete_ok_regs (D : Bytes) (aux : Option Word) (s : State) :
    (complete (.ok D aux) s).regs = { s.regs with aux := auxAfter s.regs.aux aux } := rfl

@[simp] theorem complete_ok_latch (D : Bytes) (aux : Option Word) (s : State) :
    (complete (.ok D aux) s).latch = s.latch := rfl

@[simp] theorem complete_ok_outLen (D : Bytes) (aux : Option Word) (s : State) :
    (complete (.ok D aux) s).outLen = BitVec.ofNat 32 D.length := rfl

@[simp] theorem complete_ok_mem (D : Bytes) (aux : Option Word) (s : State) :
    (complete (.ok D aux) s).mem = writeBytes s.mem s.latch.dstAddr.toNat D := rfl

@[simp] theorem complete_ok_platform (D : Bytes) (aux : Option Word) (s : State) :
    (complete (.ok D aux) s).platform = s.platform := rfl

@[simp] theorem complete_ok_inputs (D : Bytes) (aux : Option Word) (s : State) :
    (complete (.ok D aux) s).inputs = s.inputs := rfl

@[simp] theorem complete_ok_turns (D : Bytes) (aux : Option Word) (s : State) :
    (complete (.ok D aux) s).turns = s.turns := rfl

@[simp] theorem complete_ok_observed (D : Bytes) (aux : Option Word) (s : State) :
    (complete (.ok D aux) s).observed = s.observed := rfl

@[simp] theorem complete_ok_unsynced (D : Bytes) (aux : Option Word) (s : State) :
    (complete (.ok D aux) s).unsynced = (storeDst D s).unsynced := rfl

@[simp] theorem complete_ok_abandoned (D : Bytes) (aux : Option Word) (s : State) :
    (complete (.ok D aux) s).abandoned = (storeDst D s).abandoned := rfl

@[simp] theorem complete_ok_stale (D : Bytes) (aux : Option Word) (s : State) :
    (complete (.ok D aux) s).stale = s.stale := rfl

@[simp] theorem complete_ok_dirty (D : Bytes) (aux : Option Word) (s : State) :
    (complete (.ok D aux) s).dirty = (storeDst D s).dirty := rfl

@[simp] theorem complete_ok_draws (D : Bytes) (aux : Option Word) (s : State) :
    (complete (.ok D aux) s).draws = s.draws := rfl


/-! ## complete, failure in steps 1 to 3 -/


@[simp] theorem complete_fail_early_irqEn (c : ErrCode) (s : State) :
    (complete (.fail c false) s).irqEn = s.irqEn := rfl

@[simp] theorem complete_fail_early_busy (c : ErrCode) (s : State) :
    (complete (.fail c false) s).busy = false := rfl

@[simp] theorem complete_fail_early_done (c : ErrCode) (s : State) :
    (complete (.fail c false) s).done = true := rfl

@[simp] theorem complete_fail_early_errCode (c : ErrCode) (s : State) :
    (complete (.fail c false) s).errCode = some c := rfl

@[simp] theorem complete_fail_early_regs (c : ErrCode) (s : State) :
    (complete (.fail c false) s).regs = s.regs := rfl

@[simp] theorem complete_fail_early_latch (c : ErrCode) (s : State) :
    (complete (.fail c false) s).latch = s.latch := rfl

@[simp] theorem complete_fail_early_outLen (c : ErrCode) (s : State) :
    (complete (.fail c false) s).outLen = 0 := rfl

@[simp] theorem complete_fail_early_mem (c : ErrCode) (s : State) :
    (complete (.fail c false) s).mem = s.mem := rfl

@[simp] theorem complete_fail_early_platform (c : ErrCode) (s : State) :
    (complete (.fail c false) s).platform = s.platform := rfl

@[simp] theorem complete_fail_early_inputs (c : ErrCode) (s : State) :
    (complete (.fail c false) s).inputs = s.inputs := rfl

@[simp] theorem complete_fail_early_turns (c : ErrCode) (s : State) :
    (complete (.fail c false) s).turns = s.turns := rfl

@[simp] theorem complete_fail_early_observed (c : ErrCode) (s : State) :
    (complete (.fail c false) s).observed = s.observed := rfl

@[simp] theorem complete_fail_early_unsynced (c : ErrCode) (s : State) :
    (complete (.fail c false) s).unsynced = s.unsynced := rfl

@[simp] theorem complete_fail_early_abandoned (c : ErrCode) (s : State) :
    (complete (.fail c false) s).abandoned = s.abandoned := rfl

@[simp] theorem complete_fail_early_stale (c : ErrCode) (s : State) :
    (complete (.fail c false) s).stale = s.stale := rfl

@[simp] theorem complete_fail_early_dirty (c : ErrCode) (s : State) :
    (complete (.fail c false) s).dirty = s.dirty := rfl

@[simp] theorem complete_fail_early_draws (c : ErrCode) (s : State) :
    (complete (.fail c false) s).draws = s.draws := rfl


/-! ## complete, failure in steps 4 to 7 -/


@[simp] theorem complete_fail_late_irqEn (c : ErrCode) (s : State) :
    (complete (.fail c true) s).irqEn = s.irqEn := rfl

@[simp] theorem complete_fail_late_busy (c : ErrCode) (s : State) :
    (complete (.fail c true) s).busy = false := rfl

@[simp] theorem complete_fail_late_done (c : ErrCode) (s : State) :
    (complete (.fail c true) s).done = true := rfl

@[simp] theorem complete_fail_late_errCode (c : ErrCode) (s : State) :
    (complete (.fail c true) s).errCode = some c := rfl

@[simp] theorem complete_fail_late_regs (c : ErrCode) (s : State) :
    (complete (.fail c true) s).regs = s.regs := rfl

@[simp] theorem complete_fail_late_latch (c : ErrCode) (s : State) :
    (complete (.fail c true) s).latch = s.latch := rfl

@[simp] theorem complete_fail_late_outLen (c : ErrCode) (s : State) :
    (complete (.fail c true) s).outLen = 0 := rfl

@[simp] theorem complete_fail_late_mem (c : ErrCode) (s : State) :
    (complete (.fail c true) s).mem = (spoilDst s).mem := rfl

@[simp] theorem complete_fail_late_platform (c : ErrCode) (s : State) :
    (complete (.fail c true) s).platform = s.platform := rfl

@[simp] theorem complete_fail_late_inputs (c : ErrCode) (s : State) :
    (complete (.fail c true) s).inputs = s.inputs := rfl

@[simp] theorem complete_fail_late_turns (c : ErrCode) (s : State) :
    (complete (.fail c true) s).turns = s.turns := rfl

@[simp] theorem complete_fail_late_observed (c : ErrCode) (s : State) :
    (complete (.fail c true) s).observed = s.observed := rfl

@[simp] theorem complete_fail_late_unsynced (c : ErrCode) (s : State) :
    (complete (.fail c true) s).unsynced = (spoilDst s).unsynced := rfl

@[simp] theorem complete_fail_late_abandoned (c : ErrCode) (s : State) :
    (complete (.fail c true) s).abandoned = (spoilDst s).abandoned := rfl

@[simp] theorem complete_fail_late_stale (c : ErrCode) (s : State) :
    (complete (.fail c true) s).stale = s.stale := rfl

@[simp] theorem complete_fail_late_dirty (c : ErrCode) (s : State) :
    (complete (.fail c true) s).dirty = (spoilDst s).dirty := rfl

@[simp] theorem complete_fail_late_draws (c : ErrCode) (s : State) :
    (complete (.fail c true) s).draws = (spoilDst s).draws := rfl


/-! ## acknowledge -/


@[simp] theorem acknowledge_irqEn (s : State) :
    (acknowledge s).irqEn = s.irqEn := rfl

@[simp] theorem acknowledge_busy (s : State) :
    (acknowledge s).busy = s.busy := rfl

@[simp] theorem acknowledge_done (s : State) :
    (acknowledge s).done = false := rfl

@[simp] theorem acknowledge_errCode (s : State) :
    (acknowledge s).errCode = s.errCode := rfl

@[simp] theorem acknowledge_regs (s : State) :
    (acknowledge s).regs = s.regs := rfl

@[simp] theorem acknowledge_latch (s : State) :
    (acknowledge s).latch = s.latch := rfl

@[simp] theorem acknowledge_outLen (s : State) :
    (acknowledge s).outLen = s.outLen := rfl

@[simp] theorem acknowledge_mem (s : State) :
    (acknowledge s).mem = s.mem := rfl

@[simp] theorem acknowledge_platform (s : State) :
    (acknowledge s).platform = s.platform := rfl

@[simp] theorem acknowledge_inputs (s : State) :
    (acknowledge s).inputs = s.inputs := rfl

@[simp] theorem acknowledge_turns (s : State) :
    (acknowledge s).turns = s.turns := rfl

@[simp] theorem acknowledge_observed (s : State) :
    (acknowledge s).observed = s.observed := rfl

@[simp] theorem acknowledge_unsynced (s : State) :
    (acknowledge s).unsynced = s.unsynced := rfl

@[simp] theorem acknowledge_abandoned (s : State) :
    (acknowledge s).abandoned = s.abandoned := rfl

@[simp] theorem acknowledge_stale (s : State) :
    (acknowledge s).stale = s.stale := rfl

@[simp] theorem acknowledge_dirty (s : State) :
    (acknowledge s).dirty = s.dirty := rfl

@[simp] theorem acknowledge_draws (s : State) :
    (acknowledge s).draws = s.draws := rfl


/-! ## latchCommand -/


@[simp] theorem latchCommand_irqEn (s : State) :
    (latchCommand s).irqEn = s.irqEn := rfl

@[simp] theorem latchCommand_busy (s : State) :
    (latchCommand s).busy = true := rfl

@[simp] theorem latchCommand_done (s : State) :
    (latchCommand s).done = false := rfl

@[simp] theorem latchCommand_errCode (s : State) :
    (latchCommand s).errCode = none := rfl

@[simp] theorem latchCommand_regs (s : State) :
    (latchCommand s).regs = s.regs := rfl

@[simp] theorem latchCommand_latch (s : State) :
    (latchCommand s).latch = s.regs := rfl

@[simp] theorem latchCommand_outLen (s : State) :
    (latchCommand s).outLen = 0 := rfl

@[simp] theorem latchCommand_mem (s : State) :
    (latchCommand s).mem = s.mem := rfl

@[simp] theorem latchCommand_platform (s : State) :
    (latchCommand s).platform = s.platform := rfl

@[simp] theorem latchCommand_inputs (s : State) :
    (latchCommand s).inputs = s.inputs := rfl

@[simp] theorem latchCommand_turns (s : State) :
    (latchCommand s).turns = s.turns := rfl

@[simp] theorem latchCommand_observed (s : State) :
    (latchCommand s).observed = s.observed := rfl

@[simp] theorem latchCommand_unsynced (s : State) :
    (latchCommand s).unsynced = s.unsynced := rfl

@[simp] theorem latchCommand_abandoned (s : State) :
    (latchCommand s).abandoned = s.abandoned := rfl

@[simp] theorem latchCommand_stale (s : State) :
    (latchCommand s).stale = s.stale := rfl

@[simp] theorem latchCommand_dirty (s : State) :
    (latchCommand s).dirty = s.dirty := rfl

@[simp] theorem latchCommand_draws (s : State) :
    (latchCommand s).draws = s.draws := rfl


/-! ## abandon and resetEngine -/


@[simp] theorem abandon_irqEn (s : State) :
    (abandon s).irqEn = s.irqEn := by
  unfold abandon; split <;> rfl

@[simp] theorem abandon_busy (s : State) :
    (abandon s).busy = s.busy := by
  unfold abandon; split <;> rfl

@[simp] theorem abandon_done (s : State) :
    (abandon s).done = s.done := by
  unfold abandon; split <;> rfl

@[simp] theorem abandon_errCode (s : State) :
    (abandon s).errCode = s.errCode := by
  unfold abandon; split <;> rfl

@[simp] theorem abandon_regs (s : State) :
    (abandon s).regs = s.regs := by
  unfold abandon; split <;> rfl

@[simp] theorem abandon_latch (s : State) :
    (abandon s).latch = s.latch := by
  unfold abandon; split <;> rfl

@[simp] theorem abandon_outLen (s : State) :
    (abandon s).outLen = s.outLen := by
  unfold abandon; split <;> rfl

@[simp] theorem abandon_platform (s : State) :
    (abandon s).platform = s.platform := by
  unfold abandon; split <;> rfl

@[simp] theorem abandon_inputs (s : State) :
    (abandon s).inputs = s.inputs := by
  unfold abandon; split <;> rfl

@[simp] theorem abandon_turns (s : State) :
    (abandon s).turns = s.turns := by
  unfold abandon; split <;> rfl

@[simp] theorem abandon_observed (s : State) :
    (abandon s).observed = s.observed := by
  unfold abandon; split <;> rfl

@[simp] theorem abandon_unsynced (s : State) :
    (abandon s).unsynced = s.unsynced := by
  unfold abandon; split <;> rfl

@[simp] theorem abandon_stale (s : State) :
    (abandon s).stale = s.stale := by
  unfold abandon; split <;> rfl

@[simp] theorem resetEngine_irqEn (s : State) :
    (resetEngine s).irqEn = false := rfl

@[simp] theorem resetEngine_busy (s : State) :
    (resetEngine s).busy = false := rfl

@[simp] theorem resetEngine_done (s : State) :
    (resetEngine s).done = false := rfl

@[simp] theorem resetEngine_errCode (s : State) :
    (resetEngine s).errCode = none := rfl

@[simp] theorem resetEngine_regs (s : State) :
    (resetEngine s).regs = Operands.reset := rfl

@[simp] theorem resetEngine_latch (s : State) :
    (resetEngine s).latch = Operands.reset := rfl

@[simp] theorem resetEngine_outLen (s : State) :
    (resetEngine s).outLen = 0 := rfl

@[simp] theorem resetEngine_platform (s : State) :
    (resetEngine s).platform = s.platform := abandon_platform s

@[simp] theorem resetEngine_inputs (s : State) :
    (resetEngine s).inputs = s.inputs := abandon_inputs s

@[simp] theorem resetEngine_turns (s : State) :
    (resetEngine s).turns = s.turns := abandon_turns s

@[simp] theorem resetEngine_observed (s : State) :
    (resetEngine s).observed = s.observed := abandon_observed s

@[simp] theorem resetEngine_unsynced (s : State) :
    (resetEngine s).unsynced = s.unsynced := abandon_unsynced s

@[simp] theorem resetEngine_stale (s : State) :
    (resetEngine s).stale = s.stale := abandon_stale s

@[simp] theorem resetEngine_mem (s : State) :
    (resetEngine s).mem = (abandon s).mem := rfl

@[simp] theorem resetEngine_abandoned (s : State) :
    (resetEngine s).abandoned = (abandon s).abandoned := rfl

@[simp] theorem resetEngine_dirty (s : State) :
    (resetEngine s).dirty = (abandon s).dirty := rfl

@[simp] theorem resetEngine_draws (s : State) :
    (resetEngine s).draws = (abandon s).draws := rfl


/-! ## writeOperand and writeStatus -/


@[simp] theorem writeOperand_irqEn (f : Operands → Operands) (s : State) :
    (writeOperand f s).irqEn = s.irqEn := by
  unfold writeOperand; split <;> simp_all

@[simp] theorem writeOperand_busy (f : Operands → Operands) (s : State) :
    (writeOperand f s).busy = s.busy := by
  unfold writeOperand; split <;> simp_all

@[simp] theorem writeOperand_done (f : Operands → Operands) (s : State) :
    (writeOperand f s).done = s.done := by
  unfold writeOperand; split <;> simp_all

@[simp] theorem writeOperand_errCode (f : Operands → Operands) (s : State) :
    (writeOperand f s).errCode = s.errCode := by
  unfold writeOperand; split <;> simp_all

@[simp] theorem writeOperand_regs (f : Operands → Operands) (s : State) :
    (writeOperand f s).regs = if s.busy then s.regs else f s.regs := by
  unfold writeOperand; split <;> simp_all

@[simp] theorem writeOperand_latch (f : Operands → Operands) (s : State) :
    (writeOperand f s).latch = s.latch := by
  unfold writeOperand; split <;> simp_all

@[simp] theorem writeOperand_outLen (f : Operands → Operands) (s : State) :
    (writeOperand f s).outLen = s.outLen := by
  unfold writeOperand; split <;> simp_all

@[simp] theorem writeOperand_mem (f : Operands → Operands) (s : State) :
    (writeOperand f s).mem = s.mem := by
  unfold writeOperand; split <;> simp_all

@[simp] theorem writeOperand_platform (f : Operands → Operands) (s : State) :
    (writeOperand f s).platform = s.platform := by
  unfold writeOperand; split <;> simp_all

@[simp] theorem writeOperand_inputs (f : Operands → Operands) (s : State) :
    (writeOperand f s).inputs = s.inputs := by
  unfold writeOperand; split <;> simp_all

@[simp] theorem writeOperand_turns (f : Operands → Operands) (s : State) :
    (writeOperand f s).turns = s.turns := by
  unfold writeOperand; split <;> simp_all

@[simp] theorem writeOperand_observed (f : Operands → Operands) (s : State) :
    (writeOperand f s).observed = s.observed := by
  unfold writeOperand; split <;> simp_all

@[simp] theorem writeOperand_unsynced (f : Operands → Operands) (s : State) :
    (writeOperand f s).unsynced = s.unsynced := by
  unfold writeOperand; split <;> simp_all

@[simp] theorem writeOperand_abandoned (f : Operands → Operands) (s : State) :
    (writeOperand f s).abandoned = s.abandoned := by
  unfold writeOperand; split <;> simp_all

@[simp] theorem writeOperand_stale (f : Operands → Operands) (s : State) :
    (writeOperand f s).stale = s.stale := by
  unfold writeOperand; split <;> simp_all

@[simp] theorem writeOperand_dirty (f : Operands → Operands) (s : State) :
    (writeOperand f s).dirty = s.dirty := by
  unfold writeOperand; split <;> simp_all

@[simp] theorem writeOperand_draws (f : Operands → Operands) (s : State) :
    (writeOperand f s).draws = s.draws := by
  unfold writeOperand; split <;> simp_all

@[simp] theorem writeStatus_irqEn (v : Word) (s : State) :
    (writeStatus v s).irqEn = s.irqEn := by
  unfold writeStatus; split <;> simp_all

@[simp] theorem writeStatus_busy (v : Word) (s : State) :
    (writeStatus v s).busy = s.busy := by
  unfold writeStatus; split <;> simp_all

@[simp] theorem writeStatus_done (v : Word) (s : State) :
    (writeStatus v s).done = (if v.getLsbD 1 && !s.busy then false else s.done) := by
  unfold writeStatus; split <;> simp_all

@[simp] theorem writeStatus_errCode (v : Word) (s : State) :
    (writeStatus v s).errCode = s.errCode := by
  unfold writeStatus; split <;> simp_all

@[simp] theorem writeStatus_regs (v : Word) (s : State) :
    (writeStatus v s).regs = s.regs := by
  unfold writeStatus; split <;> simp_all

@[simp] theorem writeStatus_latch (v : Word) (s : State) :
    (writeStatus v s).latch = s.latch := by
  unfold writeStatus; split <;> simp_all

@[simp] theorem writeStatus_outLen (v : Word) (s : State) :
    (writeStatus v s).outLen = s.outLen := by
  unfold writeStatus; split <;> simp_all

@[simp] theorem writeStatus_mem (v : Word) (s : State) :
    (writeStatus v s).mem = s.mem := by
  unfold writeStatus; split <;> simp_all

@[simp] theorem writeStatus_platform (v : Word) (s : State) :
    (writeStatus v s).platform = s.platform := by
  unfold writeStatus; split <;> simp_all

@[simp] theorem writeStatus_inputs (v : Word) (s : State) :
    (writeStatus v s).inputs = s.inputs := by
  unfold writeStatus; split <;> simp_all

@[simp] theorem writeStatus_turns (v : Word) (s : State) :
    (writeStatus v s).turns = s.turns := by
  unfold writeStatus; split <;> simp_all

@[simp] theorem writeStatus_observed (v : Word) (s : State) :
    (writeStatus v s).observed = s.observed := by
  unfold writeStatus; split <;> simp_all

@[simp] theorem writeStatus_unsynced (v : Word) (s : State) :
    (writeStatus v s).unsynced = s.unsynced := by
  unfold writeStatus; split <;> simp_all

@[simp] theorem writeStatus_abandoned (v : Word) (s : State) :
    (writeStatus v s).abandoned = s.abandoned := by
  unfold writeStatus; split <;> simp_all

@[simp] theorem writeStatus_stale (v : Word) (s : State) :
    (writeStatus v s).stale = s.stale := by
  unfold writeStatus; split <;> simp_all

@[simp] theorem writeStatus_dirty (v : Word) (s : State) :
    (writeStatus v s).dirty = s.dirty := by
  unfold writeStatus; split <;> simp_all

@[simp] theorem writeStatus_draws (v : Word) (s : State) :
    (writeStatus v s).draws = s.draws := by
  unfold writeStatus; split <;> simp_all


/-! ## seeCompletion -/


@[simp] theorem seeCompletion_irqEn (off : Nat) (s : State) :
    (seeCompletion off s).irqEn = s.irqEn := by
  unfold seeCompletion; split <;> rfl

@[simp] theorem seeCompletion_busy (off : Nat) (s : State) :
    (seeCompletion off s).busy = s.busy := by
  unfold seeCompletion; split <;> rfl

@[simp] theorem seeCompletion_done (off : Nat) (s : State) :
    (seeCompletion off s).done = s.done := by
  unfold seeCompletion; split <;> rfl

@[simp] theorem seeCompletion_errCode (off : Nat) (s : State) :
    (seeCompletion off s).errCode = s.errCode := by
  unfold seeCompletion; split <;> rfl

@[simp] theorem seeCompletion_regs (off : Nat) (s : State) :
    (seeCompletion off s).regs = s.regs := by
  unfold seeCompletion; split <;> rfl

@[simp] theorem seeCompletion_latch (off : Nat) (s : State) :
    (seeCompletion off s).latch = s.latch := by
  unfold seeCompletion; split <;> rfl

@[simp] theorem seeCompletion_outLen (off : Nat) (s : State) :
    (seeCompletion off s).outLen = s.outLen := by
  unfold seeCompletion; split <;> rfl

@[simp] theorem seeCompletion_mem (off : Nat) (s : State) :
    (seeCompletion off s).mem = s.mem := by
  unfold seeCompletion; split <;> rfl

@[simp] theorem seeCompletion_platform (off : Nat) (s : State) :
    (seeCompletion off s).platform = s.platform := by
  unfold seeCompletion; split <;> rfl

@[simp] theorem seeCompletion_inputs (off : Nat) (s : State) :
    (seeCompletion off s).inputs = s.inputs := by
  unfold seeCompletion; split <;> rfl

@[simp] theorem seeCompletion_turns (off : Nat) (s : State) :
    (seeCompletion off s).turns = s.turns := by
  unfold seeCompletion; split <;> rfl

@[simp] theorem seeCompletion_observed (off : Nat) (s : State) :
    (seeCompletion off s).observed = s.observed := by
  unfold seeCompletion; split <;> rfl

@[simp] theorem seeCompletion_dirty (off : Nat) (s : State) :
    (seeCompletion off s).dirty = s.dirty := by
  unfold seeCompletion; split <;> rfl

@[simp] theorem seeCompletion_draws (off : Nat) (s : State) :
    (seeCompletion off s).draws = s.draws := by
  unfold seeCompletion; split <;> rfl


/-! ## takeTurn -/


@[simp] theorem takeTurn_irqEn (s : State) :
    (takeTurn s).irqEn = s.irqEn := by
  unfold takeTurn; split <;> simp_all

@[simp] theorem takeTurn_busy (s : State) :
    (takeTurn s).busy = s.busy := by
  unfold takeTurn; split <;> simp_all

@[simp] theorem takeTurn_done (s : State) :
    (takeTurn s).done = s.done := by
  unfold takeTurn; split <;> simp_all

@[simp] theorem takeTurn_errCode (s : State) :
    (takeTurn s).errCode = s.errCode := by
  unfold takeTurn; split <;> simp_all

@[simp] theorem takeTurn_regs (s : State) :
    (takeTurn s).regs = s.regs := by
  unfold takeTurn; split <;> simp_all

@[simp] theorem takeTurn_latch (s : State) :
    (takeTurn s).latch = s.latch := by
  unfold takeTurn; split <;> simp_all

@[simp] theorem takeTurn_outLen (s : State) :
    (takeTurn s).outLen = s.outLen := by
  unfold takeTurn; split <;> simp_all

@[simp] theorem takeTurn_mem (s : State) :
    (takeTurn s).mem = s.mem := by
  unfold takeTurn; split <;> simp_all

@[simp] theorem takeTurn_platform (s : State) :
    (takeTurn s).platform = s.platform := by
  unfold takeTurn; split <;> simp_all

@[simp] theorem takeTurn_inputs (s : State) :
    (takeTurn s).inputs = s.inputs := by
  unfold takeTurn; split <;> simp_all

@[simp] theorem takeTurn_turns (s : State) :
    (takeTurn s).turns = if racing s then s.turns.tail else s.turns := by
  unfold takeTurn; split <;> simp_all

@[simp] theorem takeTurn_observed (s : State) :
    (takeTurn s).observed = s.observed := by
  unfold takeTurn; split <;> simp_all

@[simp] theorem takeTurn_unsynced (s : State) :
    (takeTurn s).unsynced = s.unsynced := by
  unfold takeTurn; split <;> simp_all

@[simp] theorem takeTurn_abandoned (s : State) :
    (takeTurn s).abandoned = s.abandoned := by
  unfold takeTurn; split <;> simp_all

@[simp] theorem takeTurn_stale (s : State) :
    (takeTurn s).stale = s.stale := by
  unfold takeTurn; split <;> simp_all

@[simp] theorem takeTurn_dirty (s : State) :
    (takeTurn s).dirty = s.dirty := by
  unfold takeTurn; split <;> simp_all

@[simp] theorem takeTurn_draws (s : State) :
    (takeTurn s).draws = s.draws := by
  unfold takeTurn; split <;> simp_all


/-! ## withFetchWord -/


@[simp] theorem withFetchWord_irqEn (s : State) (nbits w : Nat) :
    (s.withFetchWord nbits w).irqEn = s.irqEn := rfl

@[simp] theorem withFetchWord_busy (s : State) (nbits w : Nat) :
    (s.withFetchWord nbits w).busy = true := rfl

@[simp] theorem withFetchWord_done (s : State) (nbits w : Nat) :
    (s.withFetchWord nbits w).done = false := rfl

@[simp] theorem withFetchWord_errCode (s : State) (nbits w : Nat) :
    (s.withFetchWord nbits w).errCode = none := rfl

@[simp] theorem withFetchWord_regs (s : State) (nbits w : Nat) :
    (s.withFetchWord nbits w).regs = { s.regs with cmd := BitVec.ofNat 32 (w % 2 ^ nbits) } := rfl

@[simp] theorem withFetchWord_latch (s : State) (nbits w : Nat) :
    (s.withFetchWord nbits w).latch = { s.regs with cmd := BitVec.ofNat 32 (w % 2 ^ nbits) } := rfl

@[simp] theorem withFetchWord_outLen (s : State) (nbits w : Nat) :
    (s.withFetchWord nbits w).outLen = 0 := rfl

@[simp] theorem withFetchWord_mem (s : State) (nbits w : Nat) :
    (s.withFetchWord nbits w).mem = s.mem := rfl

@[simp] theorem withFetchWord_platform (s : State) (nbits w : Nat) :
    (s.withFetchWord nbits w).platform = s.platform := rfl

@[simp] theorem withFetchWord_inputs (s : State) (nbits w : Nat) :
    (s.withFetchWord nbits w).inputs = s.inputs := rfl

@[simp] theorem withFetchWord_turns (s : State) (nbits w : Nat) :
    (s.withFetchWord nbits w).turns = if s.inputs.isEmpty then s.turns else .engine :: s.turns := rfl

@[simp] theorem withFetchWord_observed (s : State) (nbits w : Nat) :
    (s.withFetchWord nbits w).observed = s.observed := rfl

@[simp] theorem withFetchWord_unsynced (s : State) (nbits w : Nat) :
    (s.withFetchWord nbits w).unsynced = s.unsynced := rfl

@[simp] theorem withFetchWord_abandoned (s : State) (nbits w : Nat) :
    (s.withFetchWord nbits w).abandoned = s.abandoned := rfl

@[simp] theorem withFetchWord_stale (s : State) (nbits w : Nat) :
    (s.withFetchWord nbits w).stale = s.stale := rfl

@[simp] theorem withFetchWord_dirty (s : State) (nbits w : Nat) :
    (s.withFetchWord nbits w).dirty = s.dirty := rfl

@[simp] theorem withFetchWord_draws (s : State) (nbits w : Nat) :
    (s.withFetchWord nbits w).draws = s.draws := rfl

end Sys2Proof.Machine
end

