-- ==== Sys2Proof/Laws/Ops.lean ====
section
/-! SUPPORT. What each shared operation can do, said once: the outcome of a command, its completion, a step
of the machine, and that each of them keeps memory in canonical form. -/

namespace Sys2Proof.Machine

/-! ## The outcome of a command (`60_exceptions.md` rules R320, R322) -/

/-- What a command needs so that it succeeds with output `out`: it passes steps 2 and 3, its source
reads without a bus error, its result function gives `out`, and `out` fits. -/
def OutcomeOk (f : ResultFn) (s : State) (out : Output) : Prop :=
  preflight s.platform s.latch = none ∧ memOk s.platform s.latch.src = true ∧
    f s.platform.maxLen (sourceBytes s) s.latch.aux = .ok out ∧
    out.bytes.length ≤ s.platform.maxLen ∧ out.bytes.length ≤ s.latch.dstCap.toNat ∧
    memOk s.platform ⟨s.latch.dstAddr.toNat, out.bytes.length⟩ = true

theorem outcome_ok_iff (f : ResultFn) (s : State) (D : Bytes) (aux : Option Word) :
    outcome f s = .ok D aux ↔ OutcomeOk f s ⟨D, aux⟩ := by
  unfold outcome OutcomeOk
  constructor
  · intro h
    split at h
    · cases h
    · rename_i hp
      split at h
      · cases h
      · rename_i hs
        split at h
        · cases h
        · rename_i out hf
          split at h
          · cases h
          · split at h
            · cases h
            · split at h
              · cases h
              · rename_i h1 h2 h3
                cases h
                exact ⟨hp, by simpa using hs, hf, by simp; omega, by simp; omega, by simpa using h3⟩
  · rintro ⟨hp, hs, hf, h1, h2, h3⟩
    simp only at h1 h2 h3
    simp [hp, hs, hf, h3, Nat.not_lt.mpr h1, Nat.not_lt.mpr h2]

/-- A failure in steps 2 and 3 makes no memory access; a later one may have. -/
theorem outcome_fail_cases (f : ResultFn) (s : State) (c : ErrCode) (touched : Bool)
    (h : outcome f s = .fail c touched) :
    (touched = false ∧ preflight s.platform s.latch = some c) ∨
      (touched = true ∧ preflight s.platform s.latch = none) := by
  unfold outcome at h
  split at h
  · rename_i hp; cases h; exact .inl ⟨rfl, hp⟩
  · rename_i hp
    refine .inr ⟨?_, hp⟩
    split at h
    · cases h; rfl
    · split at h
      · cases h; rfl
      · split at h
        · cases h; rfl
        · split at h
          · cases h; rfl
          · split at h <;> cases h
            rfl

/-- The destination range of a command that has passed step 2 lies in the address space. -/
theorem dst_in_space (p : Platform) (o : Operands) (h : preflight p o = none) :
    o.dstAddr.toNat + o.dstCap.toNat ≤ 2 ^ 32 := ((preflight_none_iff p o).mp h).2.1

/-! ## The engine's memory writes -/

theorem spoilDst_mem_wf (s : State) (hm : Memory.wf s.mem = true)
    (hd : s.latch.dstAddr.toNat + s.latch.dstCap.toNat ≤ 2 ^ 32) :
    Memory.wf (spoilDst s).mem = true := by
  rw [spoilDst_mem]
  exact writeBytes_wf _ _ _ hm (by simpa using hd)

theorem spoilDst_mem_outside (s : State) (x : Nat) (hx : inRange s.latch.dst x = false) :
    readByte (spoilDst s).mem x = readByte s.mem x := by
  rw [spoilDst_mem]
  refine readByte_writeBytes_outside _ _ _ _ ?_
  rw [Bool.eq_false_iff, ne_eq, inRange_iff] at hx
  rw [length_freeBytes]
  simp only [Operands.dst] at hx
  omega

/-- Completion keeps memory in canonical form. -/
theorem complete_outcome_mem_wf (f : ResultFn) (s : State) (hm : Memory.wf s.mem = true) :
    Memory.wf (complete (outcome f s) s).mem = true := by
  cases h : outcome f s with
  | ok D aux =>
    obtain ⟨hp, -, -, -, hcap, -⟩ := (outcome_ok_iff f s D aux).mp h
    rw [complete_ok_mem]
    refine writeBytes_wf _ _ _ hm ?_
    have := dst_in_space _ _ hp
    simp only at hcap
    omega
  | fail c touched =>
    rcases outcome_fail_cases f s c touched h with ⟨rfl, -⟩ | ⟨rfl, hp⟩
    · simpa using hm
    · rw [complete_fail_late_mem]
      exact spoilDst_mem_wf s hm (dst_in_space _ _ hp)

/-- Completion changes no byte outside the destination range (`20_memory.md` rule R65). -/
theorem complete_outcome_mem_outside (f : ResultFn) (s : State) (x : Nat)
    (hx : inRange s.latch.dst x = false) :
    readByte (complete (outcome f s) s).mem x = readByte s.mem x := by
  cases h : outcome f s with
  | ok D aux =>
    obtain ⟨-, -, -, -, hcap, -⟩ := (outcome_ok_iff f s D aux).mp h
    rw [complete_ok_mem]
    refine readByte_writeBytes_outside _ _ _ _ ?_
    rw [Bool.eq_false_iff, ne_eq, inRange_iff] at hx
    simp only [Operands.dst] at hx hcap
    omega
  | fail c touched =>
    cases touched with
    | false => simp
    | true => rw [complete_fail_late_mem]; exact spoilDst_mem_outside s x hx

/-- What every completion leaves: IDLE, DONE, and nothing of the host's side changed
(`60_exceptions.md` rules R320, R325). -/
theorem complete_frame (o : CmdOutcome) (s : State) :
    (complete o s).busy = false ∧ (complete o s).done = true ∧
      (complete o s).irqEn = s.irqEn ∧ (complete o s).latch = s.latch ∧
      (complete o s).platform = s.platform ∧ (complete o s).inputs = s.inputs ∧
      (complete o s).turns = s.turns ∧ (complete o s).observed = s.observed ∧
      (complete o s).stale = s.stale ∧ (complete o s).regs.cmd = s.regs.cmd ∧
      (complete o s).regs.srcAddr = s.regs.srcAddr ∧ (complete o s).regs.srcLen = s.regs.srcLen ∧
      (complete o s).regs.dstAddr = s.regs.dstAddr ∧ (complete o s).regs.dstCap = s.regs.dstCap := by
  cases o with
  | ok D aux => simp
  | fail c touched => cases touched <;> simp

/-! ## Reset -/

theorem abandon_mem_wf (s : State) (hm : Memory.wf s.mem = true) :
    Memory.wf (abandon s).mem = true := by
  unfold abandon
  split
  · rename_i h
    refine spoilDst_mem_wf s hm (dst_in_space s.platform s.latch ?_)
    simp only [Bool.and_eq_true, accessesMemory] at h
    obtain ⟨-, h⟩ := h
    split at h <;> simp_all
  · exact hm

theorem abandon_mem_outside (s : State) (x : Nat) (hx : inRange s.latch.dst x = false) :
    readByte (abandon s).mem x = readByte s.mem x := by
  unfold abandon
  split
  · exact spoilDst_mem_outside s x hx
  · rfl

/-- With no command running a reset touches no memory (`70_reset_and_hazards.md` rule R360). -/
theorem abandon_idle (s : State) (h : s.busy = false) : abandon s = s := by simp [abandon, h]

/-! ## Host writes -/

theorem hostMemWrite_cases (a : Nat) (bs : Bytes) (s t : State)
    (h : hostMemWrite a bs s = .next t) :
    a + bs.length ≤ 2 ^ 32 ∧ hitsLatched s ⟨a, bs.length⟩ = false ∧
      t.mem = writeBytes s.mem a bs := by
  unfold hostMemWrite addrSpace at h
  split at h
  · cases h
  · split at h
    · cases h
    · rename_i h1 h2
      cases h
      exact ⟨by omega, by simpa using h2, rfl⟩

theorem hostMemWrite_mem_wf (a : Nat) (bs : Bytes) (s t : State)
    (h : hostMemWrite a bs s = .next t) (hm : Memory.wf s.mem = true) :
    Memory.wf t.mem = true := by
  obtain ⟨ha, -, ht⟩ := hostMemWrite_cases a bs s t h
  rw [ht]
  exact writeBytes_wf _ _ _ hm ha

theorem spoilRange_mem_wf (s : State) (r : Range) (hm : Memory.wf s.mem = true)
    (hr : r.base + r.size ≤ 2 ^ 32) : Memory.wf (spoilRange s r).mem = true := by
  rw [spoilRange_mem]
  exact writeBytes_wf _ _ _ hm (by simpa using hr)

/-! ## One step -/

/-- Every command answers a completion (`60_exceptions.md` rule R320). -/
theorem exec_completes (i : Instr) (s : State) : ∃ o, exec i s = .next (complete o s) := by
  cases i
  case pipeEnc alg => show ∃ o, execPipeEnc alg s = _; unfold execPipeEnc; split <;> exact ⟨_, rfl⟩
  case pipeDec alg => show ∃ o, execPipeDec alg s = _; unfold execPipeDec; split <;> exact ⟨_, rfl⟩
  all_goals exact ⟨_, rfl⟩

/-- The engine's step is a completion, of a command or of an illegal word. -/
theorem engineStep_completes (s : State) : ∃ o, engineStep s = .next (complete o s) := by
  unfold engineStep
  split
  · exact exec_completes _ s
  · exact ⟨_, rfl⟩

/-- What a step that answers a next state did: nothing, one host step, one command, or the
completion of an illegal command word (`70_reset_and_hazards.md` rule R368). -/
theorem step_cases (s t : State) (h : step s = .next t) :
    (nextAgent s = none ∧ t = s) ∨
      (nextAgent s = some .host ∧ hostStep (takeTurn s) = .next t) ∨
      (nextAgent s = some .engine ∧
        ((∃ i, decode s.latch.cmd = .ok i ∧ exec i (takeTurn s) = .next t) ∨
          ∃ e, decode s.latch.cmd = .error e ∧ t = completeIllegal e (takeTurn s))) := by
  unfold step at h
  split at h
  · rename_i hn; cases h; exact .inl ⟨hn, rfl⟩
  · rename_i hn; exact .inr (.inl ⟨hn, h⟩)
  · rename_i hn
    refine .inr (.inr ⟨hn, ?_⟩)
    unfold engineStep at h
    rw [takeTurn_latch] at h
    split at h
    · rename_i i hd; exact .inl ⟨i, hd, h⟩
    · rename_i e hd; cases h; exact .inr ⟨e, hd, rfl⟩

/-- The engine takes a step only while BUSY = 1 (`70_reset_and_hazards.md` rule R368). -/
theorem nextAgent_engine_busy (s : State) (h : nextAgent s = some .engine) : s.busy = true := by
  unfold nextAgent racing at h
  split at h
  · simp_all
  · split at h
    · assumption
    · split at h <;> cases h

end Sys2Proof.Machine
end

