-- ==== Sys2Proof/Laws/HostPort.lean ====
section
/-! SUPPORT. What the host's register accesses do: an aligned access inside the block reaches its offset
(`10_state.md` rules R20, R21, `20_memory.md` rule R62). -/

namespace Sys2Proof.Machine

/-- The bus address REG_BASE + offset is inside the block, at that offset. -/
theorem regOffset_base_add (p : Platform) (off : Nat) (h : p.wf = true) (ho : off < 256) :
    regOffset p (p.regBase + BitVec.ofNat 32 off) = some off := by
  unfold Platform.wf at h
  simp only [Bool.and_eq_true, decide_eq_true_eq, beq_iff_eq] at h
  have := p.regBase.isLt
  unfold regOffset regBlockBytes
  rw [BitVec.toNat_add, BitVec.toNat_ofNat, if_pos (by omega)]
  congr 1
  omega

/-- A word access at a word offset inside the block is one with a meaning. -/
theorem accessOffset_base_add (p : Platform) (off : Nat) (h : p.wf = true) (ho : off < 256)
    (h4 : off % 4 = 0) : accessOffset p .word (p.regBase + BitVec.ofNat 32 off) = .ok off := by
  unfold accessOffset
  rw [regOffset_base_add p off h ho]
  simp [h4]

/-- `WR <REG>, v` writes the register. -/
theorem hostDo_wr (s : State) (r : Reg) (v : Word) (h : s.platform.wf = true) :
    hostDo (wr s.platform r v) s = writeReg r v s := by
  show hostRegWrite .word (regAddr s.platform r) v s = _
  unfold hostRegWrite regAddr
  rw [accessOffset_base_add _ _ h (by cases r <;> decide) (by cases r <;> decide)]
  cases r <;> rfl

/-- `RD <REG>` returns the register's value. -/
theorem hostDo_rd (s : State) (r : Reg) (h : s.platform.wf = true) :
    hostDo (rd s.platform r) s = .next { seeCompletion r.offset s with
      observed := s.observed ++ [.reg (regAddr s.platform r) (readReg r s)] } := by
  show hostRegRead .word (regAddr s.platform r) s = _
  unfold hostRegRead regAddr
  rw [accessOffset_base_add _ _ h (by cases r <;> decide) (by cases r <;> decide)]
  cases r <;> rfl

/-! ## CTRL (`10_state.md` rules R24, R25, R26) -/

theorem writeCtrl_start (v : Word) (s : State) (h0 : v.getLsbD 0 = true) (h1 : v.getLsbD 1 = false)
    (hb : s.busy = false) : writeCtrl v s = accept { s with irqEn := v.getLsbD 2 } := by
  unfold writeCtrl
  rw [h0, h1, hb]
  rfl

theorem writeCtrl_irqEn (v : Word) (s : State) (h1 : v.getLsbD 1 = false)
    (h : v.getLsbD 0 = false ∨ s.busy = true) :
    writeCtrl v s = .next { s with irqEn := v.getLsbD 2 } := by
  unfold writeCtrl
  rw [h1]
  rcases h with h | h <;> rw [h] <;> simp

theorem writeCtrl_reset (v : Word) (s : State) (h1 : v.getLsbD 1 = true) :
    writeCtrl v s = .next (resetEngine s) := by
  unfold writeCtrl
  rw [h1]
  rfl

/-! ## Memory -/

/-- A host write inside the address space, clear of the latched ranges of a running command. -/
theorem hostDo_memWrite (s : State) (a : Nat) (bs : Bytes) (h : a + bs.length ≤ 2 ^ 32)
    (hh : hitsLatched s ⟨a, bs.length⟩ = false) : hostDo (.memWrite a bs) s = .next { s with
      mem := writeBytes s.mem a bs
      unsynced := rangesMinus s.unsynced ⟨a, bs.length⟩
      abandoned := rangesMinus s.abandoned ⟨a, bs.length⟩
      stale := rangesMinus s.stale ⟨a, bs.length⟩
      dirty := if s.platform.dmaCoherent then s.dirty else addRange s.dirty ⟨a, bs.length⟩ } := by
  show hostMemWrite a bs s = _
  unfold hostMemWrite
  rw [if_neg (show ¬ addrSpace < a + bs.length from Nat.not_lt.mpr h), hh]
  rfl

/-- A host read inside the address space that uses no stale copy. -/
theorem hostDo_memRead (s : State) (a n : Nat) (h : a + n ≤ 2 ^ 32)
    (hs : ∀ k, k < n → readIsStale s (a + k) = false) : hostDo (.memRead a n) s = .next { s with
      observed := s.observed ++ [.mem a (hostReadBytes s a n)], draws := s.draws + n } := by
  have hany : (List.range n).any (fun k => readIsStale s (a + k)) = false := by
    simpa [List.any_eq_false] using hs
  show hostMemRead a n s = _
  unfold hostMemRead
  rw [if_neg (show ¬ addrSpace < a + n from Nat.not_lt.mpr h), hany]
  rfl

/-- Where no byte of a host read is a draw, the read returns the bytes in memory. -/
theorem hostReadBytes_eq (s : State) (a n : Nat)
    (h : ∀ k, k < n → readIsDraw s (a + k) = false) :
    hostReadBytes s a n = (List.range n).map (fun k => readByte s.mem (a + k)) := by
  unfold hostReadBytes
  apply List.map_congr_left
  intro k hk
  simp [h k (List.mem_range.mp hk)]

/-- A host read whose bytes are all draws returns free values and is no hazard. -/
theorem hostDo_memRead_draws (s : State) (a n : Nat) (h : a + n ≤ 2 ^ 32)
    (hd : ∀ k, k < n → readIsDraw s (a + k) = true) : hostDo (.memRead a n) s = .next { s with
      observed := s.observed ++
        [.mem a ((List.range n).map (fun k => Config.freeByte (s.draws + k)))]
      draws := s.draws + n } := by
  have hb : hostReadBytes s a n = (List.range n).map (fun k => Config.freeByte (s.draws + k)) := by
    unfold hostReadBytes
    apply List.map_congr_left
    intro k hk
    simp [hd k (List.mem_range.mp hk)]
  rw [hostDo_memRead s a n h (fun k hk => by simp [readIsStale, hd k hk]), hb]

/-- A host read of one stale byte is a hazard. -/
theorem hostDo_memRead_stale (s : State) (a n k : Nat) (hk : k < n) (h : a + n ≤ 2 ^ 32)
    (hs : readIsStale s (a + k) = true) :
    hostDo (.memRead a n) s = .fault .coherenceHazard := by
  have hany : (List.range n).any (fun k => readIsStale s (a + k)) = true :=
    List.any_eq_true.mpr ⟨k, List.mem_range.mpr hk, hs⟩
  show hostMemRead a n s = _
  unfold hostMemRead
  rw [if_neg (show ¬ addrSpace < a + n from Nat.not_lt.mpr h), hany]
  rfl

/-! ## What a host step can do while a command runs -/

theorem regMap_lookup (off : Nat) (r : Reg) (h : regMap.lookup off = some r) : off = r.offset := by
  obtain ⟨l₁, l₂, h, -⟩ := List.lookup_eq_some_iff.mp h
  have hm : (off, r) ∈ regMap := by rw [h]; simp
  simp only [regMap, List.mem_cons, Prod.mk.injEq, List.not_mem_nil, or_false] at hm
  rcases hm with h | h | h | h | h | h | h | h | h | h <;> (obtain ⟨rfl, rfl⟩ := h; rfl)

/-- Spoiling ranges changes memory and the count of draws only. -/
theorem foldl_spoilRange_frame (l : List Range) (s : State) :
    l.foldl spoilRange s =
      { s with mem := (l.foldl spoilRange s).mem, draws := (l.foldl spoilRange s).draws } := by
  induction l generalizing s with
  | nil => rfl
  | cons q l ih => rw [List.foldl_cons, ih]; rfl

/-- A register write while BUSY = 1 leaves it set, unless it is a soft reset. -/
theorem writeOffset_busy (off : Nat) (v : Word) (s t : State) (hb : s.busy = true)
    (h : writeOffset off v s = .next t) :
    (t.busy = true ∨ (off = 4 ∧ v.getLsbD 1 = true ∧ t.busy = false)) ∧ t.turns = s.turns ∧
      t.platform = s.platform ∧ t.inputs = s.inputs := by
  unfold writeOffset at h
  split at h
  · rename_i r hr
    cases r
    case ctrl =>
      have ho : off = 4 := regMap_lookup off .ctrl hr
      change writeCtrl v s = _ at h
      by_cases h1 : v.getLsbD 1 = true
      · rw [writeCtrl_reset v s h1] at h; cases h; simp [ho, h1]
      · rw [writeCtrl_irqEn v s (by simpa using h1) (.inr hb)] at h; cases h; simp [hb]
    all_goals (simp only [writeReg] at h; cases h; simp [hb])
  · cases h; simp [hb]

/-- A host step while BUSY = 1 leaves BUSY set, the turns and the platform as they are, and itself
done or still to do; or it is a reset, which clears BUSY. -/
theorem hostDo_busy_cases (op : HostOp) (s t : State) (hb : s.busy = true)
    (h : hostDo op s = .next t) :
    (t.busy = true ∧ t.turns = s.turns ∧ t.platform = s.platform ∧
      (t.inputs = s.inputs ∨ t.inputs = op :: s.inputs)) ∨
    (isReset s.platform op = true ∧ t.busy = false ∧ t.inputs = s.inputs) := by
  cases op <;> simp only [hostDo, hostRegWrite, hostRegRead, hostPoll, hostMemWrite, hostMemRead,
    hostWaitIrq, hostCacheClean, hostCacheInvalidate] at h
  case regWrite w a v =>
    split at h
    · cases h
    · rename_i off ho
      obtain ⟨h1, h2, h3, h4⟩ := writeOffset_busy off v s t hb h
      rcases h1 with h1 | ⟨rfl, h1, hbf⟩
      · exact .inl ⟨h1, h2, h3, .inl h4⟩
      · refine .inr ⟨?_, hbf, h4⟩
        unfold accessOffset at ho
        split at ho
        · cases ho
        · cases ho
        · split at ho
          · cases ho
          · split at ho
            · cases ho; rename_i h5 _; simp [isReset, h5]; simpa using h1
            · cases ho
  case hardReset => cases h; exact .inr ⟨rfl, rfl, by simp⟩
  case cacheInvalidate r =>
    split at h
    · cases h
    · cases h
      rw [foldl_spoilRange_frame]
      exact .inl ⟨hb, rfl, rfl, .inl rfl⟩
  all_goals
    (repeat' split at h)
    all_goals first | (cases h; done) | (cases h; exact .inl (by simp [hb]))

end Sys2Proof.Machine
end

