-- ==== Sys2Proof/Laws/PerInstr.lean ====
section
/-! SUPPORT. Statements about every command as syntax, one lemma per constructor: the fields of its command
word (`30_encoding.md` rules R90, R92, R94). -/

namespace Sys2Proof.Laws.CommandWord

/-- The opcode of a command (`30_encoding.md` rule R92). -/
def opcode : Instr → Nat
  | .nop => 0x00
  | .rleEnc => 0x01
  | .rleDec => 0x02
  | .deltaEnc => 0x03
  | .deltaDec => 0x04
  | .exeFwd => 0x05
  | .exeInv => 0x06
  | .mtfEnc => 0x07
  | .mtfDec => 0x08
  | .bwtFwd => 0x09
  | .bwtInv => 0x0A
  | .lzEnc => 0x0B
  | .lzDec => 0x0C
  | .acEnc => 0x0D
  | .acDec => 0x0E
  | .pipeEnc _ => 0x10
  | .pipeDec _ => 0x11

/-- The command's word has its opcode in OPC and 0 in RSVD (rule R90). -/
def Statement (i : Instr) : Prop := cmdOpc (encode i) = opcode i ∧ cmdRsvd (encode i) = 0

theorem nop : Statement .nop := by unfold Statement; decide
theorem rleEnc : Statement .rleEnc := by unfold Statement; decide
theorem rleDec : Statement .rleDec := by unfold Statement; decide
theorem deltaEnc : Statement .deltaEnc := by unfold Statement; decide
theorem deltaDec : Statement .deltaDec := by unfold Statement; decide
theorem exeFwd : Statement .exeFwd := by unfold Statement; decide
theorem exeInv : Statement .exeInv := by unfold Statement; decide
theorem mtfEnc : Statement .mtfEnc := by unfold Statement; decide
theorem mtfDec : Statement .mtfDec := by unfold Statement; decide
theorem bwtFwd : Statement .bwtFwd := by unfold Statement; decide
theorem bwtInv : Statement .bwtInv := by unfold Statement; decide
theorem lzEnc : Statement .lzEnc := by unfold Statement; decide
theorem lzDec : Statement .lzDec := by unfold Statement; decide
theorem acEnc : Statement .acEnc := by unfold Statement; decide
theorem acDec : Statement .acDec := by unfold Statement; decide

/-- A pipeline word with its opcode below bit 8 and ALG in bits 15:8. -/
theorem cmdWord_fields (opc : Nat) (alg : BitVec 8) (h : opc < 2 ^ 8) :
    cmdOpc (cmdWord opc alg.toNat) = opc ∧ cmdRsvd (cmdWord opc alg.toNat) = 0 := by
  have := alg.isLt
  unfold cmdOpc cmdRsvd cmdWord
  rw [BitVec.toNat_ofNat]
  omega

theorem pipeEnc (alg : BitVec 8) : Statement (.pipeEnc alg) :=
  cmdWord_fields 0x10 alg (by decide)
theorem pipeDec (alg : BitVec 8) : Statement (.pipeDec alg) :=
  cmdWord_fields 0x11 alg (by decide)

end Sys2Proof.Laws.CommandWord
end

