-- ==== Sys2Proof/Laws/Safety.lean ====
section
/-! SUPPORT. The conditions of Safety.lean as the checks the engine makes, and what a command does: it succeeds
when its operands fit its output, and fails as its checks say. -/

namespace Sys2Proof.Machine

/-! ## Conditions and checks -/

theorem noOverlap_iff (o : Operands) : NoOverlap o ↔ rangesMeet o.src o.dst = false := by
  rw [Bool.eq_false_iff, ne_eq, rangesMeet_iff]
  simp only [NoOverlap, inRange_iff, Operands.src, Operands.dst, not_exists]
  exact forall_congr' (fun a => by rw [and_assoc])

theorem memOk_bytes_iff (s : State) (a n : Nat) :
    memOk s.platform ⟨a, n⟩ = true ↔ ∀ k, k < n → MemOK s (a + k) := by
  rw [memOk_iff]
  simp only [inRange_iff, MemOK]
  constructor
  · intro h k hk
    exact h (a + k) ⟨by omega, by omega⟩
  · rintro h b ⟨h1, h2⟩
    have := h (b - a) (by omega)
    rwa [Nat.add_sub_cancel' h1] at this

theorem sourceReadable_iff (s : State) :
    SourceReadable s ↔
      preflight s.platform s.latch = none ∧ memOk s.platform s.latch.src = true := by
  unfold SourceReadable NoWrap
  rw [preflight_none_iff, noOverlap_iff, Operands.src, memOk_bytes_iff]
  tauto

theorem outputFits_iff (s : State) (n : Nat) :
    OutputFits s n ↔ n ≤ s.platform.maxLen ∧ n ≤ s.latch.dstCap.toNat ∧
      memOk s.platform ⟨s.latch.dstAddr.toNat, n⟩ = true := by
  rw [memOk_bytes_iff, OutputFits]

theorem sourceBytes_eq (s : State) (hm : Memory.wf s.mem = true) :
    sourceBytes s = sourceString s := readBytes_eq _ _ _ hm

@[simp] theorem length_sourceString (s : State) :
    (sourceString s).length = s.latch.srcLen.toNat := by simp [sourceString]

/-! ## Success -/

/-- Completing with an output that fits the destination is a success. -/
theorem complete_succeeded (s : State) (D : Bytes) (aux : Option Word)
    (hcap : D.length ≤ s.latch.dstCap.toNat) :
    Succeeded s (complete (.ok D aux) s) D (auxAfter s.regs.aux aux) := by
  have hlen : D.length < 2 ^ 32 := lt_of_le_of_lt hcap s.latch.dstCap.isLt
  refine ⟨rfl, rfl, rfl, ?_, rfl, ⟨rfl, rfl, rfl, rfl, rfl⟩,
    ⟨rfl, rfl, rfl, rfl, rfl, rfl, rfl⟩, rfl, fun k hk => ?_, fun a ha => ?_⟩
  · rw [complete_ok_outLen, BitVec.toNat_ofNat, Nat.mod_eq_of_lt hlen]
  · rw [complete_ok_mem]; exact readByte_writeBytes_inside _ _ _ _ hk
  · rw [complete_ok_mem]; exact readByte_writeBytes_outside _ _ _ _ ha

/-- A command whose operands are readable and whose output fits succeeds with it. -/
theorem runCommand_succeeds (f : ResultFn) (s : State) (out : Output)
    (hr : Runnable s out.bytes.length)
    (hf : f s.platform.maxLen (sourceString s) s.latch.aux = .ok out) :
    ∃ t, runCommand f s = .next t ∧ Succeeded s t out.bytes (auxAfter s.regs.aux out.aux) := by
  obtain ⟨hm, hsrc, hout⟩ := hr
  obtain ⟨hp, hs⟩ := (sourceReadable_iff s).mp hsrc
  obtain ⟨h1, h2, h3⟩ := (outputFits_iff s _).mp hout
  have ho : outcome f s = .ok out.bytes out.aux :=
    (outcome_ok_iff f s out.bytes out.aux).mpr
      ⟨hp, hs, by rw [sourceBytes_eq s hm, hf], h1, h2, h3⟩
  exact ⟨_, rfl, by rw [ho]; exact complete_succeeded s out.bytes out.aux h2⟩

/-- The case of a result function without AUX and size limit. -/
theorem runPlain_succeeds (f : Bytes → Except ErrCode Bytes) (s : State) (D : Bytes)
    (hr : Runnable s D.length) (hf : f (sourceString s) = .ok D) :
    ∃ t, runCommand (plainResult f) s = .next t ∧ Succeeded s t D s.regs.aux :=
  runCommand_succeeds (plainResult f) s ⟨D, none⟩ hr (by simp [plainResult, hf])

/-! ## Failure -/

/-- Every failing completion is a failure with its code. -/
theorem complete_failedWith (s : State) (c : ErrCode) (touched : Bool) :
    FailedWith s (complete (.fail c touched) s) c := by
  cases touched with
  | false =>
    exact ⟨rfl, rfl, rfl, rfl, rfl, ⟨rfl, rfl, rfl, rfl, rfl, rfl, rfl⟩, fun a _ => rfl⟩
  | true =>
    refine ⟨rfl, rfl, rfl, rfl, rfl, ⟨rfl, rfl, rfl, rfl, rfl, rfl, rfl⟩, fun a ha => ?_⟩
    rw [complete_fail_late_mem]
    refine spoilDst_mem_outside s a ?_
    rw [Bool.eq_false_iff, ne_eq, inRange_iff]
    simp only [Operands.dst]
    omega

/-- A failure in steps 1 to 3 is an early one. -/
theorem complete_failedEarly (s : State) (c : ErrCode) :
    FailedEarly s (complete (.fail c false) s) c :=
  ⟨complete_failedWith s c false, rfl, rfl, rfl, rfl, rfl⟩

/-- A command whose range or size checks fail reports what they say, without any memory access. -/
theorem runCommand_fails_early (f : ResultFn) (s : State) (c : ErrCode)
    (h : preflight s.platform s.latch = some c) :
    ∃ t, runCommand f s = .next t ∧ FailedEarly s t c :=
  ⟨_, rfl, by simp only [outcome, h]; exact complete_failedEarly s c⟩

/-- A command whose result function raises an error reports it. -/
theorem runCommand_fails (f : ResultFn) (s : State) (c : ErrCode) (hm : Memory.wf s.mem = true)
    (hsrc : SourceReadable s)
    (hf : f s.platform.maxLen (sourceString s) s.latch.aux = .error c) :
    ∃ t, runCommand f s = .next t ∧ FailedWith s t c := by
  obtain ⟨hp, hs⟩ := (sourceReadable_iff s).mp hsrc
  refine ⟨_, rfl, ?_⟩
  have ho : outcome f s = .fail c true := by
    simp only [outcome, hp, hs, sourceBytes_eq s hm, hf]
    simp
  rw [ho]
  exact complete_failedWith s c true

/-- The case of a result function without AUX and size limit. -/
theorem runPlain_fails (f : Bytes → Except ErrCode Bytes) (s : State) (c : ErrCode)
    (hm : Memory.wf s.mem = true) (hsrc : SourceReadable s) (hf : f (sourceString s) = .error c) :
    ∃ t, runCommand (plainResult f) s = .next t ∧ FailedWith s t c :=
  runCommand_fails (plainResult f) s c hm hsrc (by simp [plainResult, hf])

/-! ## Runs -/

/-- A fault ends the run: it is the mark that no later step clears (`60_exceptions.md` rule R330). -/
theorem run_add_fault (M : Host.Core) (s : M.State) (f : M.Fault) (k j : Nat)
    (h : M.run k s = .fault f) : M.run (k + j) s = .fault f := by
  induction k generalizing s with
  | zero => cases h
  | succ k ih =>
    rw [Nat.succ_add, Host.Core.run]
    rw [Host.Core.run] at h
    cases hs : M.step s with
    | next t => simp only [hs] at h ⊢; exact ih t h
    | fault g => simpa only [hs] using h
    | refused r => simp only [hs] at h; cases h

/-- A refusal ends the run (`60_exceptions.md` rule R331). -/
theorem run_add_refused (M : Host.Core) (s : M.State) (r : M.Refusal) (k j : Nat)
    (h : M.run k s = .refused r) : M.run (k + j) s = .refused r := by
  induction k generalizing s with
  | zero => cases h
  | succ k ih =>
    rw [Nat.succ_add, Host.Core.run]
    rw [Host.Core.run] at h
    cases hs : M.step s with
    | next t => simp only [hs] at h ⊢; exact ih t h
    | fault g => simp only [hs] at h; cases h
    | refused q => simpa only [hs] using h

end Sys2Proof.Machine
end

