-- ==== Sys2Proof/Tests/Slice0.lean ====
section
/-! SUPPORT. Tests: ill-formed terms, words written out from the spec, single steps whose results come from the
spec's worked examples, and for every statement with hypotheses a state and operands that meet them. -/

namespace Sys2Proof.Tests

open Sys2Proof.Machine Sys2Proof.Reference

/-! ## Well-formedness -/

theorem test_wf_refuses_pipeEnc_alg6 : Instr.wf (.pipeEnc 6) = false := by decide
theorem test_wf_refuses_pipeDec_alg6 : Instr.wf (.pipeDec 6) = false := by decide
theorem test_wf_refuses_pipeDec_alg255 : Instr.wf (.pipeDec 255) = false := by decide
theorem test_wf_takes_pipe_alg5 : Instr.wf (.pipeEnc 5) = true ∧ Instr.wf (.pipeDec 5) = true := by
  decide

/-! ## Decoding: words written out from `30_encoding.md` rules R92, R94, R95 -/

theorem test_decode_nop : decode 0x00000000 = .ok .nop := by decide
theorem test_decode_rle : decode 0x00000001 = .ok .rleEnc ∧ decode 0x00000002 = .ok .rleDec := by
  decide
theorem test_decode_delta :
    decode 0x00000003 = .ok .deltaEnc ∧ decode 0x00000004 = .ok .deltaDec := by decide
theorem test_decode_exe : decode 0x00000005 = .ok .exeFwd ∧ decode 0x00000006 = .ok .exeInv := by
  decide
theorem test_decode_mtf : decode 0x00000007 = .ok .mtfEnc ∧ decode 0x00000008 = .ok .mtfDec := by
  decide
theorem test_decode_bwt : decode 0x00000009 = .ok .bwtFwd ∧ decode 0x0000000A = .ok .bwtInv := by
  decide
theorem test_decode_lz : decode 0x0000000B = .ok .lzEnc ∧ decode 0x0000000C = .ok .lzDec := by
  decide
theorem test_decode_ac : decode 0x0000000D = .ok .acEnc ∧ decode 0x0000000E = .ok .acDec := by
  decide
/-- Rule R94's examples: PIPE_ENC BWT_MTF_ENTROPY and PIPE_DEC LZ_ENTROPY. -/
theorem test_decode_pipe :
    decode 0x00000410 = .ok (.pipeEnc 4) ∧ decode 0x00000111 = .ok (.pipeDec 1) := by decide
/-- Rule R98's example: PIPE_DEC RUN_ENTROPY writes 0x0000_0211. -/
theorem test_encode_pipe : encode (.pipeDec 2) = 0x00000211 := by decide
theorem test_decode_reserved_opcodes :
    decode 0x0000000F = .error .illegalCmd ∧ decode 0x00000012 = .error .illegalCmd ∧
      decode 0x000000FF = .error .illegalCmd := by decide
theorem test_decode_reserved_fields :
    decode 0x00010000 = .error .illegalCmd ∧ decode 0x00000101 = .error .illegalCmd := by decide
/-- D3: PIPE_DEC with ALG ≥ 6 is UNKNOWN_ALG, with a nonzero RSVD too; every other illegal word is
ILLEGAL_CMD. -/
theorem test_decode_unknown_alg :
    decode 0x00000610 = .error .illegalCmd ∧ decode 0x00000611 = .error .unknownAlg ∧
      decode 0x00010611 = .error .unknownAlg ∧ decode 0x00010511 = .error .illegalCmd := by decide
theorem test_decodeTableWord :
    decodeTableWord 16 0x0511 = some (.pipeDec 5) ∧ decodeTableWord 8 0x0E = some .acDec ∧
      decodeTableWord 32 0x00020000 = none := by decide

/-! ## Single commands -/

/-- Operands: a source at 0x1000, a destination of `cap` bytes at 0x2000. -/
def operands (cmd : Word) (n : Nat) (cap aux : Word) : Operands :=
  ⟨cmd, 0x1000, BitVec.ofNat 32 n, 0x2000, cap, aux⟩

/-- A machine running the command word `cmd` on the source bytes `src`. -/
def running (cmd : Word) (src : Bytes) (cap aux : Word) : State :=
  { State.reset with
    busy := true
    regs := operands cmd src.length cap aux, latch := operands cmd src.length cap aux
    mem := writeBytes [] 0x1000 src }

/-- What a command leaves: its output bytes, AUX and ERRCODE. -/
def leaves : Host.Outcome State Fault Refusal → Option (Bytes × Word × Option ErrCode)
  | .next t => some (readBytes t.mem 0x2000 t.outLen.toNat, t.regs.aux, t.errCode)
  | .fault _ => none
  | .refused _ => none

/-- A command run on source bytes, with capacity 64. -/
def runs (i : Instr) (src : Bytes) (aux : Word) : Option (Bytes × Word × Option ErrCode) :=
  leaves (exec i (running (encode i) src 64 aux))

/-- Rule R96. -/
theorem test_nop : runs .nop [1, 2] 7 = some ([], 7, none) := by decide
/-- Rule R262's example. -/
theorem test_rleEnc : runs .rleEnc [0x41, 0x41, 0x41, 0x42] 7 =
    some ([0xFF, 0x03, 0x41, 0x42], 7, none) := by decide
/-- Rule R262: a lone marker. -/
theorem test_rleEnc_marker : runs .rleEnc [0xFF] 0 = some ([0xFF, 0x01, 0xFF], 0, none) := by decide
/-- Rule R264's example. -/
theorem test_rleDec : runs .rleDec [0xFF, 0x03, 0x41, 0x42] 0 =
    some ([0x41, 0x41, 0x41, 0x42], 0, none) := by decide
/-- Rule R264: a marker without two following bytes. -/
theorem test_rleDec_truncated : runs .rleDec [0x41, 0xFF] 5 =
    some ([], 5, some .rleTruncated) := by decide
/-- Rule R271's example. -/
theorem test_deltaEnc : runs .deltaEnc [1, 2, 3, 4, 5, 7, 9, 0x0B] 0 =
    some ([1, 2, 3, 4, 4, 5, 6, 7], 0, none) := by decide
/-- Rule R271: the subtraction wraps. -/
theorem test_deltaEnc_wraps : runs .deltaEnc [0x10, 0, 0, 0, 5] 0 =
    some ([0x10, 0, 0, 0, 0xF5], 0, none) := by decide
/-- Rule R273's example. -/
theorem test_deltaDec : runs .deltaDec [1, 2, 3, 4, 4, 5, 6, 7] 0 =
    some ([1, 2, 3, 4, 5, 7, 9, 0x0B], 0, none) := by decide
/-- Rule R282: adjacent calls. -/
theorem test_exeFwd : runs .exeFwd (List.replicate 10 0xE8) 0 =
    some ([0xE8, 0xED, 0xE8, 0xE8, 0xE8, 0xE8, 0xF2, 0xE8, 0xE8, 0xE8], 0, none) := by decide
/-- Rule R283: the displacement −5 at index 1 becomes address 1. -/
theorem test_exeFwd_wraps : runs .exeFwd [0x90, 0xE8, 0xFB, 0xFF, 0xFF, 0xFF] 0 =
    some ([0x90, 0xE8, 1, 0, 0, 0], 0, none) := by decide
/-- Rule R284's example. -/
theorem test_exeInv : runs .exeInv [0xE8, 5, 0, 0, 0] 0 = some ([0xE8, 0, 0, 0, 0], 0, none) := by
  decide
/-- Rule R240's example, "banana". -/
theorem test_mtfEnc : runs .mtfEnc [0x62, 0x61, 0x6E, 0x61, 0x6E, 0x61] 0 =
    some ([0x62, 0x62, 0x6E, 1, 1, 1], 0, none) := by decide +kernel
/-- Rule R242's examples. -/
theorem test_mtfDec : runs .mtfDec [2, 2, 2] 0 = some ([2, 1, 0], 0, none) := by decide +kernel
/-- Rule R234's example, "banana": AUX becomes 3. -/
theorem test_bwtFwd : runs .bwtFwd [0x62, 0x61, 0x6E, 0x61, 0x6E, 0x61] 9 =
    some ([0x6E, 0x6E, 0x62, 0x61, 0x61, 0x61], 3, none) := by decide +kernel
/-- Rule R237's examples. -/
theorem test_bwtInv : runs .bwtInv [0x6E, 0x6E, 0x62, 0x61, 0x61, 0x61] 0 =
    some ([0x61, 0x62, 0x61, 0x6E, 0x61, 0x6E], 0, none) := by decide +kernel
theorem test_bwtInv_bad_index : runs .bwtInv [0x6E, 0x6E, 0x62, 0x61, 0x61, 0x61] 6 =
    some ([], 6, some .bwtBadIndex) := by decide
/-- Rule R200's example, "abcdabcdX". -/
theorem test_lzEnc :
    runs .lzEnc [0x61, 0x62, 0x63, 0x64, 0x61, 0x62, 0x63, 0x64, 0x58] 0 =
      some ([0, 0, 0, 0x61, 0, 0, 0, 0x62, 0, 0, 0, 0x63, 0, 0, 0, 0x64, 0, 4, 4, 0x58], 0, none) := by
  decide +kernel
/-- Rule R203's example. -/
theorem test_lzDec : runs .lzDec [0, 0, 0, 0x41, 0, 1, 5, 0x42] 0 =
    some ([0x41, 0x41, 0x41, 0x41, 0x41, 0x41, 0x42], 0, none) := by decide
/-- Rule R202: a distance beyond the bytes produced. -/
theorem test_lzDec_bad_token : runs .lzDec [0, 1, 1, 0x41] 0 = some ([], 0, some .lzBadToken) := by
  decide
/-- Rule R152's example: the coded bits of [0x61] are the one byte 0x61. -/
theorem test_acEnc_bits : codedBits (trainModel [0x61]) [0x61] = [0x61] := by decide +kernel
/-- Rule R164. -/
theorem test_acEnc_empty : runs .acEnc [] 3 = some ([], 3, none) := by decide
/-- Rule R159's example: the code byte 0x61 decodes to [0x61] under that model. -/
theorem test_acDec_bits :
    decodeFrom (trainModel [0x61]) 1 0 (initDecoder [0x61]) = [0x61] := by decide +kernel
/-- Rule R164. -/
theorem test_acDec_short : runs .acDec [] 3 = some ([], 3, some .acShortInput) := by decide
/-- Rule R304. -/
theorem test_pipeEnc_store : runs (.pipeEnc 0) [1, 2, 3] 0 = some ([1, 2, 3], 0, none) := by decide
/-- Rule R306. -/
theorem test_pipeEnc_empty : runs (.pipeEnc 4) [] 2 = some ([], 2, none) := by decide
theorem test_pipeDec_store : runs (.pipeDec 0) [1, 2, 3] 0 = some ([1, 2, 3], 0, none) := by decide
/-- Rule R303: a payload shorter than the AC header. -/
theorem test_pipeDec_short : runs (.pipeDec 3) [1] 0 = some ([], 0, some .acShortInput) := by decide

/-! ## Single steps of the host and the engine (`95_test_vectors.md`, vectors REG and ENG) -/

/-- STATUS and OUT_LEN after one engine step. -/
def statusAfter : Host.Outcome State Fault Refusal → Option (Word × Word)
  | .next t => some (statusWord t, t.outLen)
  | .fault _ => none
  | .refused _ => none

/-- The first step after a START of a command word. -/
theorem test_withFetchWord : statusAfter (step (State.reset.withFetchWord 8 0x0E)) =
    some (0x00001006, 0) := by decide
/-- ENG-3, ENG-7. -/
theorem test_engine_illegal :
    statusAfter (step (running 0x00010001 [1] 8 0)) = some (0x00000106, 0) ∧
      statusAfter (step (running 0x00000611 [1] 8 0)) = some (0x00005006, 0) := by decide
/-- ENG-12: a source that ends exactly at 2^32. -/
theorem test_engine_top_of_memory :
    statusAfter (step { State.reset with
      busy := true, latch := ⟨0x1, 0xFFFFFFFC, 4, 0x2000, 8, 0⟩
      mem := writeBytes [] 0xFFFFFFFC [0x41, 0x41, 0x41, 0x42] }) = some (0x00000002, 4) := by decide
/-- ENG-15: BAD_RANGE before OVERLAP. -/
theorem test_engine_bad_range_first :
    statusAfter (step { State.reset with
      busy := true, latch := ⟨0x1, 0xFFFFFFF0, 0x20, 0xFFFFFFF8, 4, 0⟩ }) =
      some (0x00000206, 0) := by decide
/-- ENG-13, ENG-14 (on a source of zeros, one triple): one shared byte overlaps, adjacent buffers do
not. -/
theorem test_engine_overlap :
    statusAfter (step { State.reset with
      busy := true, latch := ⟨0x1, 0x1000, 4, 0x1003, 1, 0⟩ }) = some (0x00000306, 0) ∧
    statusAfter (step { State.reset with
      busy := true, latch := ⟨0x1, 0x1000, 4, 0x1004, 4, 0⟩ }) = some (0x00000002, 3) := by decide
/-- ENG-19: an output of exactly DST_CAP bytes fits. -/
theorem test_engine_exact_capacity :
    statusAfter (step (running 0x1 [0x41, 0x42] 2 0)) = some (0x00000002, 2) := by decide

/-- REG-4: START with SOFT_RESET in one write resets only. -/
theorem test_start_with_soft_reset :
    hostDo (wr Platform.default .ctrl 0x3) { State.reset with irqEn := true, done := true } =
      .next State.reset := rfl
/-- REG-11: IRQ rises at once when IRQ_EN is set with DONE = 1. -/
theorem test_irq_en_after_done :
    hostDo (wr Platform.default .ctrl 0x4) { State.reset with done := true } =
      .next { State.reset with done := true, irqEn := true } := rfl
/-- REG-8: only DONE is cleared. -/
theorem test_status_write :
    hostDo (wr Platform.default .status 0xFFFFFFFF)
      { State.reset with done := true, errCode := some .dstOverflow } =
      .next { State.reset with errCode := some .dstOverflow } := rfl
/-- Rule R99: the words of ACK and RESET, and the pair that encodes a statement (rule R98). -/
theorem test_host_program_words :
    writeEncoding Platform.default (ack Platform.default) = some (0x0C, 0x2) ∧
      writeEncoding Platform.default (softReset Platform.default) = some (0x04, 0x2) ∧
      writeEncoding Platform.default (wr Platform.default .cmd (encode (.pipeDec 2))) =
        some (0x08, 0x211) := by decide
/-- Rule R99's expansion of RUN, and of RUN with AUX and IRQ, statement by statement. -/
theorem test_run_forms :
    run Platform.default .rleEnc ⟨1, 2, 3, 4⟩ =
      [wr Platform.default .srcAddr 1, wr Platform.default .srcLen 2,
       wr Platform.default .dstAddr 3, wr Platform.default .dstCap 4, wr Platform.default .cmd 0x1,
       wr Platform.default .ctrl 0x1, pollDone Platform.default] ∧
    runAuxIrq Platform.default .bwtInv ⟨1, 2, 3, 4⟩ 5 =
      [wr Platform.default .srcAddr 1, wr Platform.default .srcLen 2,
       wr Platform.default .dstAddr 3, wr Platform.default .dstCap 4, wr Platform.default .aux 5,
       wr Platform.default .cmd 0xA, wr Platform.default .ctrl 0x5, .waitIrq,
       rd Platform.default .status] := by decide


/-! ## Witnesses: the machine -/

theorem witness_IllegalWordsFail :
    decode 0x10E = .error .illegalCmd ∧ decode 0x10011 = .error .illegalCmd ∧
    ((running 0x0F [] 0 0).latch.cmd.extractLsb' 0 8).toNat = 0x0F ∧
    ((running 0x611 [] 0 0).latch.cmd.extractLsb' 0 8).toNat = 0x11 ∧
    6 ≤ ((running 0x611 [] 0 0).latch.cmd.extractLsb' 8 8).toNat ∧
    ((running 0x10611 [] 0 0).latch.cmd.extractLsb' 16 16).toNat ≠ 0 ∧
    6 ≤ ((running 0x10611 [] 0 0).latch.cmd.extractLsb' 8 8).toNat ∧
    ((running 0x511 [] 0 0).latch.cmd.extractLsb' 8 8).toNat = 5 := by decide

/-- A busy machine with one host access left and the engine, or the host, to move. -/
def racingState (a : Agent) : State :=
  { running (encode .nop) [] 0 0 with inputs := [.waitIrq], turns := [a] }

theorem witness_StepRunsTheDecodedCommand :
    (racingState .engine).busy = true ∧ decode (racingState .engine).latch.cmd = .ok .nop ∧
      (racingState .engine).turns.head? ≠ some .host ∧
      (running (encode .acDec) [] 0 0).inputs = [] ∧ Instr.wf (.pipeDec 5) = true := by decide

theorem witness_StepTakesTheHostsNextAccess :
    (racingState .host).inputs = .waitIrq :: [] ∧
      (racingState .host).turns.head? = some .host ∧
      State.reset.inputs = [] ∧ State.reset.busy = false := by decide

theorem running_nop_inv : Inv (running (encode .nop) [1, 2] 8 0) where
  memory := by decide
  platform := by decide
  busyNotDone := by decide
  busyNoError := by decide
  busyLatched := by decide
  errorNoOutput := by decide
  outputBounded := by decide
  dirtyInSpace := by decide

theorem witness_StepKeepsTheInvariant :
    Inv (running (encode .nop) [1, 2] 8 0) ∧
      ∃ t, step (running (encode .nop) [1, 2] 8 0) = .next t := ⟨running_nop_inv, _, rfl⟩

theorem witness_ResetGivesTheResetValues :
    (running (encode .rleEnc) [1] 8 0).platform.wf = true ∧ (0x2 : Word).getLsbD 1 = true ∧
      State.reset.busy = false := by decide

/-- An IDLE machine that is not coherent, with operands in place and dirty bytes in `d`. -/
def incoherent (cmd : Word) (d : List Range) : State :=
  { running cmd [1, 2] 8 0 with
    busy := false, platform := { Platform.default with dmaCoherent := false }, dirty := d }

/-- Rule R80: a START over an uncleaned source byte is a hazard, of NOP too. -/
theorem test_start_over_uncleaned_source :
    hostDo (wr Platform.default .ctrl 0x1) (incoherent (encode .nop) [⟨0x1001, 1⟩]) =
      .fault .coherenceHazard := rfl

/-- Rule R80: output seen complete and not invalidated is a hazard; the byte beside it is not. -/
theorem test_invalidate_before_reading :
    hostDo (.memRead 0x2000 1) { incoherent 0 [] with stale := [⟨0x2000, 1⟩] } =
      .fault .coherenceHazard ∧
    hostDo (.memRead 0x2001 1) { incoherent 0 [] with stale := [⟨0x2000, 1⟩] } =
      .next { incoherent 0 [] with
        stale := [⟨0x2000, 1⟩], observed := [.mem 0x2001 [0]], draws := 1 } := ⟨rfl, rfl⟩

theorem witness_StartAcceptsTheCommand :
    State.reset.platform.wf = true ∧ (0x5 : Word).getLsbD 0 = true ∧
      (0x5 : Word).getLsbD 1 = false ∧ State.reset.busy = false ∧
      State.reset.platform.dmaCoherent = true ∧
      meetsAny (incoherent (encode .rleEnc) [⟨0x1002, 4⟩]).dirty
        (incoherent (encode .rleEnc) [⟨0x1002, 4⟩]).regs.src = false ∧
      (0x4 : Word).getLsbD 0 = false ∧ (0x4 : Word).getLsbD 1 = false ∧
      (running (encode .rleEnc) [1] 8 0).busy = true := by decide

theorem witness_BusyWritesAreIgnored :
    (running (encode .rleEnc) [1] 8 0).platform.wf = true ∧
      (running (encode .rleEnc) [1] 8 0).busy = true ∧ (0x1 : Word).getLsbD 1 = false ∧
      (0x2 : Word).getLsbD 1 = true := by decide

theorem witness_OperandWritesReadBack :
    State.reset.platform.wf = true ∧ State.reset.busy = false ∧
      Reg.aux ∈ [Reg.cmd, .srcAddr, .srcLen, .dstAddr, .dstCap, .aux] ∧ Reg.cmd ≠ Reg.aux := by
  decide

theorem witness_StatusWriteClearsDone :
    (∃ t, engineStep (running (encode .nop) [] 0 0) = .next t) ∧
      State.reset.platform.wf = true ∧ State.reset.busy = false ∧ (0x2 : Word).getLsbD 1 = true ∧
      (0x1 : Word).getLsbD 1 = false := ⟨⟨_, rfl⟩, by decide⟩

theorem witness_IdIsConstant :
    State.reset.platform.wf = true ∧ Reg.outLen ≠ .status ∧ State.reset.done = false := by decide

theorem witness_ReservedOffsetsAndBits :
    State.reset.platform.wf = true ∧ (∀ off ∈ [0x28, 0xFC], 0x28 ≤ off ∧ off ≤ 0xFC ∧ off % 4 = 0) ∧
      State.reset.busy = false := by decide

theorem witness_StatusAndCtrlFields :
    ({ State.reset with errCode := some .pipeShort } : State).errCode = some .pipeShort ∧
      State.reset.errCode = none := by decide

theorem witness_IrqLine :
    (∃ t, engineStep (running (encode .nop) [] 0 0) = .next t) ∧
      (∀ v ∈ [(0x0 : Word), 0x1, 0x2], ∃ t, hostDo (wr State.reset.platform .ctrl v) State.reset =
        .next t) ∧
      (∃ t, hostDo .hardReset State.reset = .next t) ∧
      (∃ t, hostDo (wr State.reset.platform .status 2) State.reset = .next t) ∧
      irq { State.reset with irqEn := true, done := true } = true ∧ irq State.reset = false := by
  refine ⟨⟨_, rfl⟩, fun v hv => ?_, ⟨_, rfl⟩, ⟨_, rfl⟩, by decide, by decide⟩
  rcases List.mem_cons.mp hv with rfl | hv
  · exact ⟨_, rfl⟩
  · rcases List.mem_cons.mp hv with rfl | hv
    · exact ⟨_, rfl⟩
    · obtain rfl := List.mem_singleton.mp hv
      exact ⟨_, rfl⟩

/-- A platform with REG_BASE 0x100. -/
def based : State := { State.reset with platform := { Platform.default with regBase := 0x100 } }

theorem witness_AccessRefusals :
    (0xFF : Word).toNat < based.platform.regBase.toNat ∧
      based.platform.regBase.toNat + 256 ≤ (0x200 : Word).toNat ∧ based.platform.wf = true ∧
      based.platform.regBase.toNat ≤ (0x100 : Word).toNat ∧
      (0x1FF : Word).toNat < based.platform.regBase.toNat + 256 ∧ (0x1FF : Word).toNat % 4 ≠ 0 ∧
      (0x1FC : Word).toNat % 4 = 0 ∧
      step { based with inputs := [.regRead .byte 0x100] } = .refused .narrowRegisterAccess :=
  ⟨by decide, by decide, by decide, by decide, by decide, by decide, by decide, rfl⟩

/-- The source range is 0x1000, 0x1001; the destination range 0x2000 .. 0x2007. -/
theorem witness_BufferHazard :
    (running (encode .rleEnc) [1, 2] 8 0).busy = true ∧
      inRange (running (encode .rleEnc) [1, 2] 8 0).latch.src (0x0FFF + 1) = true ∧
      inRange (running (encode .rleEnc) [1, 2] 8 0).latch.dst (0x2007 + 0) = true ∧
      (∀ a ∈ [0x0FFF, 0x1002, 0x1FFF, 0x2008],
        inRange (running (encode .rleEnc) [1, 2] 8 0).latch.src a = false ∧
        inRange (running (encode .rleEnc) [1, 2] 8 0).latch.dst a = false) ∧
      (∀ k, k < 8 → inRange (running (encode .rleEnc) [1, 2] 8 0).latch.dst (0x2000 + k) = true) ∧
      step { running (encode .rleEnc) [1, 2] 8 0 with
        inputs := [.memWrite 0x2007 [1]], turns := [.host] } = .fault .bufferHazard :=
  ⟨by decide, by decide, by decide, by decide, by decide, rfl⟩

theorem witness_HostMemoryAccesses :
    State.reset.busy = false ∧ (0xFFFFFFFE + [(1 : Byte), 2].length ≤ 2 ^ 32) ∧
      ({ State.reset with done := true } : State).done = true ∧ State.reset.platform.wf = true ∧
      State.reset.platform.dmaCoherent = true ∧
      (∀ k, k < 2 → inRanges ({ State.reset with unsynced := [⟨5, 1⟩] } : State).unsynced (5 + k) =
          true ∨ inRanges ({ State.reset with abandoned := [⟨6, 1⟩] } : State).abandoned (5 + k) =
          true) ∧
      2 ^ 32 < 0xFFFFFFFF + 2 := by decide

theorem witness_CoherenceDuties :
    (incoherent (encode .rleEnc) [⟨0x1001, 1⟩]).platform.wf = true ∧
      (incoherent (encode .rleEnc) [⟨0x1001, 1⟩]).platform.dmaCoherent = false ∧
      (incoherent (encode .rleEnc) [⟨0x1001, 1⟩]).busy = false ∧
      (0x1 : Word).getLsbD 0 = true ∧ (0x1 : Word).getLsbD 1 = false ∧
      accessesMemory (running (encode .rleEnc) [1, 2] 8 0).platform
        (running (encode .rleEnc) [1, 2] 8 0).latch = true ∧
      (∀ k, k < 8 → inRange (running (encode .rleEnc) [1, 2] 8 0).latch.dst (0x2000 + k) = true) ∧
      (running (encode .rleEnc) [1, 2] 8 0).busy = true ∧
      inRanges (incoherent (encode .rleEnc) [⟨0x1001, 1⟩]).dirty 0x1001 = true ∧
      inRange (incoherent (encode .rleEnc) [⟨0x1001, 1⟩]).regs.src 0x1001 = true ∧
      inRanges ({ incoherent 0 [] with stale := [⟨0x2000, 1⟩] } : State).stale (0x2000 + 0) = true ∧
      inRanges ({ incoherent 0 [] with unsynced := [⟨0x2000, 1⟩] } : State).unsynced (0x2000 + 0) =
        true ∧
      ({ incoherent 0 [] with done := true } : State).done = true ∧
      (incoherent 0 []).unsynced = [] ∧ (incoherent 0 []).abandoned = [] ∧ State.reset.platform.dmaCoherent = true := by decide

theorem witness_PollWithoutStartNeverEnds :
    ({ State.reset with inputs := [pollDone State.reset.platform] } : State).inputs =
      [pollDone State.reset.platform] ∧ State.reset.platform.wf = true ∧
      State.reset.busy = false ∧ State.reset.done = false := by decide

theorem witness_CompletionIsReached :
    Inv (running (encode .nop) [1, 2] 8 0) ∧ (running (encode .nop) [1, 2] 8 0).busy = true :=
  ⟨running_nop_inv, rfl⟩

/-- A host about to run NOP in a form of RUN, with the host to win one race. -/
def aboutToRun (aux : Option Word) (irq : Bool) : State :=
  { State.reset with
    inputs := runStatement State.reset.platform .nop ⟨0, 0, 0, 0⟩ aux irq, turns := [.host] }

theorem aboutToRun_inv (aux : Option Word) (irq : Bool) : Inv (aboutToRun aux irq) where
  memory := rfl
  platform := rfl
  busyNotDone := fun h => by cases h
  busyNoError := fun h => by cases h
  busyLatched := fun h => by cases h
  errorNoOutput := fun h => absurd rfl h
  outputBounded := Nat.zero_le _
  dirtyInSpace := fun r hr => by cases hr

theorem witness_RunStatementCompletes :
    Inv (aboutToRun (some 7) true) ∧ Inv (aboutToRun none false) ∧ Instr.wf .nop = true ∧
      (aboutToRun (some 7) true).busy = false ∧
      (aboutToRun (some 7) true).inputs =
        runStatement (aboutToRun (some 7) true).platform .nop ⟨0, 0, 0, 0⟩ (some 7) true ∧
      (aboutToRun (some 7) true).platform.dmaCoherent = true ∧
      meetsAny (incoherent 0 [⟨8, 1⟩]).dirty ⟨(0 : Word).toNat, (8 : Word).toNat⟩ = false :=
  ⟨aboutToRun_inv _ _, aboutToRun_inv _ _, by decide, rfl, rfl, rfl, by decide⟩

/-! ## Witnesses: command application -/

/-- Running RLE_ENC with these operand addresses and lengths. -/
def ranged (src len dst cap : Word) : State :=
  { State.reset with busy := true, latch := ⟨encode .rleEnc, src, len, dst, cap, 0⟩ }

theorem witness_RangeChecksComeFirst :
    Instr.wf .rleEnc = true ∧ Instr.rleEnc ≠ .nop ∧
      ¬ NoWrap (ranged 0xFFFFFFFF 2 0 0).latch ∧ ¬ NoWrap (ranged 0 0 0xFFFFFFFF 2).latch ∧
      NoWrap (ranged 0xFFFFFFFF 1 0xFFFFFFFF 1).latch ∧
      ¬ NoOverlap (ranged 0xFFFFFFFF 1 0xFFFFFFFF 1).latch ∧
      ¬ NoOverlap (ranged 0 2 1 1).latch ∧ NoOverlap (ranged 0 2 2 1).latch ∧
      NoWrap (ranged 0 2 2 1).latch ∧
      ({ ranged 0 2 2 1 with platform := { Platform.default with maxLen := 1 } } :
        State).platform.maxLen < (ranged 0 2 2 1).latch.srcLen.toNat := by
  simp only [noOverlap_iff]
  unfold NoWrap
  decide

/-- Running LZ_ENC on one byte, on a platform with this MAX_LEN and these bus errors. -/
def onPlatform (maxLen : Nat) (bad : List Range) (cap : Word) : State :=
  { running (encode .lzEnc) [1] cap 0 with
    platform := { Platform.default with maxLen := maxLen, busErrors := bad } }

theorem witness_LaterChecksInOrder :
    (∃ f, resultOf .lzEnc = some f ∧
      f 4 (sourceString (onPlatform 4 [] 4)) 0 = .ok ⟨[0, 0, 0, 1], none⟩) ∧
    (∃ f, resultOf .rleDec = some f ∧
      f 4 (sourceString (running (encode .rleDec) [0xFF] 4 0)) 0 = .error .rleTruncated) ∧
    SourceReadable (running (encode .rleDec) [0xFF] 4 0) ∧
    SourceReadable (onPlatform 4 [] 4) ∧ OutputFits (onPlatform 4 [] 4) 4 ∧
    (onPlatform 3 [] 4).platform.maxLen < 4 ∧ SourceReadable (onPlatform 3 [] 4) ∧
    (onPlatform 4 [] 3).latch.dstCap.toNat < 4 ∧ SourceReadable (onPlatform 4 [] 3) ∧
    ¬ MemOK (onPlatform 4 [⟨0x1000, 1⟩] 4) (0x1000 + 0) ∧
    ¬ MemOK (onPlatform 4 [⟨0x2003, 1⟩] 4) (0x2000 + 3) ∧
    SourceReadable (onPlatform 4 [⟨0x2003, 1⟩] 4) ∧
    Memory.wf (onPlatform 4 [] 4).mem = true := by
  simp only [sourceReadable_iff, outputFits_iff, MemOK]
  exact ⟨⟨_, rfl, by decide⟩, ⟨_, rfl, by decide⟩, by decide⟩

theorem witness_EngineWritesAwaitTheHost :
    ∃ t, exec .rleEnc (running (encode .rleEnc) [1] 8 0) = .next t ∧ t.errCode = none :=
  ⟨_, rfl, by decide⟩

/-- The same command on the same source, with other memory elsewhere. -/
def elsewhere : State :=
  { running (encode .rleEnc) [1] 8 0 with
    mem := writeBytes (running (encode .rleEnc) [1] 8 0).mem 0x5000 [9], draws := 3 }

theorem witness_OutcomeIsDetermined :
    Memory.wf (running (encode .rleEnc) [1] 8 0).mem = true ∧ Memory.wf elsewhere.mem = true ∧
      (running (encode .rleEnc) [1] 8 0).latch = elsewhere.latch ∧
      sourceString (running (encode .rleEnc) [1] 8 0) = sourceString elsewhere ∧
      (∃ t, engineStep (running (encode .rleEnc) [1] 8 0) = .next t ∧ t.errCode = none) ∧
      ∃ t, engineStep elsewhere = .next t :=
  ⟨by decide, by decide, by decide, by decide, ⟨_, rfl, by decide⟩, _, rfl⟩

theorem witness_OnlyBwtUsesAux :
    (∃ t, exec .bwtFwd (running (encode .bwtFwd) [1] 0 7) = .next t ∧ t.errCode ≠ none) ∧
      ∃ t, exec .bwtFwd (running (encode .bwtFwd) [1] 8 7) = .next t ∧ Instr.bwtFwd ≠ .bwtInv :=
  ⟨⟨_, rfl, by decide⟩, _, rfl, by decide⟩

/-! ## Witnesses: commands -/

/-- A machine running `cmd` on the source `src` at address 0, its destination at 2^31. -/
def placed (cmd : Word) (src : Bytes) (cap aux : Word) : State :=
  { State.reset with
    busy := true
    latch := ⟨cmd, 0, BitVec.ofNat 32 src.length, 0x80000000, cap, aux⟩
    mem := writeBytes [] 0 src }

theorem placed_wf (cmd : Word) (src : Bytes) (cap aux : Word) (h : src.length ≤ 2 ^ 31) :
    Memory.wf (placed cmd src cap aux).mem = true :=
  writeBytes_wf _ _ _ Memory.wf_nil (by omega)

theorem placed_srcLen (cmd : Word) (src : Bytes) (cap aux : Word) (h : src.length ≤ 2 ^ 31) :
    (placed cmd src cap aux).latch.srcLen.toNat = src.length := by
  simp only [placed, BitVec.toNat_ofNat]
  omega

theorem placed_source (cmd : Word) (src : Bytes) (cap aux : Word) (h : src.length ≤ 2 ^ 31) :
    sourceString (placed cmd src cap aux) = src := by
  refine List.ext_getElem (by rw [length_sourceString, placed_srcLen _ _ _ _ h]) ?_
  intro k h1 h2
  have := readByte_writeBytes_inside [] 0 src k h2
  simp only [sourceString, List.getElem_map, List.getElem_range]
  rw [show (placed cmd src cap aux).mem = writeBytes [] 0 src from rfl,
    show (placed cmd src cap aux).latch.srcAddr.toNat = 0 from rfl, this]
  simp [List.getD, h2]

theorem placed_readable (cmd : Word) (src : Bytes) (cap aux : Word) (h : src.length ≤ 2 ^ 31)
    (hc : cap.toNat ≤ 2 ^ 31) : Readable (placed cmd src cap aux) := by
  have hl := placed_srcLen cmd src cap aux h
  refine ⟨placed_wf _ _ _ _ h, ⟨?_, ?_⟩, fun a => ?_, ?_, fun k _ => rfl⟩
  · rw [hl]
    simp only [placed, BitVec.ofNat_eq_ofNat, BitVec.toNat_ofNat]
    omega
  · simp only [placed, BitVec.toNat_ofNat, BitVec.ofNat_eq_ofNat]
    omega
  · rw [hl]
    simp only [placed, BitVec.ofNat_eq_ofNat, BitVec.toNat_ofNat]
    omega
  · rw [hl]
    simp only [placed, State.reset, Platform.default]
    omega

theorem placed_runnable (cmd : Word) (src : Bytes) (cap aux : Word) (n : Nat)
    (h : src.length ≤ 2 ^ 31) (hc : cap.toNat ≤ 2 ^ 31) (hn : n ≤ cap.toNat) :
    Runnable (placed cmd src cap aux) n := by
  obtain ⟨hm, hs⟩ := placed_readable cmd src cap aux h hc
  refine ⟨hm, hs, ?_, hn, fun k _ => rfl⟩
  have := cap.isLt
  simp only [placed, State.reset, Platform.default]
  omega

/-- A five-byte source with room for five bytes of output. -/
theorem five_runnable (cmd : Word) :
    Runnable (placed cmd [1, 2, 3, 4, 5] 5 0)
      (placed cmd [1, 2, 3, 4, 5] 5 0).latch.srcLen.toNat :=
  placed_runnable cmd [1, 2, 3, 4, 5] 5 0 5 (by decide) (by decide) (by decide)

theorem witness_NopCompletes :
    Memory.wf (placed (encode .nop) [1] 1 0).mem = true ∧
      ((0x0F : Word).extractLsb' 0 8).toNat = 0x0F ∧ 0x12 ≤ ((0x12 : Word).extractLsb' 0 8).toNat :=
  ⟨placed_wf _ _ _ _ (by decide), by decide, by decide⟩

theorem witness_RleEncEmitsMaximalRuns :
    sourceString (placed (encode .rleEnc) [0x41] 1 0) = List.replicate 1 0x41 ∧
      Runnable (placed (encode .rleEnc) [0x41] 1 0) [(0x41 : Byte)].length :=
  ⟨placed_source _ _ _ _ (by decide), placed_runnable _ _ _ _ _ (by decide) (by decide) (by decide)⟩

theorem witness_RleDecExpandsMarkers :
    (rleLoop (sourceString (placed (encode .rleDec) [0xFF, 1, 0x41] 1 0)) 3 0 [] = .ok [0x41] ∧
      Runnable (placed (encode .rleDec) [0xFF, 1, 0x41] 1 0) 1) ∧
    (rleLoop (sourceString (placed (encode .rleDec) [0xFF, 0, 0x41] 1 0)) 3 0 [] =
        .error .rleZeroRun ∧
      Readable (placed (encode .rleDec) [0xFF, 0, 0x41] 1 0)) := by
  rw [placed_source _ _ _ _ (by decide), placed_source _ _ _ _ (by decide)]
  exact ⟨⟨by rfl, placed_runnable _ _ _ _ _ (by decide) (by decide) (by decide)⟩, by rfl,
    placed_readable _ _ _ _ (by decide) (by decide)⟩

theorem witness_DeltaEncSubtracts :
    Runnable (placed (encode .deltaEnc) [1, 2, 3, 4, 5] 5 0)
      (placed (encode .deltaEnc) [1, 2, 3, 4, 5] 5 0).latch.srcLen.toNat := five_runnable _
theorem witness_DeltaDecAdds :
    Runnable (placed (encode .deltaDec) [1, 2, 3, 4, 5] 5 0)
      (placed (encode .deltaDec) [1, 2, 3, 4, 5] 5 0).latch.srcLen.toNat := five_runnable _
theorem witness_ExeFwdRewritesCalls :
    Runnable (placed (encode .exeFwd) [1, 2, 3, 4, 5] 5 0)
      (placed (encode .exeFwd) [1, 2, 3, 4, 5] 5 0).latch.srcLen.toNat := five_runnable _
theorem witness_ExeInvRewritesCalls :
    Runnable (placed (encode .exeInv) [1, 2, 3, 4, 5] 5 0)
      (placed (encode .exeInv) [1, 2, 3, 4, 5] 5 0).latch.srcLen.toNat := five_runnable _
theorem witness_MtfEncFollowsTheList :
    Runnable (placed (encode .mtfEnc) [1, 2, 3, 4, 5] 5 0)
      (placed (encode .mtfEnc) [1, 2, 3, 4, 5] 5 0).latch.srcLen.toNat := five_runnable _
theorem witness_MtfDecFollowsTheList :
    Runnable (placed (encode .mtfDec) [1, 2, 3, 4, 5] 5 0)
      (placed (encode .mtfDec) [1, 2, 3, 4, 5] 5 0).latch.srcLen.toNat := five_runnable _
theorem witness_BwtFwdSortsRotations :
    Runnable (placed (encode .bwtFwd) [1, 2, 3, 4, 5] 5 0)
      (placed (encode .bwtFwd) [1, 2, 3, 4, 5] 5 0).latch.srcLen.toNat := five_runnable _
theorem witness_StoreCopies :
    Runnable (placed (encode (.pipeEnc 0)) [1, 2, 3, 4, 5] 5 0)
      (placed (encode (.pipeEnc 0)) [1, 2, 3, 4, 5] 5 0).latch.srcLen.toNat := five_runnable _

/-- The index at its boundaries: 0 and 1 for no bytes, 1 and 2 for two. -/
theorem witness_BwtInvWalks :
    (sourceString (placed (encode .bwtInv) [] 2 1) = [] ∧
      (placed (encode .bwtInv) [] 2 1).latch.aux.toNat ≠ 0 ∧
      Readable (placed (encode .bwtInv) [] 2 1)) ∧
    (sourceString (placed (encode .bwtInv) [1, 2] 2 2) = [1, 2] ∧
      2 ≤ (placed (encode .bwtInv) [1, 2] 2 2).latch.aux.toNat ∧
      Readable (placed (encode .bwtInv) [1, 2] 2 2)) ∧
    ((placed (encode .bwtInv) [] 2 0).latch.aux.toNat = 0 ∧
      Runnable (placed (encode .bwtInv) [] 2 0) 0) ∧
    ((placed (encode .bwtInv) [1, 2] 2 1).latch.aux.toNat < 2 ∧
      Runnable (placed (encode .bwtInv) [1, 2] 2 1) 2) :=
  ⟨⟨placed_source _ _ _ _ (by decide), by decide,
      placed_readable _ _ _ _ (by decide) (by decide)⟩,
    ⟨placed_source _ _ _ _ (by decide), by decide,
      placed_readable _ _ _ _ (by decide) (by decide)⟩,
    ⟨by decide, placed_runnable _ _ _ _ _ (by decide) (by decide) (by decide)⟩,
    by decide, placed_runnable _ _ _ _ _ (by decide) (by decide) (by decide)⟩

theorem witness_LzEncEmitsTheTokenStream :
    TokenStream (sourceString (placed (encode .lzEnc) [1] 4 0)) 0 [⟨0, 0, 1⟩] ∧
      Runnable (placed (encode .lzEnc) [1] 4 0) 4 := by
  rw [placed_source _ _ _ _ (by decide)]
  exact ⟨⟨by decide, by decide, rfl⟩,
    placed_runnable _ _ _ _ _ (by decide) (by decide) (by decide)⟩

theorem witness_LzDecReplaysTokens :
    (sourceString (placed (encode .lzDec) [0, 0, 0] 1 0)).length % 4 ≠ 0 ∧
    Readable (placed (encode .lzDec) [0, 0, 0] 1 0) ∧
    (sourceString (placed (encode .lzDec) [0, 0, 0, 1] 1 0)).length % 4 = 0 ∧
    replayLoop (sourceString (placed (encode .lzDec) [0, 0, 0, 1] 1 0)) 1 0 [] = .ok [1] ∧
    Runnable (placed (encode .lzDec) [0, 0, 0, 1] 1 0) 1 ∧
    replayLoop (sourceString (placed (encode .lzDec) [0, 1, 0, 1] 1 0)) 1 0 [] =
      .error .lzBadToken ∧
    Readable (placed (encode .lzDec) [0, 1, 0, 1] 1 0) := by
  rw [placed_source _ _ _ _ (by decide), placed_source _ _ _ _ (by decide),
    placed_source _ _ _ _ (by decide)]
  exact ⟨by decide, placed_readable _ _ _ _ (by decide) (by decide), by decide, by rfl,
    placed_runnable _ _ _ _ _ (by decide) (by decide) (by decide), by rfl,
    placed_readable _ _ _ _ (by decide) (by decide)⟩

/-- Literal tokens at the start, then a match of the least length at the greatest distance it can
have. -/
theorem witness_LzTokensAreSound :
    lzTokens [1, 2, 3, 1, 2, 3, 9] =
      [⟨0, 0, 1⟩, ⟨0, 0, 2⟩, ⟨0, 0, 3⟩] ++ ⟨3, 3, 9⟩ :: [] := by decide +kernel

/-! ## Witnesses: the arithmetic coder -/

theorem cumOf_le (freq : Nat → Nat → Nat) (t b : Nat) (h : ∀ s, freq t s ≤ b) (n : Nat) :
    cumOf freq t n ≤ n * b := by
  unfold cumOf
  induction n with
  | zero => simp
  | succ n ih =>
    rw [List.range_succ, List.map_append, List.sum_append, Nat.succ_mul]
    have := h n
    simp only [List.map_cons, List.map_nil, List.sum_cons, List.sum_nil]
    omega

theorem le_cumOf (freq : Nat → Nat → Nat) (t : Nat) (h : ∀ s, 1 ≤ freq t s) (n : Nat) :
    freq t 0 + n ≤ cumOf freq t (n + 1) := by
  unfold cumOf
  induction n with
  | zero => simp [List.range_succ]
  | succ n ih =>
    rw [List.range_succ, List.map_append, List.sum_append]
    have := h (n + 1)
    simp only [List.map_cons, List.map_nil, List.sum_cons, List.sum_nil]
    omega

theorem trainedCount_le (P : Bytes) (t s : Nat) : trainedCount P t s ≤ 1 + P.length := by
  unfold trainedCount
  have := List.length_filter_le
    (fun i => (tableAt P i == t) && ((byteIn P i).toNat == s)) (List.range P.length)
  rw [List.length_range] at this
  omega

theorem small_total (P : Bytes) (h : P.length < 2 ^ 20) : ¬ SomeTotalOver (trainedCount P) := by
  rintro ⟨t, -, ht⟩
  have := cumOf_le (trainedCount P) t (1 + P.length) (trainedCount_le P t) 256
  omega

/-- In a string of zeros every byte but the first is counted in table 1. -/
theorem trainedCount_zeros (n : Nat) : n ≤ trainedCount (List.replicate n 0) 1 0 := by
  unfold trainedCount
  rw [List.length_replicate]
  have h : ∀ i, i < n → byteIn (List.replicate n 0) i = 0 := fun i hi => by
    simp [byteIn, List.getD, hi]
  generalize hp : (fun i => (tableAt (List.replicate n 0) i == 1) &&
    ((byteIn (List.replicate n 0) i).toNat == 0)) = p
  have used : ∀ j, j + 1 < n → p (j + 1) = true := fun j hj => by
    rw [← hp]
    simp only [tableAt, h j (by omega), h (j + 1) hj]
    rfl
  suffices ∀ m, m ≤ n → m ≤ 1 + ((List.range m).filter p).length from this n (Nat.le_refl n)
  intro m hm
  induction m with
  | zero => omega
  | succ m ih =>
    cases m with
    | zero => omega
    | succ j =>
      have := ih (by omega)
      rw [List.range_succ, List.filter_append, List.length_append,
        List.filter_cons_of_pos (used j (by omega)), List.filter_nil, List.length_singleton]
      omega

/-- The least number of zeros that is too much for AC_ENC (rule R145: `2^30 − 255`). -/
def tooManyZeros : Bytes := List.replicate (2 ^ 30 - 255) 0

theorem tooManyZeros_length : tooManyZeros.length = 2 ^ 30 - 255 := List.length_replicate

theorem tooManyZeros_over : SomeTotalOver (trainedCount tooManyZeros) := by
  refine ⟨1, by decide, ?_⟩
  have h1 : trainedCount tooManyZeros 1 0 + 255 ≤ cumOf (trainedCount tooManyZeros) 1 256 :=
    le_cumOf (trainedCount tooManyZeros) 1 (fun s => by unfold trainedCount; omega) 255
  have h2 : 2 ^ 30 - 255 ≤ trainedCount tooManyZeros 1 0 := trainedCount_zeros (2 ^ 30 - 255)
  omega

theorem length_flatMap_range (g : Nat → Bytes) (c : Nat) (h : ∀ i, (g i).length = c) (n : Nat) :
    ((List.range n).flatMap g).length = n * c := by
  induction n with
  | zero => simp
  | succ n ih =>
    rw [List.range_succ, List.flatMap_append, List.length_append, ih, Nat.succ_mul]
    simp [h n]

theorem length_modelBytes (freq : Nat → Nat → Nat) : (modelBytes freq).length = 257 * (256 * 4) :=
  length_flatMap_range _ _ (fun _ => length_flatMap_range _ 4 (fun _ => rfl) 256) 257

theorem length_coded_one : (packBits (encBits [0x61])).length = 1 := by decide +kernel

theorem length_acStream_one : (acStream [0x61]).length = 263173 := by
  rw [acStream, List.length_append, List.length_append, length_modelBytes, length_coded_one]
  rfl

theorem witness_AcEncFollowsTheRules :
    (sourceString (placed (encode .acEnc) [] 0 0) = [] ∧
      Runnable (placed (encode .acEnc) [] 0 0) 0) ∧
    (sourceString (placed (encode .acEnc) tooManyZeros 0 0) ≠ [] ∧
      SomeTotalOver (trainedCount (sourceString (placed (encode .acEnc) tooManyZeros 0 0))) ∧
      Readable (placed (encode .acEnc) tooManyZeros 0 0)) ∧
    (sourceString (placed (encode .acEnc) [0x61] 263173 0) ≠ [] ∧
      ¬ SomeTotalOver (trainedCount (sourceString (placed (encode .acEnc) [0x61] 263173 0))) ∧
      Runnable (placed (encode .acEnc) [0x61] 263173 0)
        (acStream (sourceString (placed (encode .acEnc) [0x61] 263173 0))).length) := by
  have hz : tooManyZeros.length ≤ 2 ^ 31 := by rw [tooManyZeros_length]; omega
  rw [placed_source _ _ _ _ (by decide), placed_source _ _ _ _ hz,
    placed_source _ _ _ _ (by decide), length_acStream_one]
  refine ⟨⟨rfl, placed_runnable _ _ _ _ _ (by decide) (by decide) (by decide)⟩,
    ⟨fun h => ?_, tooManyZeros_over, placed_readable _ _ _ _ hz (by decide)⟩,
    by decide, small_total _ (by decide),
    placed_runnable _ _ _ _ _ (by decide) (by decide) (by decide)⟩
  have := tooManyZeros_length
  rw [h, List.length_nil] at this
  omega

/-- An AC stream with every count 1 and length field `n`, and no code bytes. -/
def flatStream (n : Nat) : Bytes :=
  (List.range 263168).map (fun i => if i % 4 = 3 then 1 else 0) ++ be32 n

theorem flatStream_length (n : Nat) : (flatStream n).length = 263172 := by
  rw [flatStream, List.length_append, List.length_map, List.length_range]
  rfl

theorem flatStream_byte (n i : Nat) (hi : i < 263168) :
    byteIn (flatStream n) i = if i % 4 = 3 then 1 else 0 := by
  have hl : i < ((List.range 263168).map (fun i => if i % 4 = 3 then (1 : Byte) else 0)).length := by
    rw [List.length_map, List.length_range]; exact hi
  rw [byteIn, flatStream, List.getD_append _ _ _ _ hl, List.getD_eq_getElem _ _ hl]
  simp only [List.getElem_map, List.getElem_range]

theorem flatStream_count (n t s : Nat) (ht : t < 257) (hs : s < 256) :
    loadedCount (flatStream n) t s = 1 := by
  unfold loadedCount rdBe32
  rw [flatStream_byte n _ (by omega), flatStream_byte n _ (by omega),
    flatStream_byte n _ (by omega), flatStream_byte n _ (by omega),
    if_neg (by omega), if_neg (by omega), if_neg (by omega), if_pos (by omega)]
  rfl

theorem flatStream_field (n : Nat) : rdBe32 (flatStream n) 263168 =
    ofBe32 (byteAt n 3) (byteAt n 2) (byteAt n 1) (byteAt n 0) := by
  have hb : ∀ i, 263168 ≤ i → byteIn (flatStream n) i = (be32 n).getD (i - 263168) 0 :=
    fun i hi => by
      rw [byteIn, flatStream, List.getD_append_right _ _ _ _
        (by rw [List.length_map, List.length_range]; exact hi), List.length_map, List.length_range]
  unfold rdBe32
  rw [hb _ (by omega), hb _ (by omega), hb _ (by omega), hb _ (by omega)]
  rfl

theorem flatStream_good (n : Nat) :
    ¬ ((∃ t k, t < 257 ∧ k < 256 ∧ loadedCount (flatStream n) t k = 0) ∨
      SomeTotalOver (loadedCount (flatStream n))) := by
  rintro (⟨t, k, ht, hk, h⟩ | ⟨t, ht, h⟩)
  · rw [flatStream_count n t k ht hk] at h
    omega
  · have : cumOf (loadedCount (flatStream n)) t 256 = 256 := by
      unfold cumOf
      rw [List.map_congr_left (g := fun _ => 1)
        (fun k hk => flatStream_count n t k ht (List.mem_range.mp hk)),
        List.map_const', List.sum_replicate, List.length_range]
      rfl
    omega

/-- Sources at the boundaries: one byte short of a header; a header of zeros; every count 1 with
length field 0, 1 over a MAX_LEN of 263172, and 1. -/
theorem witness_AcDecFollowsTheRules :
    ((List.replicate 263171 (0 : Byte)).length < 263172 ∧
      Readable (placed (encode .acDec) (List.replicate 263171 0) 0 0)) ∧
    (263172 ≤ (List.replicate 263172 (0 : Byte)).length ∧
      loadedCount (List.replicate 263172 0) 0 0 = 0 ∧
      Readable (placed (encode .acDec) (List.replicate 263172 0) 0 0)) ∧
    (263172 ≤ (sourceString (placed (encode .acDec) (flatStream 0) 0 0)).length ∧
      rdBe32 (sourceString (placed (encode .acDec) (flatStream 0) 0 0)) 263168 = 0 ∧
      Readable (placed (encode .acDec) (flatStream 0) 0 0)) ∧
    (({ placed (encode .acDec) (flatStream 263173) 0 0 with
        platform := { Platform.default with maxLen := 263172 } } : State).platform.maxLen <
          rdBe32 (flatStream 263173) 263168 ∧
      Readable { placed (encode .acDec) (flatStream 263173) 0 0 with
        platform := { Platform.default with maxLen := 263172 } }) ∧
    (0 < rdBe32 (sourceString (placed (encode .acDec) (flatStream 1) 1 0)) 263168 ∧
      Runnable (placed (encode .acDec) (flatStream 1) 1 0)
        (rdBe32 (sourceString (placed (encode .acDec) (flatStream 1) 1 0)) 263168)) := by
  have hl : ∀ n, (flatStream n).length ≤ 2 ^ 31 := fun n => by rw [flatStream_length]; omega
  have h1 : (List.replicate 263171 (0 : Byte)).length ≤ 2 ^ 31 := by
    rw [List.length_replicate]; omega
  have h2 : (List.replicate 263172 (0 : Byte)).length ≤ 2 ^ 31 := by
    rw [List.length_replicate]; omega
  rw [placed_source _ _ _ _ (hl 0), placed_source _ _ _ _ (hl 1), flatStream_field,
    flatStream_field, flatStream_field, flatStream_length, List.length_replicate,
    List.length_replicate]
  refine ⟨⟨by omega, placed_readable _ _ _ _ h1 (by decide)⟩,
    ⟨Nat.le_refl _, ?_, placed_readable _ _ _ _ h2 (by decide)⟩,
    ⟨Nat.le_refl _, by decide, placed_readable _ _ _ _ (hl 0) (by decide)⟩,
    ⟨by decide, ?_⟩, by decide,
    placed_runnable _ _ _ _ _ (hl 1) (by decide) (by decide)⟩
  · have hz : ∀ i, i < 263172 → byteIn (List.replicate 263172 0) i = 0 := fun i hi => by
      rw [byteIn, List.getD_eq_getElem _ _ (by rw [List.length_replicate]; exact hi),
        List.getElem_replicate]
    unfold loadedCount rdBe32
    rw [hz _ (by omega), hz _ (by omega), hz _ (by omega), hz _ (by omega)]
    rfl
  · obtain ⟨hm, hw, ho, -, hb⟩ :=
      placed_readable (encode .acDec) (flatStream 263173) 0 0 (hl _) (by decide)
    refine ⟨hm, hw, ho, ?_, hb⟩
    have := placed_srcLen (encode .acDec) (flatStream 263173) 0 0 (hl _)
    rw [flatStream_length] at this
    simp only at this ⊢
    omega

theorem witness_AcCoderInvariants :
    UsableTable (List.replicate 256 1) ∧ UsableTable ((0x3FFFFFFF - 255) :: List.replicate 255 1) ∧
      Settled fullInterval ∧ Settled ⟨2 ^ 30 - 1, 2 ^ 31⟩ ∧
      renormCase ⟨0, 2 ^ 31 - 1⟩ ≠ .settled ∧ renormCase ⟨2 ^ 31, 2 ^ 31⟩ ≠ .settled ∧
      renormCase ⟨2 ^ 30, 3 * 2 ^ 30 - 1⟩ ≠ .settled ∧
      (initDecoder []).interval = fullInterval ∧
      fullInterval.low ≤ (initDecoder []).value ∧ (initDecoder []).value ≤ fullInterval.high := by
  unfold UsableTable Settled
  decide +kernel

theorem witness_BitPackerRoundTrip : 0 < [true].length := by decide

/-! ## Witnesses: pipelines and round trips -/

theorem length_flatMap_be32 (tb : FreqTable) : (tb.flatMap be32).length = tb.length * 4 := by
  induction tb with
  | nil => rfl
  | cons c tb ih => simp [ih, be32]; omega

theorem length_serializeModel (m : FreqModel) :
    (serializeModel m).length = (m.map (fun tb => tb.length * 4)).sum := by
  rw [serializeModel, List.length_flatMap]
  congr 1
  exact List.map_congr_left (fun tb _ => length_flatMap_be32 tb)

/-- A pipeline of one byte that ends in the entropy coder. -/
theorem acEncode_one : ∃ D, acEncode [0x61] = .ok D ∧ D.length = 263173 := by
  refine ⟨serializeModel (trainModel [0x61]) ++ be32 ([0x61] : Bytes).length ++
    codedBits (trainModel [0x61]) [0x61], ?_, ?_⟩
  · unfold acEncode
    rw [if_neg (by decide), if_neg (by decide +kernel)]
  · have hc : (codedBits (trainModel [0x61]) [0x61]).length = 1 := by decide +kernel
    have hm : ((trainModel [0x61]).map (fun tb => tb.length * 4)).sum = 263168 := by decide +kernel
    rw [List.length_append, List.length_append, length_serializeModel, hm, hc]
    rfl

theorem encodeColumn_run (maxLen : Nat) (S : Bytes) (h : (rleEncode S).length ≤ maxLen) :
    encodeColumn maxLen S 2 = acEncode (rleEncode S) := by
  simp only [encodeColumn, within, if_pos h]
  rfl

theorem pipeEncode_run (maxLen : Nat) (S D : Bytes) (h0 : S.length ≠ 0)
    (h : (rleEncode S).length ≤ maxLen) (hD : acEncode (rleEncode S) = .ok D)
    (hl : D.length ≤ maxLen) : pipeEncode maxLen .runEntropy S = .ok D := by
  simp only [pipeEncode, encStages, runStages, boundedStage, if_neg h0, hD,
    if_neg (Nat.not_lt.mpr h), if_neg (Nat.not_lt.mpr hl)]

theorem rleEncode_one : rleEncode [0x61] = [0x61] := by decide

theorem witness_PipeEncComposesStages :
    (∃ D, (if sourceString (placed (encode (.pipeEnc 2)) [0x61] 263173 0) = [] then .ok []
        else encodeColumn (placed (encode (.pipeEnc 2)) [0x61] 263173 0).platform.maxLen
          (sourceString (placed (encode (.pipeEnc 2)) [0x61] 263173 0)) (2 : BitVec 8).toNat) =
          .ok D ∧
      Runnable (placed (encode (.pipeEnc 2)) [0x61] 263173 0) D.length) ∧
    encodeColumn 3 [0x61] (1 : BitVec 8).toNat = .error .tooLarge ∧
    Readable (placed (encode (.pipeEnc 1)) [0x61] 0 0) ∧ algKnown 5 = true ∧
    6 ≤ (6 : BitVec 8).toNat := by
  obtain ⟨D, hD, hl⟩ := acEncode_one
  rw [placed_source _ _ _ _ (by decide)]
  refine ⟨⟨D, ?_, ?_⟩, by rfl, placed_readable _ _ _ _ (by decide) (by decide), by decide,
    by decide⟩
  · rw [if_neg (by decide), ← hD, ← rleEncode_one]
    exact encodeColumn_run _ [0x61] (by decide)
  · rw [hl]
    exact placed_runnable _ _ _ _ _ (by decide) (by decide) (by decide)

theorem witness_PipeDecComposesStages :
    (decodeColumn (placed (encode (.pipeDec 0)) [1] 1 0).platform.maxLen
        (sourceString (placed (encode (.pipeDec 0)) [1] 1 0)) (0 : BitVec 8).toNat = .ok [1] ∧
      sourceString (placed (encode (.pipeDec 0)) [1] 1 0) ≠ [] ∧
      Runnable (placed (encode (.pipeDec 0)) [1] 1 0) 1) ∧
    decodeColumn 8 [1] (4 : BitVec 8).toNat = .error .acShortInput ∧
    Readable (placed (encode (.pipeDec 4)) [1] 0 0) ∧ algKnown 5 = true ∧
    6 ≤ (6 : BitVec 8).toNat := by
  rw [placed_source _ _ _ _ (by decide)]
  exact ⟨⟨by rfl, by decide, placed_runnable _ _ _ _ _ (by decide) (by decide) (by decide)⟩,
    by rfl, placed_readable _ _ _ _ (by decide) (by decide), by decide, by decide⟩

theorem witness_PipelinesOfNothing :
    algKnown 5 = true ∧ (placed (encode (.pipeEnc 5)) [] 0 0).latch.srcLen = 0 ∧
      Runnable (placed (encode (.pipeEnc 5)) [] 0 0) 0 :=
  ⟨by decide, rfl, placed_runnable _ _ _ _ _ (by decide) (by decide) (by decide)⟩

theorem witness_AcRoundTrip :
    1 < 2 ^ 32 ∧ ([0x61] : Bytes) ≠ [] ∧ ([0x61] : Bytes).length ≤ 1 ∧
      ¬ SomeTotalOver (trainedCount [0x61]) := ⟨by decide, by decide, by decide, small_total _ (by decide)⟩

theorem witness_PipelineRoundTrip :
    ∃ D, pipeEncode 263173 .runEntropy [0x61] = .ok D ∧ ([0x61] : Bytes).length ≤ 263173 := by
  obtain ⟨D, hD, hl⟩ := acEncode_one
  exact ⟨D, pipeEncode_run 263173 [0x61] D (by decide) (by decide)
    (by rw [rleEncode_one]; exact hD) (by omega), by decide⟩

end Sys2Proof.Tests
end

/-! PROOFS. The scope family: a step of the host performs its next access, and every step keeps the
invariant. -/

namespace Sys2Proof.Machine

/-! ## The host's turn (`70_reset_and_hazards.md` rule R368) -/

theorem nextAgent_host (s : State) (op : HostOp) (rest : List HostOp) (hi : s.inputs = op :: rest)
    (ht : s.busy = false ∨ s.turns.head? = some .host) : nextAgent s = some .host := by
  cases hb : s.busy with
  | false => simp [nextAgent, racing, hi, hb]
  | true =>
    obtain ⟨rest', hr⟩ : ∃ rest', s.turns = .host :: rest' :=
      List.head?_eq_some_iff.mp (ht.resolve_left (by simp [hb]))
    simp [nextAgent, racing, hi, hb, hr]

theorem nextAgent_none (s : State) (hi : s.inputs = []) (hb : s.busy = false) :
    nextAgent s = none := by
  simp [nextAgent, racing, hi, hb]

/-- With an access left there is a race exactly while BUSY = 1, so only then a turn is used up. -/
theorem takeTurn_of_access_left (s : State) (op : HostOp) (rest : List HostOp)
    (hi : s.inputs = op :: rest) :
    takeTurn s = { s with turns := if s.busy = true then s.turns.tail else s.turns } := by
  have hrace : racing s = s.busy := by simp [racing, hi]
  rw [takeTurn, hrace]
  by_cases hb : s.busy = true
  · rw [if_pos hb, if_pos hb]
  · rw [if_neg hb, if_neg hb]

theorem hostStep_cons (s : State) (op : HostOp) (rest : List HostOp) (hi : s.inputs = op :: rest) :
    hostStep s = hostDo op { s with inputs := rest } := by
  rw [hostStep, hi]

/-- Settles O5: the schedule names the host, and its step is its next access. -/
theorem stepTakesTheHostsNextAccess : Obligations.StepTakesTheHostsNextAccess := by
  refine ⟨fun s op rest hi ht => ?_, fun s hi hb => ?_⟩
  · have hn : nextAgent s = some .host := nextAgent_host s op rest hi ht
    rw [step, hn]
    show hostStep (takeTurn s) = _
    rw [hostStep_cons (takeTurn s) op rest (by simpa using hi),
      takeTurn_of_access_left s op rest hi]
  · rw [step, nextAgent_none s hi hb]

/-! ## Lists of ranges inside the address space -/

/-- What is left of a range ends no later than the range. -/
theorem rangeMinus_end_le (r q p : Range) (h : p ∈ rangeMinus r q) :
    p.base + p.size ≤ r.base + r.size := by
  unfold rangeMinus at h
  split at h
  · rename_i hmeet
    simp only [rangesMeet, Bool.and_eq_true, decide_eq_true_eq] at hmeet
    simp only [List.mem_filter, List.mem_cons, List.not_mem_nil, or_false, decide_eq_true_eq] at h
    obtain ⟨rfl | rfl, hpos⟩ := h
    · simp only; omega
    · simp only at hpos ⊢; omega
  · rw [List.mem_singleton.mp h]

theorem rangesMinus_inSpace (rs : List Range) (q : Range)
    (h : ∀ r ∈ rs, r.base + r.size ≤ 2 ^ 32) :
    ∀ r ∈ rangesMinus rs q, r.base + r.size ≤ 2 ^ 32 := by
  intro p hp
  obtain ⟨r, hr, hpr⟩ := List.mem_flatMap.mp hp
  exact Nat.le_trans (rangeMinus_end_le r q p hpr) (h r hr)

theorem addRange_inSpace (rs : List Range) (q : Range) (hq : q.base + q.size ≤ 2 ^ 32)
    (h : ∀ r ∈ rs, r.base + r.size ≤ 2 ^ 32) :
    ∀ r ∈ addRange rs q, r.base + r.size ≤ 2 ^ 32 := by
  unfold addRange
  split
  · exact h
  · intro r hr
    rcases List.mem_append.mp hr with hr | hr
    · exact h r hr
    · rwa [List.mem_singleton.mp hr]

/-! ## Spoiling the bytes of dirty copies -/

/-- The part of a range in `r` may be empty and then start anywhere; spoiling it writes nothing. -/
theorem spoilRange_rangeInter_mem_wf (s : State) (d r : Range) (hm : Memory.wf s.mem = true)
    (hd : d.base + d.size ≤ 2 ^ 32) : Memory.wf (spoilRange s (rangeInter d r)).mem = true := by
  by_cases hempty : (rangeInter d r).size = 0
  · rw [spoilRange_mem, hempty]
    show Memory.wf (writeBytes s.mem _ []) = true
    rwa [writeBytes_nil _ _ hm]
  · refine spoilRange_mem_wf s _ hm ?_
    simp only [rangeInter] at hempty ⊢
    omega

theorem foldl_spoilRange_mem_wf (ds : List Range) (r : Range) (s : State)
    (hm : Memory.wf s.mem = true) (hd : ∀ d ∈ ds, d.base + d.size ≤ 2 ^ 32) :
    Memory.wf ((ds.map (rangeInter · r)).foldl spoilRange s).mem = true := by
  induction ds generalizing s with
  | nil => exact hm
  | cons d ds ih =>
    exact ih (spoilRange s (rangeInter d r))
      (spoilRange_rangeInter_mem_wf s d r hm (hd d List.mem_cons_self))
      (fun e he => hd e (List.mem_cons_of_mem d he))

/-! ## The invariant in IDLE: a completion and a reset -/

/-- In IDLE the invariant asks nothing of DONE, the operand registers and the latch. -/
theorem Inv.of_idle {s : State} (hidle : s.busy = false) (memory : Memory.wf s.mem = true)
    (platform : s.platform.wf = true) (errorNoOutput : s.errCode ≠ none → s.outLen = 0)
    (outputBounded : s.outLen.toNat ≤ s.platform.maxLen)
    (dirtyInSpace : ∀ r ∈ s.dirty, r.base + r.size ≤ 2 ^ 32) : Inv s where
  memory := memory
  platform := platform
  busyNotDone := by simp [hidle]
  busyNoError := by simp [hidle]
  busyLatched := by simp [hidle]
  errorNoOutput := errorNoOutput
  outputBounded := outputBounded
  dirtyInSpace := dirtyInSpace

/-- A success whose output is within MAX_LEN and is stored inside the address space. -/
theorem complete_ok_inv (D : Bytes) (aux : Option Word) (s : State) (hs : Inv s)
    (hlen : D.length ≤ s.platform.maxLen) (hdst : s.latch.dstAddr.toNat + D.length ≤ 2 ^ 32) :
    Inv (complete (.ok D aux) s) := by
  refine Inv.of_idle rfl (writeBytes_wf _ _ _ hs.memory hdst) hs.platform (by simp) ?_
    (rangesMinus_inSpace _ _ hs.dirtyInSpace)
  rw [complete_ok_outLen, complete_ok_platform, BitVec.toNat_ofNat]
  exact Nat.le_trans (Nat.mod_le _ _) hlen

theorem complete_fail_early_inv (c : ErrCode) (s : State) (hs : Inv s) :
    Inv (complete (.fail c false) s) :=
  Inv.of_idle rfl hs.memory hs.platform (fun _ => rfl) (Nat.zero_le _) hs.dirtyInSpace

theorem complete_fail_late_inv (c : ErrCode) (s : State) (hs : Inv s)
    (hdst : s.latch.dstAddr.toNat + s.latch.dstCap.toNat ≤ 2 ^ 32) :
    Inv (complete (.fail c true) s) :=
  Inv.of_idle rfl (spoilDst_mem_wf s hs.memory hdst) hs.platform (fun _ => rfl) (Nat.zero_le _)
    (rangesMinus_inSpace _ _ hs.dirtyInSpace)

/-- The checks of `60_exceptions.md` rule R320 give each completion what it needs. -/
theorem complete_outcome_inv (f : ResultFn) (s : State) (hs : Inv s) :
    Inv (complete (outcome f s) s) := by
  cases h : outcome f s with
  | ok D aux =>
    obtain ⟨hp, -, -, hlen, hcap, -⟩ := (outcome_ok_iff f s D aux).mp h
    exact complete_ok_inv D aux s hs hlen
      (Nat.le_trans (Nat.add_le_add_left hcap _) (dst_in_space _ _ hp))
  | fail c touched =>
    rcases outcome_fail_cases f s c touched h with ⟨rfl, -⟩ | ⟨rfl, hp⟩
    · exact complete_fail_early_inv c s hs
    · exact complete_fail_late_inv c s hs (dst_in_space _ _ hp)

theorem abandon_dirty_inSpace (s : State) (hd : ∀ r ∈ s.dirty, r.base + r.size ≤ 2 ^ 32) :
    ∀ r ∈ (abandon s).dirty, r.base + r.size ≤ 2 ^ 32 := by
  unfold abandon
  split
  · exact rangesMinus_inSpace _ _ hd
  · exact hd

theorem resetEngine_inv (s : State) (hs : Inv s) : Inv (resetEngine s) :=
  Inv.of_idle rfl (abandon_mem_wf s hs.memory) (by simpa using hs.platform) (fun _ => rfl)
    (Nat.zero_le _) (abandon_dirty_inSpace s hs.dirtyInSpace)

/-! ## The engine's step keeps the invariant -/

/-- What a command does: NOP succeeds with no output, a pipeline with an unknown ALG fails before
any memory access, and every other command runs its result function. -/
theorem exec_cases (i : Instr) (s : State) :
    (i = .nop ∧ exec i s = .next (complete (.ok [] none) s)) ∨
      (∃ c, resultOf i = none ∧ exec i s = .next (complete (.fail c false) s)) ∨
      ∃ f, resultOf i = some f ∧ exec i s = runCommand f s := by
  cases i
  case nop => exact .inl ⟨rfl, rfl⟩
  case pipeEnc alg =>
    refine .inr ?_
    cases ha : algOf alg with
    | none => exact .inl ⟨.illegalCmd, by simp [resultOf, ha], by simp [exec, execPipeEnc, ha]⟩
    | some a =>
      exact .inr ⟨pipeEncResult a, by simp [resultOf, ha], by simp [exec, execPipeEnc, ha]⟩
  case pipeDec alg =>
    refine .inr ?_
    cases ha : algOf alg with
    | none => exact .inl ⟨.unknownAlg, by simp [resultOf, ha], by simp [exec, execPipeDec, ha]⟩
    | some a =>
      exact .inr ⟨pipeDecResult a, by simp [resultOf, ha], by simp [exec, execPipeDec, ha]⟩
  all_goals exact .inr (.inr ⟨_, rfl, rfl⟩)

theorem exec_inv (i : Instr) (s t : State) (h : exec i s = .next t) (hs : Inv s) : Inv t := by
  rcases exec_cases i s with ⟨-, he⟩ | ⟨c, -, he⟩ | ⟨f, -, he⟩ <;> rw [he] at h <;> cases h
  · exact complete_ok_inv [] none s hs (Nat.zero_le _) (Nat.le_of_lt s.latch.dstAddr.isLt)
  · exact complete_fail_early_inv c s hs
  · exact complete_outcome_inv f s hs

/-! ## Register accesses keep the invariant -/

/-- Acceptance clears DONE, ERRCODE and OUT_LEN and latches the operands (`10_state.md` rule R25). -/
theorem accept_inv (s t : State) (h : accept s = .next t) (hs : Inv s) : Inv t := by
  unfold accept at h
  split at h
  · cases h
  · cases h
    exact { hs with
      busyNotDone := fun _ => rfl
      busyNoError := fun _ => ⟨rfl, rfl⟩
      busyLatched := fun _ => rfl
      errorNoOutput := fun _ => rfl
      outputBounded := Nat.zero_le _ }

theorem writeCtrl_inv (v : Word) (s t : State) (h : writeCtrl v s = .next t) (hs : Inv s) :
    Inv t := by
  unfold writeCtrl at h
  split at h
  · cases h; exact resetEngine_inv s hs
  · split at h
    · exact accept_inv _ t h { hs with }
    · cases h; exact { hs with }

/-- An operand register changes in IDLE only (`10_state.md` rule R23). -/
theorem writeOperand_inv (f : Operands → Operands) (s : State) (hs : Inv s) :
    Inv (writeOperand f s) := by
  unfold writeOperand
  split
  · exact hs
  · rename_i hidle
    exact { hs with busyLatched := fun hb => absurd hb hidle }

theorem writeStatus_inv (v : Word) (s : State) (hs : Inv s) : Inv (writeStatus v s) := by
  unfold writeStatus
  split
  · exact { hs with busyNotDone := fun _ => rfl }
  · exact hs

theorem writeReg_inv (r : Reg) (v : Word) (s t : State) (h : writeReg r v s = .next t)
    (hs : Inv s) : Inv t := by
  cases r
  case ctrl => exact writeCtrl_inv v s t h hs
  case id | outLen => cases h; exact hs
  case status => cases h; exact writeStatus_inv v s hs
  all_goals cases h; exact writeOperand_inv _ s hs

theorem hostRegWrite_inv (w : AccessWidth) (a v : Word) (s t : State)
    (h : hostRegWrite w a v s = .next t) (hs : Inv s) : Inv t := by
  unfold hostRegWrite writeOffset at h
  split at h
  · cases h
  · split at h
    · exact writeReg_inv _ v s t h hs
    · cases h; exact hs

/-- What a STATUS read tells the host is no concern of the invariant. -/
theorem seeCompletion_inv (off : Nat) (s : State) (hs : Inv s) : Inv (seeCompletion off s) := by
  unfold seeCompletion
  split
  · exact { hs with }
  · exact hs

theorem hostRegRead_inv (w : AccessWidth) (a : Word) (s t : State)
    (h : hostRegRead w a s = .next t) (hs : Inv s) : Inv t := by
  unfold hostRegRead at h
  split at h
  · cases h
  · cases h; exact { seeCompletion_inv _ s hs with }

theorem hostPoll_inv (a : Word) (f : Field) (v : Nat) (s t : State)
    (h : hostPoll a f v s = .next t) (hs : Inv s) : Inv t := by
  unfold hostPoll at h
  split at h
  · cases h
  · split at h <;> cases h
    · exact seeCompletion_inv _ s hs
    · exact { seeCompletion_inv _ s hs with }

/-! ## Memory accesses and cache maintenance keep the invariant -/

theorem hostMemWrite_inv (a : Nat) (bs : Bytes) (s t : State) (h : hostMemWrite a bs s = .next t)
    (hs : Inv s) : Inv t := by
  obtain ⟨ha, hclear, -⟩ := hostMemWrite_cases a bs s t h
  have ht := hostDo_memWrite s a bs ha hclear
  rw [hostDo, h] at ht
  cases ht
  refine { hs with memory := writeBytes_wf _ _ _ hs.memory ha, dirtyInSpace := ?_ }
  simp only
  split
  · exact hs.dirtyInSpace
  · exact addRange_inSpace _ _ ha hs.dirtyInSpace

theorem hostMemRead_inv (a n : Nat) (s t : State) (h : hostMemRead a n s = .next t)
    (hs : Inv s) : Inv t := by
  unfold hostMemRead at h
  split at h
  · cases h
  · split at h <;> cases h
    exact { hs with }

theorem hostWaitIrq_inv (s t : State) (h : hostWaitIrq s = .next t) (hs : Inv s) : Inv t := by
  unfold hostWaitIrq at h
  split at h <;> cases h
  · exact hs
  · exact { hs with }

theorem hostCacheClean_inv (r : Range) (s t : State) (h : hostCacheClean r s = .next t)
    (hs : Inv s) : Inv t := by
  unfold hostCacheClean at h
  split at h <;> cases h
  exact { hs with dirtyInSpace := rangesMinus_inSpace _ _ hs.dirtyInSpace }

/-- The spoiled bytes are those of dirty copies, which stand inside the address space. -/
theorem hostCacheInvalidate_inv (r : Range) (s t : State) (h : hostCacheInvalidate r s = .next t)
    (hs : Inv s) : Inv t := by
  have hmem := foldl_spoilRange_mem_wf s.dirty r s hs.memory hs.dirtyInSpace
  unfold hostCacheInvalidate at h
  split at h <;> cases h
  rw [foldl_spoilRange_frame]
  exact { hs with
    memory := hmem
    dirtyInSpace := rangesMinus_inSpace _ _ hs.dirtyInSpace }

/-! ## Every step keeps the invariant -/

theorem hostDo_inv (op : HostOp) (s t : State) (h : hostDo op s = .next t) (hs : Inv s) :
    Inv t := by
  cases op with
  | regWrite w a v => exact hostRegWrite_inv w a v s t h hs
  | regRead w a => exact hostRegRead_inv w a s t h hs
  | poll a f v => exact hostPoll_inv a f v s t h hs
  | memWrite a bs => exact hostMemWrite_inv a bs s t h hs
  | memRead a n => exact hostMemRead_inv a n s t h hs
  | waitIrq => exact hostWaitIrq_inv s t h hs
  | cacheClean r => exact hostCacheClean_inv r s t h hs
  | cacheInvalidate r => exact hostCacheInvalidate_inv r s t h hs
  | hardReset => cases h; exact resetEngine_inv s hs

theorem hostStep_inv (s t : State) (h : hostStep s = .next t) (hs : Inv s) : Inv t := by
  unfold hostStep at h
  split at h
  · cases h; exact hs
  · exact hostDo_inv _ _ t h { hs with }

theorem takeTurn_inv (s : State) (hs : Inv s) : Inv (takeTurn s) := by
  unfold takeTurn
  split
  · exact { hs with }
  · exact hs

/-- Settles O8: a step does nothing, performs a host access, runs a command or completes an illegal
word, and each of these keeps the invariant. -/
theorem stepKeepsTheInvariant : Obligations.StepKeepsTheInvariant := by
  intro s t hs h
  have hturn : Inv (takeTurn s) := takeTurn_inv s hs
  rcases step_cases s t h with ⟨-, rfl⟩ | ⟨-, hhost⟩ | ⟨-, ⟨i, -, hexec⟩ | ⟨e, -, rfl⟩⟩
  · exact hs
  · exact hostStep_inv _ t hhost hturn
  · exact exec_inv i _ t hexec hturn
  · exact complete_fail_early_inv (illegalWordCode e) _ hturn

end Sys2Proof.Machine

/-! PROOFS. The state family: the register block. Resets, acceptance, register reads and writes, the
fields of STATUS and CTRL, the interrupt line. -/

namespace Sys2Proof.Machine

/-! ## The fields of the STATUS and CTRL words (`10_state.md` rules R24, R29) -/

theorem bit_le_one (b : Bool) : bit b ≤ 1 := by cases b <;> decide

theorem errCodeField_lt (c : Option ErrCode) : errCodeField c < 2 ^ 8 := by
  cases c with
  | none => decide
  | some c => cases c <;> decide

/-- How far each field of STATUS can reach, so that none runs into the next. -/
theorem statusFields_bounds (s : State) : bit s.busy ≤ 1 ∧ bit s.done ≤ 1 ∧ bit (errFlag s) ≤ 1 ∧
    errCodeField s.errCode < 2 ^ 8 :=
  ⟨bit_le_one _, bit_le_one _, bit_le_one _, errCodeField_lt _⟩

theorem statusWord_toNat (s : State) : (statusWord s).toNat =
    bit s.busy + bit s.done * 2 + bit (errFlag s) * 4 + errCodeField s.errCode * 2 ^ 8 := by
  have hbounds := statusFields_bounds s
  rw [statusWord, BitVec.toNat_ofNat]
  exact Nat.mod_eq_of_lt (by omega)

theorem ctrlWord_toNat (s : State) : (ctrlWord s).toNat = bit s.irqEn * 4 := by
  have hirq := bit_le_one s.irqEn
  rw [ctrlWord, BitVec.toNat_ofNat]
  exact Nat.mod_eq_of_lt (by omega)

theorem getLsbD_eq_of_toNat (w : Word) (i : Nat) (b : Bool) (h : w.toNat / 2 ^ i % 2 = bit b) :
    w.getLsbD i = b := by
  rw [BitVec.getLsbD, Nat.testBit_eq_decide_div_mod_eq, h]
  cases b <;> rfl

theorem extractLsb'_eq_of_toNat (w : Word) (lo n x : Nat) (h : w.toNat / 2 ^ lo % 2 ^ n = x) :
    w.extractLsb' lo n = BitVec.ofNat n x := by
  apply BitVec.eq_of_toNat_eq
  rw [BitVec.extractLsb'_toNat, Nat.shiftRight_eq_div_pow, BitVec.toNat_ofNat, ← h, Nat.mod_mod]

section WordFields
variable (s : State)

theorem statusWord_busy : (statusWord s).getLsbD 0 = s.busy := by
  have hbounds := statusFields_bounds s
  exact getLsbD_eq_of_toNat _ _ _ (by rw [statusWord_toNat]; omega)

theorem statusWord_done : (statusWord s).getLsbD 1 = s.done := by
  have hbounds := statusFields_bounds s
  exact getLsbD_eq_of_toNat _ _ _ (by rw [statusWord_toNat]; omega)

theorem statusWord_err : (statusWord s).getLsbD 2 = errFlag s := by
  have hbounds := statusFields_bounds s
  exact getLsbD_eq_of_toNat _ _ _ (by rw [statusWord_toNat]; omega)

theorem statusWord_errCode :
    (statusWord s).extractLsb' 8 8 = BitVec.ofNat 8 (errCodeField s.errCode) := by
  have hbounds := statusFields_bounds s
  exact extractLsb'_eq_of_toNat _ _ _ _ (by rw [statusWord_toNat]; omega)

theorem statusWord_reserved_low : (statusWord s).extractLsb' 3 5 = 0 := by
  have hbounds := statusFields_bounds s
  exact extractLsb'_eq_of_toNat _ _ _ 0 (by rw [statusWord_toNat]; omega)

theorem statusWord_reserved_high : (statusWord s).extractLsb' 16 16 = 0 := by
  have hbounds := statusFields_bounds s
  exact extractLsb'_eq_of_toNat _ _ _ 0 (by rw [statusWord_toNat]; omega)

theorem ctrlWord_start : (ctrlWord s).getLsbD 0 = false :=
  getLsbD_eq_of_toNat _ _ _ (by rw [ctrlWord_toNat, show bit false = 0 from rfl]; omega)

theorem ctrlWord_softReset : (ctrlWord s).getLsbD 1 = false :=
  getLsbD_eq_of_toNat _ _ _ (by rw [ctrlWord_toNat, show bit false = 0 from rfl]; omega)

theorem ctrlWord_irqEn : (ctrlWord s).getLsbD 2 = s.irqEn := by
  have hirq := bit_le_one s.irqEn
  exact getLsbD_eq_of_toNat _ _ _ (by rw [ctrlWord_toNat]; omega)

theorem ctrlWord_reserved : (ctrlWord s).extractLsb' 3 29 = 0 := by
  have hirq := bit_le_one s.irqEn
  exact extractLsb'_eq_of_toNat _ _ _ 0 (by rw [ctrlWord_toNat]; omega)

end WordFields

/-- ERR is set exactly when the byte ERRCODE is not 0: no error code is a multiple of 256. -/
theorem errFlag_iff (s : State) :
    errFlag s = true ↔ BitVec.ofNat 8 (errCodeField s.errCode) ≠ 0 := by
  rw [errFlag, decide_eq_true_iff, not_iff_not, ← BitVec.toNat_inj, BitVec.toNat_ofNat,
    Nat.mod_eq_of_lt (errCodeField_lt s.errCode)]
  rfl

/-- The numbers of `60_exceptions.md` rule R321. -/
def errCodeNumbers : List (Option ErrCode × Byte) :=
  [(none, 0x00), (some .illegalCmd, 0x01),
    (some .badRange, 0x02), (some .overlap, 0x03), (some .dstOverflow, 0x04),
    (some .tooLarge, 0x05), (some .busError, 0x06), (some .acShortInput, 0x10),
    (some .acBadModel, 0x11), (some .acZeroLength, 0x12), (some .acTooLarge, 0x13),
    (some .lzBadSize, 0x20), (some .lzBadToken, 0x21), (some .bwtBadIndex, 0x30),
    (some .rleTruncated, 0x40), (some .rleZeroRun, 0x41), (some .unknownAlg, 0x50),
    (some .pipeShort, 0x51)]

theorem errCodeField_of_number :
    ∀ p ∈ errCodeNumbers, BitVec.ofNat 8 (errCodeField p.1) = p.2 := by decide

/-- Settles O16: each field of STATUS and CTRL stands at its own bits of the word. -/
theorem statusAndCtrlFields : Obligations.StatusAndCtrlFields := by
  intro s
  refine ⟨statusWord_busy s, statusWord_done s, ?_, fun p hp hcode => ?_, ctrlWord_start s,
    ctrlWord_softReset s, ctrlWord_irqEn s⟩
  · show (statusWord s).getLsbD 2 = true ↔ (statusWord s).extractLsb' 8 8 ≠ 0
    rw [statusWord_err, statusWord_errCode, errFlag_iff]
  · show (statusWord s).extractLsb' 8 8 = p.2
    rw [statusWord_errCode, hcode]
    exact errCodeField_of_number p hp

/-! ## Register reads (`10_state.md` rule R21, `20_memory.md` rule R75) -/

/-- What a read tells the host concerns the lists of engine writes only. -/
theorem seeCompletion_frame (off : Nat) (s : State) : seeCompletion off s = { s with
    unsynced := (seeCompletion off s).unsynced
    abandoned := (seeCompletion off s).abandoned
    stale := (seeCompletion off s).stale } := by
  unfold seeCompletion
  split <;> rfl

theorem seeCompletion_unseen (off : Nat) (s : State)
    (h : regMap.lookup off ≠ some .status ∨ s.done = false) : seeCompletion off s = s := by
  rw [seeCompletion, if_neg]
  rintro ⟨hoff, hdone⟩
  rcases h with h | h
  · exact h hoff
  · rw [hdone] at h; cases h

/-- The lists of the host's side are no part of any register. -/
theorem readReg_hostLists (q : Reg) (s : State) (o : List Observation) (u a l : List Range) :
    readReg q { s with observed := o, unsynced := u, abandoned := a, stale := l } =
      readReg q s := by
  cases q <;> rfl

theorem regMap_lookup_offset (r : Reg) : regMap.lookup r.offset = some r := by cases r <;> rfl

theorem hostDo_rd_frame (s : State) (r : Reg) (h : s.platform.wf = true) :
    ∃ t, hostDo (rd s.platform r) s = .next t ∧
      t.observed = s.observed ++ [.reg (regAddr s.platform r) (readReg r s)] ∧
      t = { s with
        observed := t.observed, unsynced := t.unsynced
        abandoned := t.abandoned, stale := t.stale } ∧
      (r ≠ .status ∨ s.done = false →
        t.unsynced = s.unsynced ∧ t.abandoned = s.abandoned ∧ t.stale = s.stale) := by
  refine ⟨_, hostDo_rd s r h, rfl, ?_, fun hr => ?_⟩
  · rw [seeCompletion_frame]
  · rw [seeCompletion_unseen r.offset s (by rwa [regMap_lookup_offset, ne_eq, Option.some_inj])]
    exact ⟨rfl, rfl, rfl⟩

/-- Settles O14: ID is a constant, and a read changes the host's lists only. -/
theorem idIsConstant : Obligations.IdIsConstant := by
  intro s v hwf
  refine ⟨hostDo_wr s .id v hwf, ?_, fun r => ?_⟩
  · rw [hostDo_rd s .id hwf, seeCompletion_unseen _ s (.inl (by decide))]
    rfl
  · obtain ⟨t, ht, hobs, hframe, hlists⟩ := hostDo_rd_frame s r hwf
    refine ⟨t, ht, hobs, fun q => ?_, ?_, hframe, hlists⟩
    · rw [hframe]; exact readReg_hostLists q s _ _ _ _
    · rw [hframe]

/-! ## Writes to the operand registers (`10_state.md` rules R23, R28, R33 to R38) -/

/-- The operand registers after a write of `v` to the register `r`. -/
def setOperand (r : Reg) (v : Word) (o : Operands) : Operands :=
  match r with
  | .cmd => { o with cmd := v }
  | .srcAddr => { o with srcAddr := v }
  | .srcLen => { o with srcLen := v }
  | .dstAddr => { o with dstAddr := v }
  | .dstCap => { o with dstCap := v }
  | .aux => { o with aux := v }
  | _ => o

/-- The six registers that hold operands. -/
def operandRegs : List Reg := [.cmd, .srcAddr, .srcLen, .dstAddr, .dstCap, .aux]

theorem writeReg_operand (r : Reg) (v : Word) (s : State) (hr : r ∈ operandRegs) :
    writeReg r v s = .next (writeOperand (setOperand r v) s) := by
  cases r
  case id | ctrl | status | outLen => exact absurd hr (by decide)
  all_goals rfl

theorem writeReg_operand_idle (r : Reg) (v : Word) (s : State) (hr : r ∈ operandRegs)
    (hb : s.busy = false) : writeReg r v s = .next { s with regs := setOperand r v s.regs } := by
  rw [writeReg_operand r v s hr, writeOperand, if_neg (by simp [hb])]

theorem writeReg_operand_busy (r : Reg) (v : Word) (s : State) (hr : r ∈ operandRegs)
    (hb : s.busy = true) : writeReg r v s = .next s := by
  rw [writeReg_operand r v s hr, writeOperand, if_pos hb]

theorem readReg_setOperand_same (r : Reg) (v : Word) (s : State) (hr : r ∈ operandRegs) :
    readReg r { s with regs := setOperand r v s.regs } = v := by
  cases r
  case id | ctrl | status | outLen => exact absurd hr (by decide)
  all_goals rfl

/-- The write sets its own field only, and the other registers hold no operand. -/
theorem readReg_setOperand_other (r q : Reg) (v : Word) (s : State) (hq : q ≠ r) :
    readReg q { s with regs := setOperand r v s.regs } = readReg q s := by
  cases q
  case id | ctrl | status | outLen => rfl
  all_goals cases r <;> simp_all [readReg, setOperand]

/-- Settles O12: the write sets one field of the operand registers, which the read returns. -/
theorem operandWritesReadBack : Obligations.OperandWritesReadBack := by
  intro s v r hwf hb hr
  have hsame := readReg_setOperand_same r v s hr
  refine ⟨{ s with regs := setOperand r v s.regs }, ?_, hsame,
    fun q hq => readReg_setOperand_other r q v s hq, rfl, ?_⟩
  · rw [hostDo_wr s r v hwf, writeReg_operand_idle r v s hr hb]
  · refine ⟨_, hostDo_rd { s with regs := setOperand r v s.regs } r hwf, ?_⟩
    simp only [hsame]

/-! ## Writes to STATUS and CTRL -/

theorem writeStatus_idle (v : Word) (s : State) (hb : s.busy = false) (h1 : v.getLsbD 1 = true) :
    writeStatus v s = { s with done := false } := by
  rw [writeStatus, if_pos (by rw [h1, hb]; rfl)]; rfl

theorem writeStatus_ignored (v : Word) (s : State) (h : s.busy = true ∨ v.getLsbD 1 = false) :
    writeStatus v s = s := by
  rw [writeStatus, if_neg]
  rcases h with h | h <;> rw [h] <;> simp

/-- Settles O13: an engine step is a completion; the acknowledgement is a STATUS write in IDLE. -/
theorem statusWriteClearsDone : Obligations.StatusWriteClearsDone := by
  refine ⟨fun s t h => ?_, fun s v hwf => ⟨fun hb h1 => ?_, fun h => ?_⟩⟩
  · obtain ⟨o, ho⟩ := engineStep_completes s
    rw [ho] at h
    cases h
    exact (complete_frame o s).2.1
  · rw [hostDo_wr s .status v hwf, writeReg, writeStatus_idle v s hb h1]
  · rw [hostDo_wr s .status v hwf, writeReg, writeStatus_ignored v s h]

/-- Settles O11: while BUSY = 1 only IRQ_EN and SOFT_RESET of CTRL take effect. -/
theorem busyWritesAreIgnored : Obligations.BusyWritesAreIgnored := by
  intro s v hwf hb
  refine ⟨fun r hr => ?_, fun h1 => ?_, fun h1 => ?_⟩
  · rw [hostDo_wr s r v hwf]
    by_cases hstatus : r = .status
    · rw [hstatus, writeReg, writeStatus_ignored v s (.inl hb)]
    · refine writeReg_operand_busy r v s ?_ hb
      simp only [operandRegs, List.mem_cons, List.not_mem_nil, or_false] at hr ⊢
      tauto
  · rw [hostDo_wr s .ctrl v hwf]
    exact writeCtrl_irqEn v s h1 (.inr hb)
  · rw [hostDo_wr s .ctrl v hwf]
    exact writeCtrl_reset v s h1

/-! ## Reserved offsets and bits (`10_state.md` rule R22) -/

theorem regMap_lookup_reserved (off : Nat) (h : 0x28 ≤ off) : regMap.lookup off = none := by
  cases hl : regMap.lookup off with
  | none => rfl
  | some r =>
    have hoff : off = r.offset := regMap_lookup off r hl
    have hlt : r.offset < 0x28 := by cases r <;> decide
    omega

theorem hostDo_write_reserved (s : State) (v : Word) (off : Nat) (hwf : s.platform.wf = true)
    (hlo : 0x28 ≤ off) (hhi : off ≤ 0xFC) (h4 : off % 4 = 0) :
    hostDo (.regWrite .word (s.platform.regBase + BitVec.ofNat 32 off) v) s = .next s := by
  show hostRegWrite _ _ v s = _
  rw [hostRegWrite, accessOffset_base_add _ off hwf (by omega) h4]
  show writeOffset off v s = _
  rw [writeOffset, regMap_lookup_reserved off hlo]

theorem hostDo_read_reserved (s : State) (off : Nat) (hwf : s.platform.wf = true)
    (hlo : 0x28 ≤ off) (hhi : off ≤ 0xFC) (h4 : off % 4 = 0) :
    hostDo (.regRead .word (s.platform.regBase + BitVec.ofNat 32 off)) s = .next { s with
      observed := s.observed ++ [.reg (s.platform.regBase + BitVec.ofNat 32 off) 0] } := by
  have hnone : regMap.lookup off = none := regMap_lookup_reserved off hlo
  show hostRegRead _ _ s = _
  rw [hostRegRead, accessOffset_base_add _ off hwf (by omega) h4]
  simp only [readOffset, hnone, seeCompletion_unseen off s (.inl (by rw [hnone]; decide))]

/-- CTRL looks at its three defined bits only. -/
theorem writeCtrl_and_seven (v : Word) (s : State) : writeCtrl (v &&& 0x7) s = writeCtrl v s := by
  have h0 : (v &&& 0x7).getLsbD 0 = v.getLsbD 0 := by simp
  have h1 : (v &&& 0x7).getLsbD 1 = v.getLsbD 1 := by simp
  have h2 : (v &&& 0x7).getLsbD 2 = v.getLsbD 2 := by simp
  simp only [writeCtrl, h0, h1, h2]

/-- STATUS looks at the bit of DONE only. -/
theorem writeStatus_and_two (v : Word) (s : State) :
    writeStatus (v &&& 0x2) s = writeStatus v s := by
  have h1 : (v &&& 0x2).getLsbD 1 = v.getLsbD 1 := by simp
  rw [writeStatus, writeStatus, h1]

/-- Settles O15: an offset from 0x28 on is no register's, and writes look at defined bits only. -/
theorem reservedOffsetsAndBits : Obligations.ReservedOffsetsAndBits := by
  intro s v hwf
  refine ⟨fun off hlo hhi h4 => ⟨hostDo_write_reserved s v off hwf hlo hhi h4,
      hostDo_read_reserved s off hwf hlo hhi h4⟩, ctrlWord_reserved s, statusWord_reserved_low s,
    statusWord_reserved_high s, ?_, ?_, hostDo_wr s .outLen v hwf, fun hb => ?_⟩
  · rw [hostDo_wr s .ctrl v hwf, hostDo_wr s .ctrl _ hwf]
    exact (writeCtrl_and_seven v s).symm
  · rw [hostDo_wr s .status v hwf, hostDo_wr s .status _ hwf, writeReg, writeReg,
      writeStatus_and_two]
  · refine ⟨{ s with regs := setOperand .cmd v s.regs }, ?_, rfl⟩
    rw [hostDo_wr s .cmd v hwf, writeReg_operand_idle .cmd v s (by decide) hb]

/-! ## Acceptance and reset (`10_state.md` rules R25, R26, R52) -/

/-- A host that has done its duty of `20_memory.md` rule R80 meets no hazard at START. -/
theorem accept_clean (s : State)
    (h : s.platform.dmaCoherent = true ∨ meetsAny s.dirty s.regs.src = false) :
    accept s = .next (latchCommand s) := by
  rw [accept, if_neg]
  rcases h with h | h <;> simp [uncleanSource, h]

theorem hostDo_start (s : State) (v : Word) (hwf : s.platform.wf = true)
    (h0 : v.getLsbD 0 = true) (h1 : v.getLsbD 1 = false) (hb : s.busy = false)
    (hclean : s.platform.dmaCoherent = true ∨ meetsAny s.dirty s.regs.src = false) :
    hostDo (wr s.platform .ctrl v) s = .next (latchCommand { s with irqEn := v.getLsbD 2 }) := by
  rw [hostDo_wr s .ctrl v hwf]
  exact (writeCtrl_start v s h0 h1 hb).trans (accept_clean _ hclean)

/-- A running command is the only agent with a step left when the host program is at its end. -/
theorem step_of_no_access_left (s : State) (hb : s.busy = true) (hi : s.inputs = []) :
    step s = engineStep s := by
  have hrace : racing s = false := by simp [racing, hi]
  have hagent : nextAgent s = some .engine := by simp [nextAgent, hrace, hb]
  have hturn : takeTurn s = s := by simp [takeTurn, hrace]
  rw [step, hagent]
  show engineStep (takeTurn s) = _
  rw [hturn]

/-- Settles O10: START latches the operands and sets BUSY; without it only IRQ_EN changes. -/
theorem startAcceptsTheCommand : Obligations.StartAcceptsTheCommand := by
  intro s v hwf h1
  refine ⟨fun h0 hb hclean => ?_, fun h => ?_⟩
  · refine ⟨_, hostDo_start s v hwf h0 h1 hb hclean, rfl, rfl, rfl, rfl, rfl, rfl, rfl, rfl, rfl,
      rfl, rfl, rfl, rfl, rfl, rfl, rfl, rfl, fun hi => step_of_no_access_left _ rfl hi⟩
  · rw [hostDo_wr s .ctrl v hwf]
    exact writeCtrl_irqEn v s h1 h

theorem inRange_dst_of_outside (o : Operands) (a : Nat)
    (h : a < o.dstAddr.toNat ∨ o.dstAddr.toNat + o.dstCap.toNat ≤ a) : inRange o.dst a = false := by
  rw [Bool.eq_false_iff, ne_eq, inRange_iff]
  simp only [Operands.dst]
  omega

theorem statusWord_resetEngine (s : State) : statusWord (resetEngine s) = 0 := by
  rw [statusWord, errFlag, resetEngine_busy, resetEngine_done, resetEngine_errCode]
  rfl

/-- Settles O9: both resets are `resetEngine`, whose fields are the reset values. -/
theorem resetGivesTheResetValues : Obligations.ResetGivesTheResetValues := by
  intro s v hwf h1
  have hidle : nextAgent (resetEngine s) ≠ some .engine := fun h => by
    simpa using nextAgent_engine_busy _ h
  have hctrl : hostDo (wr s.platform .ctrl v) s = .next (resetEngine s) :=
    (hostDo_wr s .ctrl v hwf).trans (writeCtrl_reset v s h1)
  have houtside : MemoryKeptOutside s (resetEngine s) s.latch.dstCap.toNat := fun a ha => by
    rw [resetEngine_mem]
    exact abandon_mem_outside s a (inRange_dst_of_outside s.latch a ha)
  refine ⟨resetEngine s, rfl, hctrl, rfl, rfl, rfl, statusWord_resetEngine s, rfl, rfl, rfl, rfl,
    rfl, rfl, rfl, rfl, hidle, houtside, fun hb => ?_, resetEngine_platform s,
    resetEngine_inputs s, resetEngine_turns s, resetEngine_observed s, resetEngine_unsynced s,
    resetEngine_stale s, fun hb => ?_⟩
  · rw [resetEngine_mem, abandon_idle s hb]
  · rw [resetEngine_abandoned, resetEngine_dirty, abandon_idle s hb]
    exact ⟨rfl, rfl⟩

/-- Settles O7: memory is empty, every register is 0 and no copy is dirty. -/
theorem resetSatisfiesTheInvariant : Obligations.ResetSatisfiesTheInvariant :=
  Inv.of_idle rfl Memory.wf_nil rfl (fun _ => rfl) (Nat.zero_le _) (fun r hr => by cases hr)

/-! ## The interrupt line (`10_state.md` rule R42) -/

theorem irq_eq_words (s : State) :
    irq s = ((readReg .status s).getLsbD 1 && (readReg .ctrl s).getLsbD 2) := by
  show irq s = ((statusWord s).getLsbD 1 && (ctrlWord s).getLsbD 2)
  rw [statusWord_done, ctrlWord_irqEn]
  rfl

theorem irq_of_not_done (s : State) (h : s.done = false) : irq s = false := by simp [irq, h]

/-- Acceptance, where it happens, clears DONE. -/
theorem accept_done (s t : State) (h : accept s = .next t) : t.done = false := by
  unfold accept at h
  split at h <;> cases h
  rfl

theorem hostDo_waitIrq (s : State) : hostDo .waitIrq s =
    if irq s then .next s else .next { s with inputs := .waitIrq :: s.inputs } := rfl

/-- Settles O17: IRQ rises with a completion and falls with whatever clears DONE or IRQ_EN. -/
theorem irqLine : Obligations.IrqLine := by
  refine ⟨irq_eq_words, fun s t h => ?_, fun s t v hwf h => ?_, fun s t h => ?_,
    fun s t v hwf hb h1 h => ?_, fun s h => ?_, fun s h => ?_⟩
  · obtain ⟨o, ho⟩ := engineStep_completes s
    rw [ho] at h
    cases h
    obtain ⟨-, hdone, hirq, -⟩ := complete_frame o s
    rw [irq, hdone, hirq]
    rfl
  · rw [hostDo_wr s .ctrl v hwf, writeReg] at h
    refine ⟨fun h1 => ?_, fun h1 h0 hb => ?_, fun h1 h0 => ?_⟩
    · rw [writeCtrl_reset v s h1] at h
      cases h
      rfl
    · rw [writeCtrl_start v s h0 h1 hb] at h
      exact irq_of_not_done t (accept_done _ t h)
    · rw [writeCtrl_irqEn v s h1 h0] at h
      cases h
      rfl
  · cases h
    rfl
  · rw [hostDo_wr s .status v hwf, writeReg, writeStatus_idle v s hb h1] at h
    cases h
    rfl
  · rw [hostDo_waitIrq, if_pos h]
  · rw [hostDo_waitIrq, if_neg (by simp [h])]

end Sys2Proof.Machine

/-! PROOFS. The state family: what the host's memory accesses and its cache maintenance do. -/

namespace Sys2Proof.Machine

/-! ## Ranges that meet (`20_memory.md` rule R77) -/

theorem meetsAny_iff (rs : List Range) (q : Range) :
    meetsAny rs q = true ↔ ∃ a, inRanges rs a = true ∧ inRange q a = true := by
  simp only [meetsAny, List.any_eq_true, rangesMeet_iff, inRanges_iff]
  constructor
  · rintro ⟨r, hr, a, hra, hqa⟩
    exact ⟨a, ⟨r, hr, hra⟩, hqa⟩
  · rintro ⟨a, ⟨r, hr, hra⟩, hqa⟩
    exact ⟨r, hr, a, hra, hqa⟩

theorem inRanges_append (rs qs : List Range) (a : Nat) :
    inRanges (rs ++ qs) a = (inRanges rs a || inRanges qs a) := List.any_append

theorem meetsAny_rangesMinus_self (rs : List Range) (q : Range) :
    meetsAny (rangesMinus rs q) q = false := by
  rw [Bool.eq_false_iff, ne_eq, meetsAny_iff]
  rintro ⟨a, hin, hq⟩
  rw [((rangesMinus_iff rs q a).mp hin).2] at hq
  cases hq

theorem rangeInter_size_of_apart (d r : Range)
    (h : ∀ a, inRange d a = true → inRange r a = false) : (rangeInter d r).size = 0 := by
  by_contra hne
  have hmem : inRange (rangeInter d r) (rangeInter d r).base = true :=
    (inRange_iff _ _).mpr ⟨Nat.le_refl _, by omega⟩
  obtain ⟨hd, hr⟩ := (rangeInter_iff d r _).mp hmem
  rw [h _ hd] at hr
  cases hr

/-! ## The hazard of `20_memory.md` rule R86 needs a running command -/

theorem hitsLatched_idle (s : State) (r : Range) (hb : s.busy = false) :
    hitsLatched s r = false := by simp [hitsLatched, hb]

theorem anyHitsLatched_idle (s : State) (r : Range) (hb : s.busy = false) :
    s.dirty.any (fun d => hitsLatched s (rangeInter d r)) = false := by
  simp [hitsLatched_idle s _ hb]

/-! ## Which host reads are draws and which are stale -/

theorem readIsDraw_of_listed (s : State) (a : Nat)
    (h : inRanges s.unsynced a = true ∨ inRanges s.abandoned a = true) : readIsDraw s a = true := by
  rcases h with h | h <;> simp [readIsDraw, h]

theorem readIsDraw_of_unlisted (s : State) (a : Nat)
    (hb : s.busy = false ∨ inRange s.latch.dst a = false)
    (hu : inRanges s.unsynced a = false) (ha : inRanges s.abandoned a = false) :
    readIsDraw s a = false := by
  rcases hb with hb | hb <;> simp [readIsDraw, hb, hu, ha]

theorem readIsStale_coherent (s : State) (a : Nat) (h : s.platform.dmaCoherent = true) :
    readIsStale s a = false := by simp [readIsStale, h]

theorem readIsStale_of_not_listed (s : State) (a : Nat) (h : inRanges s.stale a = false) :
    readIsStale s a = false := by simp [readIsStale, h]

theorem readIsStale_of_listed (s : State) (a : Nat) (hcoh : s.platform.dmaCoherent = false)
    (hb : s.busy = false ∨ inRange s.latch.dst a = false) (hst : inRanges s.stale a = true)
    (hu : inRanges s.unsynced a = false) (ha : inRanges s.abandoned a = false) :
    readIsStale s a = true := by
  simp [readIsStale, hcoh, hst, readIsDraw_of_unlisted s a hb hu ha]

/-- A host read of bytes that are neither draws nor stale returns them as they stand in memory. -/
theorem hostDo_memRead_memory (s : State) (a n : Nat) (h : a + n ≤ 2 ^ 32)
    (hd : ∀ k, k < n → readIsDraw s (a + k) = false)
    (hs : ∀ k, k < n → readIsStale s (a + k) = false) : hostDo (.memRead a n) s = .next { s with
      observed := s.observed ++ [.mem a ((List.range n).map (fun k => readByte s.mem (a + k)))]
      draws := s.draws + n } := by
  rw [hostDo_memRead s a n h hs, hostReadBytes_eq s a n hd]

/-! ## A STATUS read that returns DONE = 1 (`20_memory.md` rules R78(b), R81) -/

theorem seeCompletion_seen (s : State) (hd : s.done = true) :
    seeCompletion Reg.status.offset s = { s with
      unsynced := []
      abandoned := if s.platform.dmaCoherent then [] else s.abandoned
      stale := if s.platform.dmaCoherent then s.stale else s.stale ++ s.unsynced } := by
  rw [seeCompletion, if_pos ⟨regMap_lookup_offset .status, hd⟩]

theorem hostDo_rd_status_seen (s : State) (hwf : s.platform.wf = true) (hd : s.done = true) :
    hostDo (rd s.platform .status) s = .next { s with
      unsynced := []
      abandoned := if s.platform.dmaCoherent then [] else s.abandoned
      stale := if s.platform.dmaCoherent then s.stale else s.stale ++ s.unsynced
      observed := s.observed ++ [.reg (regAddr s.platform .status) (readReg .status s)] } := by
  rw [hostDo_rd s .status hwf, seeCompletion_seen s hd]

theorem hostDo_memRead_outside (s : State) (a n : Nat) (h : 2 ^ 32 < a + n) :
    hostDo (.memRead a n) s = .fault .outsideMemory := by
  show hostMemRead a n s = _
  rw [hostMemRead, if_pos (show addrSpace < a + n from h)]

theorem hostDo_memWrite_outside (s : State) (a : Nat) (bs : Bytes) (h : 2 ^ 32 < a + bs.length) :
    hostDo (.memWrite a bs) s = .fault .outsideMemory := by
  show hostMemWrite a bs s = _
  rw [hostMemWrite, if_pos (show addrSpace < a + bs.length from h)]

/-- Settles O20: a write is in memory at once; a read returns memory or draws, as the lists say. -/
theorem hostMemoryAccesses : Obligations.HostMemoryAccesses := by
  refine ⟨fun s a bs hb h => ?_, fun s hwf hcoh hb hdone => ?_, fun s a n h hlisted => ?_,
    fun s a n bs => ⟨hostDo_memRead_outside s a n, hostDo_memWrite_outside s a bs⟩⟩
  · exact ⟨_, hostDo_memWrite s a bs h (hitsLatched_idle s _ hb), rfl,
      fun k hk => readByte_writeBytes_inside _ _ _ _ hk,
      fun x hx => readByte_writeBytes_outside _ _ _ _ hx⟩
  · refine ⟨_, hostDo_rd_status_seen s hwf hdone, rfl, fun a n h => ?_⟩
    refine ⟨_, hostDo_memRead_memory _ a n h (fun k _ => ?_)
      (fun k _ => readIsStale_coherent _ _ hcoh), rfl, rfl⟩
    exact readIsDraw_of_unlisted _ _ (.inl hb) rfl (by rw [hcoh]; rfl)
  · exact hostDo_memRead_draws s a n h (fun k hk => readIsDraw_of_listed s _ (hlisted k hk))

/-! ## Cache maintenance (`20_memory.md` rule R80, log 8) -/

theorem hostDo_cacheClean_idle (s : State) (r : Range) (hb : s.busy = false) :
    hostDo (.cacheClean r) s = .next { s with dirty := rangesMinus s.dirty r } := by
  show hostCacheClean r s = _
  rw [hostCacheClean, anyHitsLatched_idle s r hb]
  rfl

/-- Spoiling a list of ranges in turn. -/
def spoilRanges (l : List Range) (s : State) : State := l.foldl spoilRange s

theorem hostDo_cacheInvalidate_idle (s : State) (r : Range) (hb : s.busy = false) :
    hostDo (.cacheInvalidate r) s = .next { s with
      mem := (spoilRanges (s.dirty.map (rangeInter · r)) s).mem
      draws := (spoilRanges (s.dirty.map (rangeInter · r)) s).draws
      dirty := rangesMinus s.dirty r
      stale := rangesMinus s.stale r } := by
  show hostCacheInvalidate r s = _
  rw [hostCacheInvalidate, anyHitsLatched_idle s r hb, foldl_spoilRange_frame]
  rfl

theorem spoilRange_empty_mem (s : State) (r : Range) (h : r.size = 0) (a : Nat) :
    readByte (spoilRange s r).mem a = readByte s.mem a := by
  rw [spoilRange_mem, h]
  exact readByte_writeBytes_outside s.mem r.base [] a (Nat.lt_or_ge a r.base)

theorem spoilRanges_empty_mem (l : List Range) (h : ∀ r ∈ l, r.size = 0) (s : State) (a : Nat) :
    readByte (spoilRanges l s).mem a = readByte s.mem a := by
  induction l generalizing s with
  | nil => rfl
  | cons r l ih =>
    calc readByte (spoilRanges (r :: l) s).mem a
        = readByte (spoilRange s r).mem a :=
          ih (fun q hq => h q (List.mem_cons_of_mem r hq)) (spoilRange s r)
      _ = readByte s.mem a := spoilRange_empty_mem s r (h r List.mem_cons_self) a

/-- Where no dirty byte is discarded, an invalidate changes no byte of memory. -/
theorem spoilDirty_apart_mem (s : State) (r : Range) (a : Nat)
    (h : ∀ a, inRanges s.dirty a = true → inRange r a = false) :
    readByte (spoilRanges (s.dirty.map (rangeInter · r)) s).mem a = readByte s.mem a := by
  refine spoilRanges_empty_mem _ (fun q hq => ?_) s a
  obtain ⟨d, hd, rfl⟩ := List.mem_map.mp hq
  exact rangeInter_size_of_apart d r (fun b hb => h b ((inRanges_iff _ _).mpr ⟨d, hd, hb⟩))

/-! ## Duties broken and duties done -/

theorem hostDo_start_unclean (s : State) (v : Word) (hwf : s.platform.wf = true)
    (hcoh : s.platform.dmaCoherent = false) (hb : s.busy = false) (h0 : v.getLsbD 0 = true)
    (h1 : v.getLsbD 1 = false) (h : meetsAny s.dirty s.regs.src = true) :
    hostDo (wr s.platform .ctrl v) s = .fault .coherenceHazard := by
  rw [hostDo_wr s .ctrl v hwf, writeReg, writeCtrl_start v s h0 h1 hb, accept, if_pos]
  simp [uncleanSource, hcoh, h]

/-- The destination of a command abandoned while it ran is listed as abandoned. -/
theorem resetEngine_abandoned_dst (s : State) (hb : s.busy = true)
    (hacc : accessesMemory s.platform s.latch = true) (a : Nat)
    (h : inRange s.latch.dst a = true) : inRanges (resetEngine s).abandoned a = true := by
  have habandon : (abandon s).abandoned = addRange s.abandoned s.latch.dst := by
    rw [abandon, hb, hacc]; rfl
  rw [resetEngine_abandoned, habandon]
  exact (addRange_iff _ _ _).mpr (.inr h)

theorem writeReg_coherent (r : Reg) (v : Word) (s : State) (h : s.platform.dmaCoherent = true) :
    ∃ t, writeReg r v s = .next t := by
  cases r
  case ctrl =>
    show ∃ t, writeCtrl v s = .next t
    rw [writeCtrl]
    split
    · exact ⟨_, rfl⟩
    · split
      · exact ⟨_, accept_clean _ (.inl h)⟩
      · exact ⟨_, rfl⟩
  all_goals exact ⟨_, rfl⟩

theorem hostRegWrite_coherent (w : AccessWidth) (a v : Word) (s : State)
    (h : s.platform.dmaCoherent = true) : hostRegWrite w a v s ≠ .fault .coherenceHazard := by
  rw [hostRegWrite]
  split
  · simp
  · rw [writeOffset]
    split
    · rename_i r _
      obtain ⟨t, ht⟩ := writeReg_coherent r v s h
      simp [ht]
    · simp

/-- On a coherent platform no host step ends in a coherence hazard: only START and memory reads
raise it. -/
theorem hostDo_coherent (op : HostOp) (s : State) (h : s.platform.dmaCoherent = true) :
    hostDo op s ≠ .fault .coherenceHazard := by
  cases op with
  | regWrite w a v => exact hostRegWrite_coherent w a v s h
  | regRead w a =>
    show hostRegRead w a s ≠ _
    rw [hostRegRead]
    split <;> simp
  | poll a f v =>
    show hostPoll a f v s ≠ _
    rw [hostPoll]
    split
    · simp
    · split <;> simp
  | memWrite a bs =>
    show hostMemWrite a bs s ≠ _
    rw [hostMemWrite]
    split
    · simp
    · split <;> simp
  | memRead a n =>
    by_cases hn : a + n ≤ 2 ^ 32
    · rw [hostDo_memRead s a n hn (fun k _ => readIsStale_coherent s _ h)]
      simp
    · rw [hostDo_memRead_outside s a n (by omega)]
      simp
  | waitIrq =>
    rw [hostDo_waitIrq]
    split <;> simp
  | cacheClean r =>
    show hostCacheClean r s ≠ _
    rw [hostCacheClean]
    split <;> simp
  | cacheInvalidate r =>
    show hostCacheInvalidate r s ≠ _
    rw [hostCacheInvalidate]
    split <;> simp
  | hardReset => simp [hostDo]

/-- Settles O21: a broken duty is a hazard, a clean or an invalidate ends it, and neither an
abandoned destination nor a coherent platform has one. -/
theorem coherenceDuties : Obligations.CoherenceDuties := by
  refine ⟨fun s v hwf hcoh hb h0 h1 hdirty => ?_, fun s hwf hb => ?_,
    fun s a n k hcoh hn hk hst hun hab hdst => ?_, fun s hwf hcoh hb hdone => ?_,
    fun s a n hb hacc hn hdst => ?_, fun s r hb hfree => ?_,
    fun s op hcoh => hostDo_coherent op s hcoh⟩
  · exact hostDo_start_unclean s v hwf hcoh hb h0 h1 ((meetsAny_iff _ _).mpr hdirty)
  · refine ⟨_, hostDo_cacheClean_idle s s.regs.src hb, rfl, rfl, fun v h0 h1 => ?_⟩
    exact ⟨_, hostDo_start { s with dirty := rangesMinus s.dirty s.regs.src } v hwf h0 h1 hb
      (.inr (meetsAny_rangesMinus_self _ _)), rfl, rfl⟩
  · exact hostDo_memRead_stale s a n k hk hn (readIsStale_of_listed s _ hcoh hdst hst hun hab)
  · refine ⟨_, hostDo_rd_status_seen s hwf hdone, rfl, fun a ha hun hab => ?_⟩
    refine hostDo_memRead_stale _ a 1 0 Nat.one_pos ha ?_
    exact readIsStale_of_listed _ a hcoh (.inl hb) (by simp [hcoh, inRanges_append, hun]) rfl
      (by simpa [hcoh] using hab)
  · refine ⟨_, rfl, fun r => ?_⟩
    have hidle : (resetEngine s).busy = false := resetEngine_busy s
    refine ⟨_, hostDo_cacheInvalidate_idle (resetEngine s) r hidle, ?_⟩
    exact hostDo_memRead_draws _ a n hn (fun k hk => readIsDraw_of_listed _ _
      (.inr (resetEngine_abandoned_dst s hb hacc _ (hdst k hk))))
  · refine ⟨_, hostDo_cacheInvalidate_idle s r hb, rfl,
      fun hapart a => spoilDirty_apart_mem s r a hapart, fun a n hlo hhi hn => ?_⟩
    have hin : ∀ k, k < n → inRange r (a + k) = true := fun k hk =>
      (inRange_iff r _).mpr ⟨by omega, by omega⟩
    refine ⟨_, hostDo_memRead_memory _ a n hn (fun k hk => ?_) (fun k hk => ?_), rfl⟩
    · obtain ⟨hun, hab⟩ := hfree _ (hin k hk)
      exact readIsDraw_of_unlisted _ _ (.inl hb) hun hab
    · refine readIsStale_of_not_listed _ _ ?_
      rw [Bool.eq_false_iff, ne_eq, rangesMinus_iff, hin k hk]
      simp

end Sys2Proof.Machine

/-! PROOFS. The state family: the order of a command's checks, what every command leaves, AUX. -/

namespace Sys2Proof.Machine

/-! ## The later checks (`60_exceptions.md` rules R320, R322) -/

theorem exec_of_resultOf (i : Instr) (f : ResultFn) (s : State) (h : resultOf i = some f) :
    exec i s = runCommand f s := by
  rcases exec_cases i s with ⟨rfl, -⟩ | ⟨c, hnone, -⟩ | ⟨g, hg, hexec⟩
  · cases h
  · rw [hnone] at h; cases h
  · rw [hg] at h; cases h; exact hexec

theorem memOk_false_of_bad_byte (s : State) (a n : Nat) (h : ∃ k, k < n ∧ ¬ MemOK s (a + k)) :
    memOk s.platform ⟨a, n⟩ = false := by
  obtain ⟨k, hk, hbad⟩ := h
  rw [Bool.eq_false_iff, ne_eq, memOk_bytes_iff]
  exact fun hall => hbad (hall k hk)

theorem preflight_passes (s : State) (hwrap : NoWrap s.latch) (hover : NoOverlap s.latch)
    (hlen : s.latch.srcLen.toNat ≤ s.platform.maxLen) : preflight s.platform s.latch = none :=
  (preflight_none_iff _ _).mpr ⟨hwrap.1, hwrap.2, (noOverlap_iff _).mp hover, hlen⟩

theorem outcome_source_bus_error (f : ResultFn) (s : State)
    (hp : preflight s.platform s.latch = none) (hsrc : memOk s.platform s.latch.src = false) :
    outcome f s = .fail .busError true := by
  simp [outcome, hp, hsrc]

/-- What is left to check once the result function has given its output. -/
theorem outcome_of_result (f : ResultFn) (s : State) (out : Output)
    (hm : Memory.wf s.mem = true) (hr : SourceReadable s)
    (hf : f s.platform.maxLen (sourceString s) s.latch.aux = .ok out) :
    outcome f s =
      if s.platform.maxLen < out.bytes.length then .fail .tooLarge true
      else if s.latch.dstCap.toNat < out.bytes.length then .fail .dstOverflow true
      else if memOk s.platform ⟨s.latch.dstAddr.toNat, out.bytes.length⟩ = false then
        .fail .busError true
      else .ok out.bytes out.aux := by
  obtain ⟨hp, hsrc⟩ := (sourceReadable_iff s).mp hr
  simp [outcome, hp, hsrc, sourceBytes_eq s hm, hf]

theorem runCommand_failedWith (f : ResultFn) (s : State) (c : ErrCode)
    (h : outcome f s = .fail c true) : ∃ t, runCommand f s = .next t ∧ FailedWith s t c :=
  ⟨_, rfl, by rw [h]; exact complete_failedWith s c true⟩

/-- Settles O26: each check of `outcome` is met when those before it have passed. -/
theorem laterChecksInOrder : Obligations.LaterChecksInOrder := by
  intro i f s hi hm hwrap hover hlen
  rw [exec_of_resultOf i f s hi]
  refine ⟨fun hbad => ?_, fun hr => ⟨fun c hf => runCommand_fails f s c hm hr hf,
    fun out hf => ?_⟩⟩
  · exact runCommand_failedWith f s _ (outcome_source_bus_error f s
      (preflight_passes s hwrap hover hlen) (memOk_false_of_bad_byte s _ _ hbad))
  · have hout := outcome_of_result f s out hm hr hf
    refine ⟨fun hbig => ?_, fun hmax hover => ?_, fun hmax hcap hbad => ?_, fun hfits => ?_⟩
    · exact runCommand_failedWith f s _ (by rw [hout, if_pos hbig])
    · exact runCommand_failedWith f s _ (by rw [hout, if_neg (by omega), if_pos hover])
    · have hdst := memOk_false_of_bad_byte s _ _ hbad
      exact runCommand_failedWith f s _ (by
        rw [hout, if_neg (by omega), if_neg (by omega), if_pos hdst])
    · exact runCommand_succeeds f s out ⟨hm, hr, hfits⟩ hf

/-! ## What every command leaves (`60_exceptions.md` rule R325) -/

/-- What a command leaves of the machine, whether it succeeds or fails. -/
def CompletedFrom (s t : State) : Prop :=
  t.busy = false ∧ t.done = true ∧ OperandsKept s t ∧ HostSideKept s t ∧
    ((t.errCode = none ∧ t.outLen.toNat ≤ s.latch.dstCap.toNat ∧ t.draws = s.draws ∧
        MemoryKeptOutside s t t.outLen.toNat) ∨
      ∃ c, FailedWith s t c)

theorem complete_ok_completedFrom (D : Bytes) (aux : Option Word) (s : State)
    (hcap : D.length ≤ s.latch.dstCap.toNat) : CompletedFrom s (complete (.ok D aux) s) := by
  obtain ⟨hbusy, hdone, herr, hlen, -, hops, hhost, hdraws, -, hmem⟩ :=
    complete_succeeded s D aux hcap
  exact ⟨hbusy, hdone, hops, hhost, .inl ⟨herr, by rw [hlen]; exact hcap, hdraws, by rwa [hlen]⟩⟩

theorem complete_fail_completedFrom (c : ErrCode) (touched : Bool) (s : State) :
    CompletedFrom s (complete (.fail c touched) s) := by
  obtain ⟨hbusy, hdone, -, -, hregs, hhost, -⟩ := complete_failedWith s c touched
  exact ⟨hbusy, hdone, by rw [OperandsKept, hregs]; exact ⟨rfl, rfl, rfl, rfl, rfl⟩, hhost,
    .inr ⟨c, complete_failedWith s c touched⟩⟩

theorem complete_outcome_completedFrom (f : ResultFn) (s : State) :
    CompletedFrom s (complete (outcome f s) s) := by
  cases h : outcome f s with
  | ok D aux =>
    obtain ⟨-, -, -, -, hcap, -⟩ := (outcome_ok_iff f s D aux).mp h
    exact complete_ok_completedFrom D aux s hcap
  | fail c touched => exact complete_fail_completedFrom c touched s

/-- Settles O27: every command answers a completion, whose output, if any, is within DST_CAP. -/
theorem everyCommandCompletes : Obligations.EveryCommandCompletes := by
  intro i s
  rcases exec_cases i s with ⟨-, h⟩ | ⟨c, -, h⟩ | ⟨f, -, h⟩
  · exact ⟨_, h, complete_ok_completedFrom [] none s (Nat.zero_le _)⟩
  · exact ⟨_, h, complete_fail_completedFrom c false s⟩
  · exact ⟨_, h, complete_outcome_completedFrom f s⟩

/-! ## AUX (`10_state.md` rule R38, `30_encoding.md` rule R91) -/

theorem plainResult_aux (f : Bytes → Except ErrCode Bytes) (m : Nat) (S : Bytes) (a : Word)
    (out : Output) (h : plainResult f m S a = .ok out) : out.aux = none := by
  unfold plainResult at h
  split at h <;> cases h
  rfl

/-- Only the result function of BWT_FWD gives a new AUX value. -/
theorem resultOf_aux (i : Instr) (f : ResultFn) (hi : resultOf i = some f) (hne : i ≠ .bwtFwd)
    (m : Nat) (S : Bytes) (a : Word) (out : Output) (h : f m S a = .ok out) : out.aux = none := by
  cases i
  case nop => cases hi
  case bwtFwd => exact absurd rfl hne
  case pipeEnc alg | pipeDec alg =>
    obtain ⟨g, -, rfl⟩ := Option.map_eq_some_iff.mp hi
    exact plainResult_aux _ m S a out h
  all_goals cases hi; exact plainResult_aux _ m S a out h

/-- Only the result function of BWT_INV depends on AUX. -/
theorem resultOf_reads_no_aux (i : Instr) (f : ResultFn) (hi : resultOf i = some f)
    (hne : i ≠ .bwtInv) (m : Nat) (S : Bytes) (a b : Word) : f m S a = f m S b := by
  cases i
  case nop => cases hi
  case bwtInv => exact absurd rfl hne
  case pipeEnc alg | pipeDec alg =>
    obtain ⟨g, -, rfl⟩ := Option.map_eq_some_iff.mp hi
    rfl
  all_goals cases hi; rfl

theorem complete_fail_aux (c : ErrCode) (touched : Bool) (s : State) :
    (complete (.fail c touched) s).regs.aux = s.regs.aux := by cases touched <;> rfl

/-- A completion writes AUX in a success only, and only where the result function gives a value. -/
theorem complete_outcome_aux (f : ResultFn) (s : State)
    (h : (∀ m S a out, f m S a = .ok out → out.aux = none) ∨
      (complete (outcome f s) s).errCode ≠ none) :
    (complete (outcome f s) s).regs.aux = s.regs.aux := by
  cases ho : outcome f s with
  | fail c touched => exact complete_fail_aux c touched s
  | ok D aux =>
    rcases h with h | h
    · obtain ⟨-, -, hf, -⟩ := (outcome_ok_iff f s D aux).mp ho
      obtain rfl : aux = none := h _ _ _ _ hf
      rfl
    · rw [ho] at h
      exact absurd rfl h

theorem exec_aux_kept (i : Instr) (s t : State) (h : exec i s = .next t)
    (hi : i ≠ .bwtFwd ∨ t.errCode ≠ none) : t.regs.aux = s.regs.aux := by
  rcases exec_cases i s with ⟨-, he⟩ | ⟨c, -, he⟩ | ⟨f, hf, he⟩ <;> rw [he] at h <;> cases h
  · rfl
  · rfl
  · exact complete_outcome_aux f s (hi.imp_left (resultOf_aux i f hf))

/-- The state with another AUX value in the latch. -/
def withLatchedAux (s : State) (v : Word) : State :=
  { s with latch := { s.latch with aux := v } }

/-- The checks of a command and its source do not look at AUX; its result function may. -/
theorem outcome_withLatchedAux (f : ResultFn) (s : State) (v : Word)
    (h : ∀ m S a b, f m S a = f m S b) : outcome f (withLatchedAux s v) = outcome f s := by
  show outcome f { s with latch := { s.latch with aux := v } } = _
  unfold outcome
  rw [h _ _ _ s.latch.aux]
  rfl

theorem complete_withLatchedAux (o : CmdOutcome) (s : State) (v : Word) :
    complete o (withLatchedAux s v) = withLatchedAux (complete o s) v := by
  cases o with
  | ok D aux => rfl
  | fail c touched => cases touched <;> rfl

/-- A command without a result function has one outcome from every state. -/
theorem exec_of_no_result (i : Instr) (h : resultOf i = none) :
    ∃ o, ∀ s, exec i s = .next (complete o s) := by
  cases i
  case nop => exact ⟨.ok [] none, fun s => rfl⟩
  case pipeEnc alg =>
    have ha : algOf alg = none := Option.map_eq_none_iff.mp h
    exact ⟨.fail .illegalCmd false, fun s => by simp [exec, execPipeEnc, ha]⟩
  case pipeDec alg =>
    have ha : algOf alg = none := Option.map_eq_none_iff.mp h
    exact ⟨.fail .unknownAlg false, fun s => by simp [exec, execPipeDec, ha]⟩
  all_goals cases h

theorem exec_withLatchedAux (i : Instr) (s t : State) (v : Word) (hne : i ≠ .bwtInv)
    (h : exec i s = .next t) : exec i (withLatchedAux s v) = .next (withLatchedAux t v) := by
  cases hi : resultOf i with
  | none =>
    obtain ⟨o, ho⟩ := exec_of_no_result i hi
    rw [ho] at h ⊢
    cases h
    rw [complete_withLatchedAux]
  | some f =>
    rw [exec_of_resultOf i f _ hi, runCommand] at h ⊢
    cases h
    rw [outcome_withLatchedAux f s v (resultOf_reads_no_aux i f hi hne), complete_withLatchedAux]

/-- Settles O30: of the result functions only BWT_FWD's gives AUX and only BWT_INV's looks at it. -/
theorem onlyBwtUsesAux : Obligations.OnlyBwtUsesAux :=
  ⟨exec_aux_kept, fun i s t v hne h => exec_withLatchedAux i s t v hne h⟩

end Sys2Proof.Machine

/-! PROOFS. The state family: progress. A running command completes unless a reset abandons it, and
`RUN` ends with its command's effect. -/

namespace Sys2Proof.Machine

/-! ## Runs, step by step -/

theorem run_succ_next (M : Host.Core) (s t : M.State) (k : Nat) (h : M.step s = .next t) :
    M.run (k + 1) s = M.run k t := by rw [Host.Core.run, h]

theorem run_one (M : Host.Core) (s : M.State) : M.run 1 s = M.step s := by
  rw [Host.Core.run]
  cases M.step s <;> rfl

theorem run_add_next (M : Host.Core) (s t : M.State) (k j : Nat) (h : M.run k s = .next t) :
    M.run (k + j) s = M.run j t := by
  induction k generalizing s with
  | zero => cases h; rw [Nat.zero_add]
  | succ k ih =>
    rw [Host.Core.run] at h
    rw [Nat.succ_add, Host.Core.run]
    cases hs : M.step s with
    | next r => simp only [hs] at h ⊢; exact ih r h
    | fault f => simp only [hs] at h; cases h
    | refused r => simp only [hs] at h; cases h

/-- `k` steps of the machine: the host's run, at the model's own types. -/
def machineRun (k : Nat) (s : State) : Host.Outcome State Fault Refusal := Host.Core.run core k s

theorem machineRun_one (s : State) : machineRun 1 s = step s := run_one core s

theorem machineRun_succ_of_step (k : Nat) (s t : State) (h : step s = .next t) :
    machineRun (k + 1) s = machineRun k t := run_succ_next core s t k h

theorem machineRun_add (j k : Nat) (s t : State) (h : machineRun j s = .next t) :
    machineRun (j + k) s = machineRun k t := run_add_next core s t j k h

/-! ## A step while BUSY = 1 (`70_reset_and_hazards.md` rule R368) -/

theorem nextAgent_engine (s : State) (hb : s.busy = true) (ht : s.turns.head? ≠ some .host) :
    nextAgent s = some .engine := by
  unfold nextAgent
  rw [hb]
  split
  · cases hts : s.turns with
    | nil => rfl
    | cons a ts =>
      cases a with
      | host => exact absurd (by rw [hts]; rfl) ht
      | engine => rfl
  · rfl

/-- While BUSY = 1 a step is the engine's, or the host's at the cost of one turn. -/
theorem step_busy_cases (s : State) (hb : s.busy = true) :
    (∃ ts, step s = engineStep { s with turns := ts }) ∨
      ∃ op rest ts, s.inputs = op :: rest ∧ s.turns = .host :: ts ∧
        step s = hostDo op { s with inputs := rest, turns := ts } := by
  by_cases hnil : s.inputs = []
  · exact .inl ⟨s.turns, step_of_no_access_left s hb hnil⟩
  · obtain ⟨op, rest, hi⟩ := List.exists_cons_of_ne_nil hnil
    by_cases hh : s.turns.head? = some .host
    · obtain ⟨ts, hts⟩ := List.head?_eq_some_iff.mp hh
      refine .inr ⟨op, rest, ts, hi, hts, ?_⟩
      rw [stepTakesTheHostsNextAccess.1 s op rest hi (.inr hh), if_pos hb, hts]
      rfl
    · refine .inl ⟨s.turns.tail, ?_⟩
      rw [step, nextAgent_engine s hb hh]
      show engineStep (takeTurn s) = _
      rw [takeTurn_of_access_left s op rest hi, if_pos hb]

theorem engineStep_done (s : State) :
    ∃ t, engineStep s = .next t ∧ t.busy = false ∧ t.done = true := by
  obtain ⟨o, ho⟩ := engineStep_completes s
  obtain ⟨hbusy, hdone, -⟩ := complete_frame o s
  exact ⟨_, ho, hbusy, hdone⟩

/-! ## Completion -/

/-- BUSY has fallen from `s` to `t`, by a completion or by a reset in the host program. -/
def CompletedOrReset (s t : State) : Prop :=
  t.busy = false ∧ (t.done = true ∨
    ∃ pre op, s.inputs = pre ++ op :: t.inputs ∧ isReset s.platform op = true)

/-- The run from `s` has come to its completion, a reset or a stop after `k` steps. -/
def SettledAfter (s : State) (k : Nat) : Prop :=
  (∃ t, machineRun k s = .next t ∧ CompletedOrReset s t) ∨
    (∃ f, machineRun k s = .fault f) ∨ ∃ r, machineRun k s = .refused r

theorem SettledAfter.of_engineStep {s : State} {ts : List Agent}
    (hstep : step s = engineStep { s with turns := ts }) : SettledAfter s 1 := by
  obtain ⟨t, ht, hbusy, hdone⟩ := engineStep_done { s with turns := ts }
  exact .inl ⟨t, by rw [machineRun_one, hstep, ht], hbusy, .inl hdone⟩

/-- A host step that leaves BUSY set delays the end by one step and hides no reset. -/
theorem SettledAfter.of_step {s t : State} {op : HostOp} {rest : List HostOp} {k : Nat}
    (hstep : step s = .next t) (hs : s.inputs = op :: rest)
    (hi : t.inputs = rest ∨ t.inputs = op :: rest) (hp : t.platform = s.platform)
    (h : SettledAfter t k) : SettledAfter s (k + 1) := by
  have hsuffix : ∃ pre, s.inputs = pre ++ t.inputs := by
    rcases hi with hi | hi
    · exact ⟨[op], by rw [hs, hi]; rfl⟩
    · exact ⟨[], by rw [hs, hi]; rfl⟩
  unfold SettledAfter at h ⊢
  rw [machineRun_succ_of_step k s t hstep]
  refine h.imp_left fun ⟨v, hv, hbusy, hend⟩ => ⟨v, hv, hbusy, hend.imp_right ?_⟩
  rintro ⟨pre, rop, hpre, hreset⟩
  obtain ⟨pre', hpre'⟩ := hsuffix
  exact ⟨pre' ++ pre, rop, by rw [hpre', hpre, List.append_assoc], by rwa [← hp]⟩

theorem SettledAfter.of_reset {s t : State} {op : HostOp} {rest : List HostOp}
    (hstep : step s = .next t) (hs : s.inputs = op :: rest) (hi : t.inputs = rest)
    (hb : t.busy = false) (hreset : isReset s.platform op = true) : SettledAfter s 1 :=
  .inl ⟨t, by rw [machineRun_one, hstep], hb, .inr ⟨[], op, by rw [hs, hi]; rfl, hreset⟩⟩

theorem settled_within_turns (ts : List Agent) (s : State) (hts : s.turns = ts)
    (hb : s.busy = true) : ∃ k, k ≤ ts.length + 1 ∧ SettledAfter s k := by
  induction ts generalizing s with
  | nil =>
    rcases step_busy_cases s hb with ⟨ts, hstep⟩ | ⟨op, rest, ts, -, ht, -⟩
    · exact ⟨1, Nat.le_refl 1, .of_engineStep hstep⟩
    · rw [hts] at ht; cases ht
  | cons a ts ih =>
    rcases step_busy_cases s hb with ⟨ts', hstep⟩ | ⟨op, rest, ts', hi, ht, hstep⟩
    · exact ⟨1, by omega, .of_engineStep hstep⟩
    · rw [hts] at ht
      cases ht
      cases hop : hostDo op { s with inputs := rest, turns := ts } with
      | fault f => exact ⟨1, by omega, .inr (.inl ⟨f, by rw [machineRun_one, hstep, hop]⟩)⟩
      | refused r => exact ⟨1, by omega, .inr (.inr ⟨r, by rw [machineRun_one, hstep, hop]⟩)⟩
      | next t =>
        rw [hop] at hstep
        rcases hostDo_busy_cases op { s with inputs := rest, turns := ts } t hb
          hop with ⟨hbt, htt, hpt, hit⟩ | ⟨hreset, hbt, hit⟩
        · obtain ⟨k, hk, hsettled⟩ := ih t htt hbt
          exact ⟨k + 1, by simpa using hk, hsettled.of_step hstep hi hit hpt⟩
        · exact ⟨1, by omega, .of_reset hstep hi hit hbt hreset⟩

/-- Settles O23: each host step spends a turn, and without a turn the engine moves. -/
theorem completionIsReached : Obligations.CompletionIsReached :=
  fun s _ hb => settled_within_turns s.turns s rfl hb

/-! ## The words of commands decode (`30_encoding.md` rule R94) -/

theorem cmdWord_decoded_fields (opc : Nat) (alg : BitVec 8) (h : opc < 2 ^ 8) :
    cmdOpc (cmdWord opc alg.toNat) = opc ∧ cmdAlg (cmdWord opc alg.toNat) = alg.toNat ∧
      cmdRsvd (cmdWord opc alg.toNat) = 0 := by
  obtain ⟨hopc, hrsvd⟩ := Laws.CommandWord.cmdWord_fields opc alg h
  refine ⟨hopc, ?_, hrsvd⟩
  have := alg.isLt
  unfold cmdAlg cmdWord
  rw [BitVec.toNat_ofNat]
  omega

theorem decode_encode_of_wf (i : Instr) (h : i.wf = true) : decode (encode i) = .ok i := by
  cases i
  case pipeEnc alg =>
    obtain ⟨hopc, halg, hrsvd⟩ := cmdWord_decoded_fields 0x10 alg (by decide)
    have hknown : ¬ 6 ≤ alg.toNat := by simpa [Instr.wf, algKnown] using h
    simp [encode, decode, hopc, halg, hrsvd, hknown, opcPipeDec, opcPipeEnc]
  case pipeDec alg =>
    obtain ⟨hopc, halg, hrsvd⟩ := cmdWord_decoded_fields 0x11 alg (by decide)
    have hknown : ¬ 6 ≤ alg.toNat := by simpa [Instr.wf, algKnown] using h
    simp [encode, decode, hopc, halg, hrsvd, hknown, opcPipeDec]
  all_goals decide

/-! ## RUN: the writes of the operand registers (`30_encoding.md` rule R99) -/

/-- The operand registers after a list of writes. -/
def setOperands (ws : List (Reg × Word)) (o : Operands) : Operands :=
  ws.foldl (fun o w => setOperand w.1 w.2 o) o

/-- The writes of a list, as statements of a host program. -/
def writeStatements (p : Platform) (ws : List (Reg × Word)) : List HostOp :=
  ws.map (fun w => wr p w.1 w.2)

theorem step_idle_of_access_left (s : State) (op : HostOp) (rest : List HostOp)
    (hb : s.busy = false) (hi : s.inputs = op :: rest) :
    step s = hostDo op { s with inputs := rest } := by
  rw [stepTakesTheHostsNextAccess.1 s op rest hi (.inl hb), hb]
  rfl

theorem run_operand_writes (ws : List (Reg × Word)) (rest : List HostOp) (s : State)
    (hwf : s.platform.wf = true) (hb : s.busy = false) (hr : ∀ w ∈ ws, w.1 ∈ operandRegs)
    (hi : s.inputs = writeStatements s.platform ws ++ rest) :
    machineRun ws.length s =
      .next { s with inputs := rest, regs := setOperands ws s.regs } := by
  induction ws generalizing s with
  | nil => obtain rfl : s.inputs = rest := hi; rfl
  | cons w ws ih =>
    have hstep : step s = .next { s with
        inputs := writeStatements s.platform ws ++ rest, regs := setOperand w.1 w.2 s.regs } := by
      rw [step_idle_of_access_left s (wr s.platform w.1 w.2) _ hb hi]
      exact (hostDo_wr { s with inputs := writeStatements s.platform ws ++ rest } w.1 w.2 hwf).trans
        (writeReg_operand_idle w.1 w.2 _ (hr w List.mem_cons_self) hb)
    rw [List.length_cons, machineRun_succ_of_step _ s _ hstep]
    exact ih _ hwf hb (fun v hv => hr v (List.mem_cons_of_mem w hv)) rfl

/-- The register writes of RUN before START. -/
def runWrites (i : Instr) (a : RunArgs) (aux : Option Word) : List (Reg × Word) :=
  [(.srcAddr, a.src), (.srcLen, a.len), (.dstAddr, a.dst), (.dstCap, a.cap)] ++
    aux.toList.map (fun v => (.aux, v)) ++ [(.cmd, encode i)]

/-- The word that RUN writes to CTRL. -/
def runCtrl (irq : Bool) : Word := if irq then 0x00000005 else 0x00000001

/-- What RUN does after START. -/
def runWait (p : Platform) (irq : Bool) : List HostOp :=
  if irq then [.waitIrq, rd p .status] else [pollDone p]

theorem runStatement_eq (p : Platform) (i : Instr) (a : RunArgs) (aux : Option Word) (irq : Bool) :
    runStatement p i a aux irq =
      writeStatements p (runWrites i a aux) ++ wr p .ctrl (runCtrl irq) :: runWait p irq := by
  cases aux <;> cases irq <;> rfl

theorem runWrites_operandRegs (i : Instr) (a : RunArgs) (aux : Option Word) :
    ∀ w ∈ runWrites i a aux, w.1 ∈ operandRegs := by
  cases aux <;> simp [runWrites, operandRegs]

theorem length_runWrites_le (i : Instr) (a : RunArgs) (aux : Option Word) :
    (runWrites i a aux).length ≤ 6 := by
  cases aux <;> simp [runWrites]

theorem setOperands_runWrites (i : Instr) (a : RunArgs) (aux : Option Word) (o : Operands) :
    setOperands (runWrites i a aux) o =
      ⟨encode i, a.src, a.len, a.dst, a.cap, aux.getD o.aux⟩ := by
  cases aux <;> rfl

/-- RUN's wait, with these turns left: the command accepted, its operands in the registers. -/
def runStarted (s : State) (args : Operands) (irq : Bool) (ts : List Agent) : State :=
  latchCommand { s with
    inputs := runWait s.platform irq, regs := args, irqEn := irq, turns := ts }

/-- RUN up to START: the operands are latched and the engine runs, with the wait left to do. -/
theorem run_to_start (s : State) (i : Instr) (a : RunArgs) (aux : Option Word) (irq : Bool)
    (args : Operands) (hargs : args = ⟨encode i, a.src, a.len, a.dst, a.cap, aux.getD s.regs.aux⟩)
    (hwf : s.platform.wf = true) (hb : s.busy = false)
    (hi : s.inputs = runStatement s.platform i a aux irq)
    (hclean : s.platform.dmaCoherent = true ∨ meetsAny s.dirty args.src = false) :
    machineRun ((runWrites i a aux).length + 1) s = .next (runStarted s args irq s.turns) := by
  rw [runStatement_eq] at hi
  have hwrites := run_operand_writes _ _ s hwf hb (runWrites_operandRegs i a aux) hi
  rw [setOperands_runWrites, ← hargs] at hwrites
  have hstep := step_idle_of_access_left
    { s with inputs := wr s.platform .ctrl (runCtrl irq) :: runWait s.platform irq, regs := args }
    (wr s.platform .ctrl (runCtrl irq)) (runWait s.platform irq) hb rfl
  have hstart := hostDo_start { s with inputs := runWait s.platform irq, regs := args }
    (runCtrl irq) hwf (by cases irq <;> rfl) (by cases irq <;> rfl) hb hclean
  rw [show (runCtrl irq).getLsbD 2 = irq by cases irq <;> rfl] at hstart
  rw [machineRun_add _ 1 s _ hwrites, machineRun_one]
  exact hstep.trans hstart

/-! ## RUN: the wait for the completion -/

theorem fieldValue_done (s : State) : fieldValue doneField (statusWord s) = bit s.done := by
  have hbounds := statusFields_bounds s
  show (statusWord s).toNat / 2 ^ 1 % 2 ^ 1 = _
  rw [statusWord_toNat]
  omega

/-- `POLL STATUS.DONE == 1` goes on once DONE = 1, and until then changes nothing. -/
theorem hostDo_pollDone (s : State) (hwf : s.platform.wf = true) : hostDo (pollDone s.platform) s =
    if s.done then .next (seeCompletion Reg.status.offset s)
    else .next { s with inputs := pollDone s.platform :: s.inputs } := by
  have hread : readOffset Reg.status.offset s = statusWord s := rfl
  have haccess : accessOffset s.platform .word (regAddr s.platform .status) =
      .ok Reg.status.offset := accessOffset_base_add _ _ hwf (by decide) (by decide)
  show hostPoll (regAddr s.platform .status) doneField 1 s = _
  rw [hostPoll, haccess]
  simp only [hread, fieldValue_done]
  by_cases hd : s.done = true
  · rw [if_pos (by rw [hd]; rfl), if_pos hd]
  · rw [Bool.not_eq_true] at hd
    rw [seeCompletion_unseen _ s (.inr hd), if_neg (by rw [hd]; decide), if_neg (by simp [hd])]
    rfl

/-- While no completion is seen, RUN's wait stays where it is. -/
theorem runWait_stays (w : State) (irq : Bool) (hwf : w.platform.wf = true) (hd : w.done = false)
    (hi : w.inputs = runWait w.platform irq) (op : HostOp) (rest : List HostOp)
    (hop : w.inputs = op :: rest) (ts : List Agent) :
    hostDo op { w with inputs := rest, turns := ts } = .next { w with turns := ts } := by
  rw [hop] at hi
  cases irq with
  | false =>
    cases hi
    refine (hostDo_pollDone { w with inputs := [], turns := ts } hwf).trans ?_
    simp [hd, hop]
  | true =>
    cases hi
    rw [hostDo_waitIrq, if_neg (by simp [irq, hd])]
    simp [hop]

/-- A host that can only wait loses to the engine: within one step more than it has turns, the
engine's step is taken from the state in which the wait began. -/
theorem run_wait_to_engine (ts : List Agent) (w : State) (hts : w.turns = ts) (hb : w.busy = true)
    (hstay : ∀ op rest, w.inputs = op :: rest → ∀ ts',
      hostDo op { w with inputs := rest, turns := ts' } = .next { w with turns := ts' }) :
    ∃ k, k ≤ ts.length + 1 ∧ ∃ ts',
      machineRun k w = engineStep { w with turns := ts' } := by
  induction ts generalizing w with
  | nil =>
    rcases step_busy_cases w hb with ⟨ts', hstep⟩ | ⟨op, rest, ts', -, ht, -⟩
    · exact ⟨1, Nat.le_refl 1, ts', by rw [machineRun_one, hstep]⟩
    · rw [hts] at ht; cases ht
  | cons a ts ih =>
    rcases step_busy_cases w hb with ⟨ts', hstep⟩ | ⟨op, rest, ts', hi, ht, hstep⟩
    · exact ⟨1, by omega, ts', by rw [machineRun_one, hstep]⟩
    · rw [hts] at ht
      cases ht
      rw [hstay op rest hi ts] at hstep
      obtain ⟨k, hk, ts', hrun⟩ := ih { w with turns := ts } rfl hb hstay
      exact ⟨k + 1, by simpa using hk, ts', by rw [machineRun_succ_of_step k w _ hstep, hrun]⟩

/-! ## RUN: after the completion -/

/-- `v` is `t` with the host program at its end and DONE = 1 seen by a STATUS read, which stands
among what the host has read when RUN is the form with IRQ. -/
def SeenFrom (t v : State) (irq : Bool) : Prop :=
  ∃ abandoned stale, v = { t with
    inputs := [], unsynced := [], abandoned := abandoned, stale := stale
    observed := t.observed ++
      if irq then [.reg (regAddr t.platform .status) (readReg .status t)] else [] }

theorem run_wait_completed (t : State) (irq : Bool) (hwf : t.platform.wf = true)
    (hb : t.busy = false) (hd : t.done = true) (hirq : t.irqEn = irq)
    (hi : t.inputs = runWait t.platform irq) :
    ∃ k v, k ≤ 2 ∧ machineRun k t = .next v ∧ SeenFrom t v irq := by
  cases irq with
  | false =>
    have hstep : step t = .next (seeCompletion Reg.status.offset { t with inputs := [] }) := by
      rw [step_idle_of_access_left t (pollDone t.platform) [] hb hi]
      exact (hostDo_pollDone { t with inputs := [] } hwf).trans (if_pos hd)
    refine ⟨1, _, by omega, (machineRun_one t).trans hstep, ?_⟩
    rw [SeenFrom, seeCompletion_seen { t with inputs := [] } hd, if_neg Bool.false_ne_true,
      List.append_nil]
    exact ⟨_, _, rfl⟩
  | true =>
    have hwait : step t = .next { t with inputs := [rd t.platform .status] } := by
      rw [step_idle_of_access_left t .waitIrq [rd t.platform .status] hb hi, hostDo_waitIrq,
        if_pos (by simp [irq, hd, hirq])]
    have hread := (step_idle_of_access_left { t with inputs := [rd t.platform .status] }
      (rd t.platform .status) [] hb rfl).trans
      (hostDo_rd_status_seen { t with inputs := [] } hwf hd)
    exact ⟨2, _, by omega,
      (machineRun_succ_of_step 1 t _ hwait).trans ((machineRun_one _).trans hread), _, _, rfl⟩

/-- The engine's step on the latched word of a command runs that command. -/
theorem engineStep_of_latched (i : Instr) (u : State) (hwf : i.wf = true)
    (h : u.latch.cmd = encode i) : engineStep u = exec i u := by
  rw [engineStep, h, decode_encode_of_wf i hwf]

/-- RUN's wait, from START on: the engine runs the command once, and the host sees it complete. -/
theorem run_from_start (s : State) (i : Instr) (args : Operands) (irq : Bool)
    (hplat : s.platform.wf = true) (hwf : i.wf = true) (hcmd : args.cmd = encode i) :
    ∃ k ts o v, k ≤ s.turns.length + 3 ∧
      exec i (runStarted s args irq ts) = .next (complete o (runStarted s args irq ts)) ∧
      machineRun k (runStarted s args irq s.turns) = .next v ∧
      SeenFrom (complete o (runStarted s args irq ts)) v irq := by
  have hstay := runWait_stays (runStarted s args irq s.turns) irq hplat rfl rfl
  obtain ⟨k₁, hk₁, ts, hengine⟩ :=
    run_wait_to_engine s.turns (runStarted s args irq s.turns) rfl rfl hstay
  obtain ⟨o, ho⟩ := exec_completes i (runStarted s args irq ts)
  have hcompleted :=
    (hengine.trans (engineStep_of_latched i (runStarted s args irq ts) hwf hcmd)).trans ho
  obtain ⟨hbusy, hdone, hirq, -, hp, hi, -⟩ := complete_frame o (runStarted s args irq ts)
  obtain ⟨k₂, v, hk₂, hv, hseen⟩ := run_wait_completed _ irq (by rw [hp]; exact hplat) hbusy hdone
    hirq (by rw [hi, hp]; rfl)
  exact ⟨k₁ + k₂, ts, o, v, by omega, ho, (machineRun_add k₁ k₂ _ _ hcompleted).trans hv, hseen⟩

/-- Settles O24: RUN's writes and START, then its wait; what the host sees at the end is what the
command left. -/
theorem runStatementCompletes : Obligations.RunStatementCompletes := by
  intro s i a aux irq hs hwf hb hi hclean args
  have hstart := run_to_start s i a aux irq args rfl hs.platform hb hi hclean
  obtain ⟨k, ts, o, v, hk, ho, hv, hseen⟩ := run_from_start s i args irq hs.platform hwf rfl
  have hlen := length_runWrites_le i a aux
  obtain ⟨hbusy, hdone, hirq, -, hp, -, -, hobs, -⟩ := complete_frame o (runStarted s args irq ts)
  obtain ⟨abandoned, stale, rfl⟩ := hseen
  refine ⟨_, runStarted s args irq ts, _, _, ?_, rfl, rfl, rfl, rfl, rfl, ho,
    (machineRun_add _ k s _ hstart).trans hv, ⟨rfl, hbusy⟩, hdone, hirq, rfl, rfl, rfl, rfl, hp,
    rfl, ?_⟩
  · omega
  · simp only [hobs, hp]
    rfl

end Sys2Proof.Machine

/-! PROOFS. The memory family: the range checks before any memory access, host accesses to a running
command's buffers, and what a success leaves for the host to synchronise. -/

namespace Sys2Proof.Machine

/-! ## The range and size checks (`20_memory.md` rules R76, R77, `60_exceptions.md` rule R320) -/

theorem wraps_or_iff (o : Operands) :
    (wraps o.src || wraps o.dst) = true ↔ ¬ NoWrap o := by
  unfold wraps addrSpace Operands.src Operands.dst NoWrap
  simp only [Bool.or_eq_true, decide_eq_true_eq]
  omega

theorem preflight_of_wrap (p : Platform) (o : Operands) (h : ¬ NoWrap o) :
    preflight p o = some .badRange := by
  rw [preflight, if_pos ((wraps_or_iff o).mpr h)]

theorem preflight_of_noWrap (p : Platform) (o : Operands) (h : NoWrap o) :
    preflight p o = if rangesMeet o.src o.dst then some .overlap
      else if p.maxLen < o.srcLen.toNat then some .tooLarge else none := by
  rw [preflight, if_neg (fun hw => (wraps_or_iff o).mp hw h)]

theorem preflight_of_overlap (p : Platform) (o : Operands) (hwrap : NoWrap o)
    (h : ¬ NoOverlap o) : preflight p o = some .overlap := by
  rw [preflight_of_noWrap p o hwrap, if_pos]
  rwa [noOverlap_iff, Bool.not_eq_false] at h

theorem preflight_of_large_source (p : Platform) (o : Operands) (hwrap : NoWrap o)
    (hover : NoOverlap o) (h : p.maxLen < o.srcLen.toNat) : preflight p o = some .tooLarge := by
  rw [preflight_of_noWrap p o hwrap, (noOverlap_iff o).mp hover, if_neg Bool.false_ne_true,
    if_pos h]

theorem algOf_of_known (alg : BitVec 8) (h : algKnown alg = true) : ∃ a, algOf alg = some a :=
  ⟨_, List.getElem?_eq_getElem (show alg.toNat < 6 from of_decide_eq_true h)⟩

/-- Every command but NOP has a result function, a pipeline where its ALG is a known one. -/
theorem resultOf_of_wf (i : Instr) (hwf : i.wf = true) (hne : i ≠ .nop) :
    ∃ f, resultOf i = some f := by
  cases i
  case nop => exact absurd rfl hne
  case pipeEnc alg | pipeDec alg =>
    obtain ⟨a, ha⟩ := algOf_of_known alg hwf
    exact ⟨_, Option.map_eq_some_iff.mpr ⟨a, ha, rfl⟩⟩
  all_goals exact ⟨_, rfl⟩

/-- Settles O25: every command but NOP makes the checks of `preflight` first, in their order. -/
theorem rangeChecksComeFirst : Obligations.RangeChecksComeFirst := by
  intro i s hwf hne
  obtain ⟨f, hf⟩ := resultOf_of_wf i hwf hne
  rw [exec_of_resultOf i f s hf]
  exact ⟨fun hwrap => runCommand_fails_early f s _ (preflight_of_wrap _ _ hwrap),
    fun hwrap hover => runCommand_fails_early f s _ (preflight_of_overlap _ _ hwrap hover),
    fun hwrap hover hlen =>
      runCommand_fails_early f s _ (preflight_of_large_source _ _ hwrap hover hlen)⟩

/-! ## Host accesses to the buffers of a running command (`20_memory.md` rule R86) -/

theorem rangesMeet_bytes_iff (r : Range) (a n : Nat) :
    rangesMeet r ⟨a, n⟩ = true ↔ ∃ k, k < n ∧ inRange r (a + k) = true := by
  rw [rangesMeet_iff]
  constructor
  · rintro ⟨x, hr, hx⟩
    obtain ⟨hlo, hhi⟩ := (inRange_iff _ _).mp hx
    obtain ⟨k, rfl⟩ := Nat.exists_eq_add_of_le hlo
    exact ⟨k, Nat.lt_of_add_lt_add_left hhi, hr⟩
  · rintro ⟨k, hk, hr⟩
    exact ⟨a + k, hr, (inRange_iff _ _).mpr ⟨Nat.le_add_right a k, Nat.add_lt_add_left hk a⟩⟩

theorem hitsLatched_bytes_iff (s : State) (a n : Nat) (hb : s.busy = true) :
    hitsLatched s ⟨a, n⟩ = true ↔ ∃ k, k < n ∧
      (inRange s.latch.src (a + k) = true ∨ inRange s.latch.dst (a + k) = true) := by
  simp only [hitsLatched, hb, Bool.true_and, Bool.or_eq_true, rangesMeet_bytes_iff, and_or_left,
    exists_or]

theorem hostDo_memWrite_hazard (s : State) (a : Nat) (bs : Bytes) (h : a + bs.length ≤ 2 ^ 32)
    (hh : hitsLatched s ⟨a, bs.length⟩ = true) :
    hostDo (.memWrite a bs) s = .fault .bufferHazard := by
  show hostMemWrite a bs s = _
  rw [hostMemWrite, if_neg (show ¬ addrSpace < a + bs.length from Nat.not_lt.mpr h), if_pos hh]

theorem readIsDraw_of_running_dst (s : State) (a : Nat) (hb : s.busy = true)
    (h : inRange s.latch.dst a = true) : readIsDraw s a = true := by
  simp [readIsDraw, hb, h]

/-- Settles O19: a write is a hazard exactly where it hits a latched byte, destination bytes are
draws, and no step follows a fault. -/
theorem bufferHazard : Obligations.BufferHazard := by
  refine ⟨fun s a bs hb h => ⟨fun hhit => ?_, fun hmiss => ?_⟩, fun s a n hb h hdst => ?_,
    fun s f k hf => ?_⟩
  · exact hostDo_memWrite_hazard s a bs h ((hitsLatched_bytes_iff s a _ hb).mpr hhit)
  · have hclear : hitsLatched s ⟨a, bs.length⟩ = false := by
      rw [Bool.eq_false_iff, ne_eq, hitsLatched_bytes_iff s a _ hb]
      rintro ⟨k, hk, hin⟩
      simp [hmiss k hk] at hin
    exact ⟨_, hostDo_memWrite s a bs h hclear,
      fun k hk => readByte_writeBytes_inside _ _ _ _ hk,
      fun x hx => readByte_writeBytes_outside _ _ _ _ hx⟩
  · exact hostDo_memRead_draws s a n h
      (fun k hk => readIsDraw_of_running_dst s _ hb (hdst k hk))
  · rw [Nat.add_comm]
    exact run_add_fault core s f 1 k ((run_one core s).trans hf)

/-! ## What a success leaves for the host to synchronise (`20_memory.md` rules R78(b), R80) -/

theorem complete_fail_errCode (c : ErrCode) (touched : Bool) (s : State) :
    (complete (.fail c touched) s).errCode = some c := by cases touched <;> rfl

/-- A command that ends without an error has stored an output within DST_CAP. -/
theorem exec_success (i : Instr) (s t : State) (h : exec i s = .next t) (he : t.errCode = none) :
    ∃ D aux, D.length ≤ s.latch.dstCap.toNat ∧ t = complete (.ok D aux) s := by
  rcases exec_cases i s with ⟨-, hi⟩ | ⟨c, -, hi⟩ | ⟨f, -, hi⟩ <;> rw [hi] at h <;> cases h
  · exact ⟨[], none, Nat.zero_le _, rfl⟩
  · cases he
  · cases ho : outcome f s with
    | ok D aux =>
      obtain ⟨-, -, -, -, hcap, -⟩ := (outcome_ok_iff f s D aux).mp ho
      exact ⟨D, aux, hcap, rfl⟩
    | fail c touched =>
      rw [ho, complete_fail_errCode] at he
      cases he

/-- Settles O28: a success adds the stored range to one list and takes it from the two others. -/
theorem engineWritesAwaitTheHost : Obligations.EngineWritesAwaitTheHost := by
  intro i s t h he a
  obtain ⟨D, aux, hcap, rfl⟩ := exec_success i s t h he
  obtain ⟨-, -, -, hlen, -⟩ := complete_succeeded s D aux hcap
  rw [hlen, complete_ok_unsynced, complete_ok_abandoned, complete_ok_dirty, storeDst_unsynced,
    storeDst_abandoned, storeDst_dirty, addRange_iff, rangesMinus_iff, rangesMinus_iff,
    Bool.eq_false_iff, ne_eq, inRange_iff]
  exact ⟨Iff.rfl, Iff.rfl, Iff.rfl⟩

end Sys2Proof.Machine

/-! PROOFS. The encoding family: what the decoder answers for every command word, the NOP command, and
a poll that nothing ends. -/

namespace Sys2Proof

/-! ## The fields of the command word (`30_encoding.md` rule R90) -/

theorem extractLsb'_opc (w : Word) : (w.extractLsb' 0 8).toNat = cmdOpc w := by
  rw [BitVec.extractLsb'_toNat, Nat.shiftRight_zero, cmdOpc]

theorem extractLsb'_alg (w : Word) : (w.extractLsb' 8 8).toNat = cmdAlg w := by
  rw [BitVec.extractLsb'_toNat, Nat.shiftRight_eq_div_pow, cmdAlg]

theorem extractLsb'_rsvd (w : Word) : (w.extractLsb' 16 16).toNat = cmdRsvd w := by
  have hw := w.isLt
  rw [BitVec.extractLsb'_toNat, Nat.shiftRight_eq_div_pow, cmdRsvd]
  exact Nat.mod_eq_of_lt (by omega)

/-- With RSVD = 0 the word is made of its OPC and its ALG. -/
theorem cmdWord_of_fields (w : Word) (h : cmdRsvd w = 0) : cmdWord (cmdOpc w) (cmdAlg w) = w := by
  apply BitVec.eq_of_toNat_eq
  rw [cmdWord, BitVec.toNat_ofNat]
  unfold cmdRsvd at h
  unfold cmdOpc cmdAlg
  omega

theorem toNat_ofNat_cmdAlg (w : Word) : (BitVec.ofNat 8 (cmdAlg w)).toNat = cmdAlg w := by
  rw [BitVec.toNat_ofNat, cmdAlg, Nat.mod_mod]

/-! ## The opcodes that carry no ALG (`30_encoding.md` rule R92) -/

theorem plainOpcodes_encode :
    ∀ p ∈ plainOpcodes, p.2.wf = true ∧ encode p.2 = cmdWord p.1 0 := by decide

theorem exists_plainOpcode (opc : Nat) (h : opc < 0x0F) : ∃ i, (opc, i) ∈ plainOpcodes := by
  have hkeys : plainOpcodes.map Prod.fst = List.range 0x0F := rfl
  obtain ⟨⟨opc', i⟩, hmem, rfl⟩ := List.mem_map.mp (hkeys ▸ List.mem_range.mpr h)
  exact ⟨i, hmem⟩

theorem plainOpcodes_lookup_none (opc : Nat) (h : 0x0F ≤ opc) :
    plainOpcodes.lookup opc = none := by
  have hkeys : ∀ p ∈ plainOpcodes, p.1 < 0x0F := by decide
  exact List.lookup_eq_none_iff.mpr fun p hp => bne_iff_ne.mpr (by have := hkeys p hp; omega)

/-! ## What the decoder answers (`30_encoding.md` rules R92 to R95) -/

/-- PIPE_DEC with an unknown algorithm identifier, whatever RSVD holds (`92_eei_decisions.md` D3). -/
def UnknownAlgWord (w : Word) : Prop := cmdOpc w = 0x11 ∧ 6 ≤ cmdAlg w

/-- A reserved opcode, a nonzero RSVD, ALG on a non-pipeline opcode, or PIPE_ENC with an unknown
algorithm identifier. -/
def IllegalWord (w : Word) : Prop :=
  cmdOpc w = 0x0F ∨ 0x12 ≤ cmdOpc w ∨ cmdRsvd w ≠ 0 ∨
    (cmdAlg w ≠ 0 ∧ cmdOpc w ≠ 0x10 ∧ cmdOpc w ≠ 0x11) ∨ (cmdOpc w = 0x10 ∧ 6 ≤ cmdAlg w)

theorem decode_of_unknownAlg (w : Word) (h : UnknownAlgWord w) : decode w = .error .unknownAlg :=
  if_pos h

/-- Each test of the decoder that an illegal word passes leaves one of the later ones to fail. -/
theorem decode_of_illegal (w : Word) (h : IllegalWord w) (hknown : ¬ UnknownAlgWord w) :
    decode w = .error .illegalCmd := by
  rw [decode, if_neg (show ¬ (cmdOpc w = opcPipeDec ∧ 6 ≤ cmdAlg w) from hknown)]
  unfold IllegalWord at h
  unfold UnknownAlgWord at hknown
  by_cases hrsvd : cmdRsvd w ≠ 0
  · rw [if_pos hrsvd]
  have hdec : cmdOpc w ≠ opcPipeDec := by unfold opcPipeDec; omega
  rw [if_neg hrsvd, if_neg hdec]
  by_cases henc : cmdOpc w = opcPipeEnc
  · have halg : 6 ≤ cmdAlg w := by unfold opcPipeEnc at henc; omega
    rw [if_pos henc, if_pos halg]
  rw [if_neg henc]
  by_cases halg : cmdAlg w ≠ 0
  · rw [if_pos halg]
  have hopc : 0x0F ≤ cmdOpc w := by omega
  rw [if_neg halg, plainOpcodes_lookup_none _ hopc]

/-- Every word that is not illegal is the encoding of a command. -/
theorem exists_encode_of_legal (w : Word) (hlegal : ¬ IllegalWord w) (hknown : ¬ UnknownAlgWord w) :
    ∃ i : Instr, i.wf = true ∧ encode i = w := by
  unfold IllegalWord at hlegal
  unfold UnknownAlgWord at hknown
  have hword := cmdWord_of_fields w (by omega)
  by_cases hpipe : cmdOpc w = 0x10 ∨ cmdOpc w = 0x11
  · have hwf : algKnown (BitVec.ofNat 8 (cmdAlg w)) = true :=
      decide_eq_true (by rw [toNat_ofNat_cmdAlg]; omega)
    rcases hpipe with hopc | hopc
    · refine ⟨.pipeEnc (BitVec.ofNat 8 (cmdAlg w)), hwf, ?_⟩
      rw [encode, toNat_ofNat_cmdAlg, opcPipeEnc, ← hopc, hword]
    · refine ⟨.pipeDec (BitVec.ofNat 8 (cmdAlg w)), hwf, ?_⟩
      rw [encode, toNat_ofNat_cmdAlg, opcPipeDec, ← hopc, hword]
  · obtain ⟨i, hi⟩ := exists_plainOpcode (cmdOpc w) (by omega)
    obtain ⟨hwf, hencode⟩ := plainOpcodes_encode _ hi
    have halg : cmdAlg w = 0 := by omega
    exact ⟨i, hwf, by rw [hencode, ← halg, hword]⟩

theorem decode_of_legal (w : Word) (hlegal : ¬ IllegalWord w) (hknown : ¬ UnknownAlgWord w) :
    ∃ i : Instr, decode w = .ok i ∧ i.wf = true ∧ encode i = w := by
  obtain ⟨i, hwf, rfl⟩ := exists_encode_of_legal w hlegal hknown
  exact ⟨i, Machine.decode_encode_of_wf i hwf, hwf, rfl⟩

theorem decode_ok_iff (w : Word) (i : Instr) : decode w = .ok i ↔ i.wf = true ∧ encode i = w := by
  constructor
  · intro h
    by_cases hunknown : UnknownAlgWord w
    · rw [decode_of_unknownAlg w hunknown] at h
      cases h
    by_cases hillegal : IllegalWord w
    · rw [decode_of_illegal w hillegal hunknown] at h
      cases h
    · obtain ⟨j, hj, hcommand⟩ := decode_of_legal w hillegal hunknown
      rw [hj] at h
      cases h
      exact hcommand
  · rintro ⟨hwf, rfl⟩
    exact Machine.decode_encode_of_wf i hwf

/-- On 32 bits the table decoder answers a command exactly where the decoder does. -/
theorem decodeTableWord_32_iff (w : Word) (i : Instr) :
    decodeTableWord 32 w.toNat = some i ↔ decode w = .ok i := by
  have hword : tableWord 32 w.toNat = some w := by
    rw [tableWord, Nat.mod_eq_of_lt w.isLt, if_pos w.isLt, BitVec.ofNat_toNat, BitVec.setWidth_eq]
  simp only [decodeTableWord, hword]
  cases decode w <;> simp

/-- Settles O2: legal words are the encodings of commands, and the decoder refuses all others. -/
theorem decodeAgreesWithEncode : Obligations.DecodeAgreesWithEncode :=
  ⟨decode_ok_iff, fun w i => (decodeTableWord_32_iff w i).trans (decode_ok_iff w i)⟩

/-- Settles O1: each word of the map is its command's encoding, which decodes back. -/
theorem commandWordsOfTheOpcodeMap : Obligations.CommandWordsOfTheOpcodeMap := by
  have hrow : ∀ (i : Instr) (w : Word), i.wf = true → encode i = w →
      encode i = w ∧ decode w = .ok i :=
    fun i w hwf hw => ⟨hw, (decode_ok_iff w i).mpr ⟨hwf, hw⟩⟩
  unfold Obligations.CommandWordsOfTheOpcodeMap
  iterate 26 refine ⟨hrow _ _ rfl rfl, ?_⟩
  exact hrow _ _ rfl rfl

end Sys2Proof

namespace Sys2Proof.Machine

/-! ## Illegal words (`30_encoding.md` rule R95, `60_exceptions.md` rule R320 step 1) -/

theorem engineStep_of_decode_error (s : State) (e : DecodeError)
    (h : decode s.latch.cmd = .error e) :
    ∃ t, engineStep s = .next t ∧ FailedEarly s t (illegalWordCode e) :=
  ⟨completeIllegal e s, by rw [engineStep, h], complete_failedEarly s _⟩

/-- Settles O3: the decoder's answer for the word's kind, and what the engine's step makes of it. -/
theorem illegalWordsFail : Obligations.IllegalWordsFail := by
  intro s
  simp only [extractLsb'_opc, extractLsb'_alg, extractLsb'_rsvd]
  refine ⟨fun hunknown => ?_, fun hillegal hknown => ?_, fun hlegal hknown => ?_⟩
  · exact engineStep_of_decode_error s .unknownAlg (decode_of_unknownAlg _ hunknown)
  · exact engineStep_of_decode_error s .illegalCmd (decode_of_illegal _ hillegal hknown)
  · obtain ⟨i, hi, hwf, -⟩ := decode_of_legal _ hlegal hknown
    exact ⟨i, hi, hwf⟩

/-! ## NOP (`30_encoding.md` rule R96) -/

theorem addRange_empty (rs : List Range) (a : Nat) : addRange rs ⟨a, 0⟩ = rs := if_pos rfl

theorem rangesMinus_empty (rs : List Range) (a : Nat) : rangesMinus rs ⟨a, 0⟩ = rs := by
  have hminus : ∀ r, rangeMinus r ⟨a, 0⟩ = [r] := fun r => if_neg (by simp [rangesMeet])
  simp only [rangesMinus, hminus, List.flatMap_singleton']

/-- Storing the empty output changes neither memory nor the record of the engine's writes. -/
theorem storeDst_nil (s : State) (hm : Memory.wf s.mem = true) : storeDst [] s = s := by
  rw [storeDst, noteEngineWrite, List.length_nil]
  simp only [writeBytes_nil s.mem _ hm, addRange_empty, rangesMinus_empty]

theorem complete_ok_nil (s : State) (hm : Memory.wf s.mem = true) : complete (.ok [] none) s =
    { s with outLen := 0, errCode := none, busy := false, done := true } := by
  rw [complete, storeDst_nil s hm]
  rfl

theorem decode_nop_iff (w : Word) : decode w = .ok .nop ↔ w = 0 := by
  rw [decode_ok_iff]
  exact ⟨fun ⟨_, hw⟩ => hw.symm, fun hw => ⟨rfl, hw.symm⟩⟩

theorem decode_of_reservedOpcode (w : Word) (h : cmdOpc w = 0x0F ∨ 0x12 ≤ cmdOpc w) :
    decode w = .error .illegalCmd := by
  refine decode_of_illegal w ?_ ?_
  · unfold IllegalWord; omega
  · unfold UnknownAlgWord; omega

/-- Settles O31: NOP is the success with the empty output, and only the word 0 encodes it. -/
theorem nopCompletes : Obligations.NopCompletes := by
  refine ⟨fun s hm => ?_, decode_nop_iff, rfl, fun w hw => ?_⟩
  · refine ⟨complete (.ok [] none) s, rfl, complete_succeeded s [] none (Nat.zero_le _), ?_⟩
    rw [complete_ok_nil s hm]
    exact ⟨rfl, rfl, rfl, rfl⟩
  · rw [extractLsb'_opc] at hw
    exact ⟨.illegalCmd, decode_of_reservedOpcode w hw⟩

/-! ## A poll that nothing ends (`30_encoding.md` rule R98, `70_reset_and_hazards.md` rule R368) -/

theorem machineRun_of_fixed_step (s : State) (k : Nat) (h : step s = .next s) :
    machineRun k s = .next s := by
  induction k with
  | zero => rfl
  | succ k ih => rw [machineRun_succ_of_step k s s h, ih]

/-- In IDLE with DONE = 0 a poll of DONE reads 0 and stays the next statement. -/
theorem step_pollDone_stays (s : State) (hwf : s.platform.wf = true) (hb : s.busy = false)
    (hd : s.done = false) (hi : s.inputs = [pollDone s.platform]) : step s = .next s := by
  rw [step_idle_of_access_left s (pollDone s.platform) [] hb hi]
  exact runWait_stays s false hwf hd hi _ _ hi s.turns

/-- Settles O22: the poll's one step leaves the state as it was, so every number of steps does. -/
theorem pollWithoutStartNeverEnds : Obligations.PollWithoutStartNeverEnds :=
  fun s k hwf hb hd hi => machineRun_of_fixed_step s k (step_pollDone_stays s hwf hb hd hi)

end Sys2Proof.Machine

/-! PROOFS. The bit-stream family: what the writer holds is the sequence of bits put so far, so the
packed string's bits are the sequence put, and the reader reads them off. -/

namespace Sys2Proof.Machine

open Sys2Proof.Reference

/-! ## The bits of a number and of a byte string, most significant first -/

/-- The low `k` bits of a number, most significant first: the stream's order (rule R123). -/
def msbFirst (k n : Nat) : List Bool := (List.range k).map (fun j => n.testBit (k - 1 - j))

@[simp] theorem length_msbFirst (k n : Nat) : (msbFirst k n).length = k := by simp [msbFirst]

@[simp] theorem msbFirst_zero (n : Nat) : msbFirst 0 n = [] := rfl

theorem msbFirst_succ (k n : Nat) (b : Bool) :
    msbFirst (k + 1) (2 * n + if b then 1 else 0) = msbFirst k n ++ [b] := by
  have hlast : (2 * n + if b then 1 else 0).testBit 0 = b := by cases b <;> simp
  have hhigh : ∀ i, (2 * n + if b then 1 else 0).testBit (i + 1) = n.testBit i := by
    have hhalf : (2 * n + if b then 1 else 0) / 2 = n := by split <;> omega
    intro i
    rw [Nat.testBit_add_one, hhalf]
  simp only [msbFirst, List.range_succ, List.map_append, List.map_singleton]
  congr 1
  · refine List.map_congr_left fun j hj => ?_
    rw [← hhigh]
    congr 1
    have := List.mem_range.mp hj
    omega
  · simpa using hlast

theorem msbFirst_mul_two_pow (k n m : Nat) :
    msbFirst (k + m) (n * 2 ^ m) = msbFirst k n ++ List.replicate m false := by
  induction m with
  | zero => simp
  | succ m ih =>
    have hshift : n * 2 ^ (m + 1) = 2 * (n * 2 ^ m) + if false then 1 else 0 := by
      rw [if_neg Bool.false_ne_true]
      ring
    rw [hshift, ← Nat.add_assoc, msbFirst_succ, ih, List.append_assoc, List.replicate_succ']

/-- The stream of a byte string: the bits of each byte in turn, bit 7 first. -/
def streamBits (W : Bytes) : List Bool := W.flatMap (fun b => msbFirst 8 b.toNat)

theorem streamBits_append_byte (W : Bytes) (n : Nat) :
    streamBits (W ++ [BitVec.ofNat 8 n]) = streamBits W ++ msbFirst 8 n := by
  have hbyte : msbFirst 8 (BitVec.ofNat 8 n).toNat = msbFirst 8 n := by
    refine List.map_congr_left fun j hj => ?_
    rw [BitVec.toNat_ofNat, Nat.testBit_mod_two_pow, decide_eq_true (by omega), Bool.true_and]
  rw [streamBits, List.flatMap_append, List.flatMap_singleton, hbyte, streamBits]

theorem length_streamBits (W : Bytes) : (streamBits W).length = 8 * W.length := by
  simp [streamBits, List.length_flatMap, Nat.mul_comm]

theorem getD_streamBits (W : Bytes) (j : Nat) :
    (streamBits W).getD j false = (byteIn W (j / 8)).getLsbD (7 - j % 8) := by
  induction W generalizing j with
  | nil => simp [streamBits, byteIn]
  | cons b W ih =>
    have hcons : streamBits (b :: W) = msbFirst 8 b.toNat ++ streamBits W := List.flatMap_cons
    rw [hcons]
    by_cases hj : j < 8
    · rw [List.getD_append _ _ _ _ (by simpa using hj), Nat.div_eq_of_lt hj, Nat.mod_eq_of_lt hj]
      simp [msbFirst, byteIn, hj, BitVec.getLsbD]
    · obtain ⟨i, rfl⟩ := Nat.exists_eq_add_of_le' (Nat.not_lt.mp hj)
      rw [List.getD_append_right _ _ _ _ (by simp), length_msbFirst, Nat.add_sub_cancel, ih,
        Nat.add_div_right _ (by decide), Nat.add_mod_right]
      rfl

/-! ## The writer (`40_bitstream.md` rules R120 to R123) -/

/-- The bits a writer holds: those of the finished bytes, then the `nb` of the partial byte. -/
def writerBits (w : BitWriter) : List Bool := streamBits w.outRev.reverse ++ msbFirst w.nb w.acc

theorem putBit_of_full (b : Bool) (w : BitWriter) (h : w.nb + 1 = 8) : putBit b w =
    ⟨BitVec.ofNat 8 (2 * w.acc + if b then 1 else 0) :: w.outRev, 0, 0⟩ := if_pos h

theorem putBit_of_room (b : Bool) (w : BitWriter) (h : w.nb + 1 ≠ 8) : putBit b w =
    ⟨w.outRev, 2 * w.acc + if b then 1 else 0, w.nb + 1⟩ := if_neg h

theorem writerBits_putBit (b : Bool) (w : BitWriter) :
    writerBits (putBit b w) = writerBits w ++ [b] := by
  have hheld := msbFirst_succ w.nb w.acc b
  by_cases hfull : w.nb + 1 = 8
  · rw [hfull] at hheld
    simp only [putBit_of_full b w hfull, writerBits, List.reverse_cons, streamBits_append_byte,
      hheld, msbFirst_zero, List.append_nil, List.append_assoc]
  · rw [putBit_of_room b w hfull, writerBits, hheld, writerBits, List.append_assoc]

theorem putBit_nb_lt (b : Bool) (w : BitWriter) (h : w.nb < 8) : (putBit b w).nb < 8 := by
  by_cases hfull : w.nb + 1 = 8
  · rw [putBit_of_full b w hfull]
    exact Nat.zero_lt_succ 7
  · rw [putBit_of_room b w hfull]
    exact Nat.lt_of_le_of_ne h hfull

theorem putBit_foldl (bits : List Bool) (w : BitWriter) (h : w.nb < 8) :
    writerBits (bits.foldl (fun w b => putBit b w) w) = writerBits w ++ bits ∧
    (bits.foldl (fun w b => putBit b w) w).nb < 8 := by
  induction bits generalizing w with
  | nil => simpa using h
  | cons b bits ih => simpa [writerBits_putBit] using ih (putBit b w) (putBit_nb_lt b w h)

theorem streamBits_flush (w : BitWriter) (h : w.nb < 8) :
    ∃ pad, pad < 8 ∧ streamBits (flush w) = writerBits w ++ List.replicate pad false := by
  unfold flush
  split
  next hheld =>
    refine ⟨8 - w.nb, by omega, ?_⟩
    have hbyte := msbFirst_mul_two_pow w.nb w.acc (8 - w.nb)
    rw [Nat.add_sub_cancel' h.le] at hbyte
    rw [List.reverse_cons, streamBits_append_byte, hbyte, writerBits, List.append_assoc]
  next hnone =>
    refine ⟨0, by decide, ?_⟩
    simp [writerBits, Nat.eq_zero_of_not_pos hnone]

/-- The packed string's stream is the sequence put, filled up with zeros to whole bytes. -/
theorem streamBits_packBits (bits : List Bool) :
    ∃ pad, pad < 8 ∧ streamBits (packBits bits) = bits ++ List.replicate pad false := by
  obtain ⟨hbits, hnb⟩ := putBit_foldl bits emptyWriter (by decide)
  obtain ⟨pad, hpad, hflush⟩ := streamBits_flush _ hnb
  exact ⟨pad, hpad, by rw [packBits, hflush, hbits]; rfl⟩

theorem length_packBits (bits : List Bool) : (packBits bits).length = (bits.length + 7) / 8 := by
  obtain ⟨pad, hpad, hstream⟩ := streamBits_packBits bits
  have hlen := congrArg List.length hstream
  rw [length_streamBits, List.length_append, List.length_replicate] at hlen
  omega

theorem getD_streamBits_packBits (bits : List Bool) (j : Nat) :
    (streamBits (packBits bits)).getD j false = bits.getD j false := by
  obtain ⟨pad, -, hstream⟩ := streamBits_packBits bits
  rw [hstream]
  by_cases hj : j < bits.length
  · rw [List.getD_append _ _ _ _ hj]
  · rw [List.getD_append_right _ _ _ _ (by omega), List.getD_eq_default bits _ (by omega)]
    rw [List.getD_eq_getElem?_getD, List.getElem?_replicate]
    split <;> rfl

/-! ## The reader (`40_bitstream.md` rules R125, R127) -/

theorem msbBit_eq_bit (b : Byte) (j : Nat) : msbBit b j = bit (b.getLsbD (7 - j)) := by
  rw [msbBit, BitVec.getLsbD, Nat.testBit_eq_decide_div_mod_eq, bit]
  simp only [decide_eq_true_eq]
  split <;> omega

/-- The reader reads the string's stream, and zeros past its end. -/
theorem bitHere_eq_bit (W : Bytes) (j : Nat) :
    bitHere ⟨W, j⟩ = bit ((streamBits W).getD j false) := by
  rw [getD_streamBits, bitHere]
  split
  next => exact msbBit_eq_bit _ _
  next hend => rw [byteIn, List.getD_eq_default _ _ (Nat.not_lt.mp hend)]; simp [bit]

theorem bitHere_packBits (bits : List Bool) (j : Nat) :
    bitHere ⟨packBits bits, j⟩ = bit (bits.getD j false) := by
  rw [bitHere_eq_bit, getD_streamBits_packBits]

theorem unpackBits_packBits (bits : List Bool) (m : Nat) :
    unpackBits (packBits bits) (bits.length + m) = bits.map bit ++ List.replicate m 0 := by
  have hbits : (List.range bits.length).map (fun j => bit (bits.getD j false)) = bits.map bit :=
    List.ext_getElem (by simp) (by simp +contextual)
  have hzeros : ∀ j, bit (bits.getD (bits.length + j) false) = 0 := fun j => by
    rw [List.getD_eq_default _ _ (Nat.le_add_right _ _)]
    rfl
  simp only [unpackBits, bitHere_packBits, List.range_add, List.map_append, List.map_map, hbits]
  congr 1
  simp only [Function.comp_def, hzeros, List.map_const', List.length_range]

/-- Settles O48: the packed string's stream is the sequence put and zeros, and the reader reads it
off. -/
theorem bitPackerRoundTrip : Obligations.BitPackerRoundTrip := fun bits =>
  ⟨length_packBits bits,
    fun j _ => (getD_streamBits _ j).symm.trans (getD_streamBits_packBits bits j),
    unpackBits_packBits bits⟩

end Sys2Proof.Machine

/-! PROOFS. The arithmetic coder family: the interval under narrowing and renormalization, tables and the
symbol at a scaled position. -/

namespace Sys2Proof.Machine

open Sys2Proof.Reference

/-! ## The interval (`41_arith_coder.md` rule R160) -/

/-- Bounds in order and within 32 bits (rule R160(d)). -/
def Ordered (v : Interval) : Prop := v.low ≤ v.high ∧ v.high < 2 ^ 32

theorem settled_iff (v : Interval) : Settled v ↔ renormCase v = .settled ∧ v.high < 2 ^ 32 := by
  unfold Settled renormCase acHalf acQuarter acThreeQuarter
  grind

theorem ordered_of_settled {v : Interval} (h : Settled v) : Ordered v := by
  obtain ⟨hlow, hhigh, hbound, -⟩ := h
  exact ⟨by omega, hbound⟩

theorem width_of_settled {v : Interval} (h : Settled v) : 2 ^ 30 < intervalWidth v := by
  obtain ⟨hlow, hhigh, hbound, hmid⟩ := h
  unfold intervalWidth
  omega

theorem settled_fullInterval : Settled fullInterval := by
  unfold Settled fullInterval acTop
  decide

/-- A shift subtracts no more than `low`, and the bounds that are left are below half. -/
theorem renormOffset_bounds {v : Interval} (hv : Ordered v) (h : renormCase v ≠ .settled) :
    renormOffset (renormCase v) ≤ v.low ∧ v.high - renormOffset (renormCase v) < 2 ^ 31 := by
  obtain ⟨hle, hbound⟩ := hv
  revert h
  unfold renormCase acHalf acQuarter acThreeQuarter
  split_ifs <;> simp [renormOffset, acHalf, acQuarter] <;> omega

theorem shiftBounds_ordered {v : Interval} (hv : Ordered v) (h : renormCase v ≠ .settled) :
    Ordered (shiftBounds (renormOffset (renormCase v)) v) := by
  obtain ⟨hoff, hhalf⟩ := renormOffset_bounds hv h
  obtain ⟨hle, -⟩ := hv
  unfold Ordered shiftBounds
  constructor <;> simp only <;> omega

/-- Each shift doubles the width, so that few are needed. -/
theorem width_shiftBounds {v : Interval} (hv : Ordered v) (h : renormCase v ≠ .settled) :
    intervalWidth (shiftBounds (renormOffset (renormCase v)) v) = 2 * intervalWidth v := by
  obtain ⟨hoff, -⟩ := renormOffset_bounds hv h
  obtain ⟨hle, -⟩ := hv
  simp only [intervalWidth, shiftBounds]
  omega

/-! ## Renormalization, shared by the encoder and the decoder (rules R148, R158) -/

/-- The loop of both renormalizations: while a test holds, shift. -/
def renormLoop {σ : Type} (iv : σ → Interval) (shift : RenormCase → σ → σ) : Nat → σ → σ
  | 0, x => x
  | k + 1, x =>
    if renormCase (iv x) = .settled then x
    else renormLoop iv shift k (shift (renormCase (iv x)) x)

theorem renormEnc_eq_loop (k : Nat) (e : Encoder) :
    renormEnc k e = renormLoop Encoder.interval renormEncShift k e := by
  induction k generalizing e with
  | zero => rfl
  | succ k ih => cases h : renormCase e.interval <;> simp [renormEnc, renormLoop, h, ih]

theorem renormDec_eq_loop (k : Nat) (d : Decoder) :
    renormDec k d = renormLoop Decoder.interval renormDecShift k d := by
  induction k generalizing d with
  | zero => rfl
  | succ k ih => cases h : renormCase d.interval <;> simp [renormDec, renormLoop, h, ih]

section Loop
variable {σ : Type} {iv : σ → Interval} {shift : RenormCase → σ → σ}

theorem renormLoop_of_settled (k : Nat) {x : σ} (h : renormCase (iv x) = .settled) :
    renormLoop iv shift k x = x := by
  cases k with
  | zero => rfl
  | succ k => exact if_pos h

theorem renormLoop_of_unsettled (k : Nat) {x : σ} (h : renormCase (iv x) ≠ .settled) :
    renormLoop iv shift (k + 1) x = renormLoop iv shift k (shift (renormCase (iv x)) x) := if_neg h

/-- What every shift keeps, the loop keeps. -/
theorem renormLoop_invariant {Q : σ → Prop}
    (hshift : ∀ x, Q x → renormCase (iv x) ≠ .settled → Q (shift (renormCase (iv x)) x))
    (k : Nat) (x : σ) (h : Q x) : Q (renormLoop iv shift k x) := by
  induction k generalizing x with
  | zero => exact h
  | succ k ih =>
    by_cases hc : renormCase (iv x) = .settled
    · rwa [renormLoop_of_settled _ hc]
    · rw [renormLoop_of_unsettled _ hc]
      exact ih _ (hshift x h hc)

theorem renormLoop_add (k j : Nat) (x : σ) :
    renormLoop iv shift (k + j) x = renormLoop iv shift j (renormLoop iv shift k x) := by
  induction k generalizing x with
  | zero => rw [Nat.zero_add]; rfl
  | succ k ih =>
    by_cases hc : renormCase (iv x) = .settled
    · simp only [renormLoop_of_settled _ hc]
    · rw [Nat.succ_add, renormLoop_of_unsettled _ hc, renormLoop_of_unsettled _ hc, ih]

/-- The width doubles with each shift and never exceeds 2^32, so `k` shifts settle an interval whose
width is at least `2^(32 - k)`. -/
theorem renormLoop_settles (hiv : ∀ c x, iv (shift c x) = shiftBounds (renormOffset c) (iv x))
    (k : Nat) (x : σ) (hx : Ordered (iv x)) (hk : 2 ^ 32 ≤ intervalWidth (iv x) * 2 ^ k) :
    Settled (iv (renormLoop iv shift k x)) := by
  induction k generalizing x with
  | zero =>
    refine (settled_iff _).mpr ⟨?_, hx.2⟩
    by_contra hc
    obtain ⟨hoff, hhalf⟩ := renormOffset_bounds hx hc
    unfold intervalWidth at hk
    omega
  | succ k ih =>
    by_cases hc : renormCase (iv x) = .settled
    · rw [renormLoop_of_settled _ hc]
      exact (settled_iff _).mpr ⟨hc, hx.2⟩
    · rw [renormLoop_of_unsettled _ hc]
      refine ih _ ?_ ?_
      · rw [hiv]
        exact shiftBounds_ordered hx hc
      · rw [hiv, width_shiftBounds hx hc]
        calc 2 ^ 32 ≤ intervalWidth (iv x) * 2 ^ (k + 1) := hk
          _ = 2 * intervalWidth (iv x) * 2 ^ k := by ring

/-- The model's fuel settles every interval, so more of it changes nothing. -/
theorem renormLoop_fuel (hiv : ∀ c x, iv (shift c x) = shiftBounds (renormOffset c) (iv x))
    (x : σ) (hx : Ordered (iv x)) :
    Settled (iv (renormLoop iv shift renormFuel x)) ∧
      ∀ j, renormLoop iv shift (renormFuel + j) x = renormLoop iv shift renormFuel x := by
  have hsettled := renormLoop_settles hiv renormFuel x hx
    (Nat.le_mul_of_pos_left _ (Nat.succ_pos _))
  refine ⟨hsettled, fun j => ?_⟩
  rw [renormLoop_add, renormLoop_of_settled _ ((settled_iff _).mp hsettled).1]

end Loop

theorem interval_renormEncShift (c : RenormCase) (e : Encoder) :
    (renormEncShift c e).interval = shiftBounds (renormOffset c) e.interval := rfl

theorem interval_renormDecShift (c : RenormCase) (d : Decoder) :
    (renormDecShift c d).interval = shiftBounds (renormOffset c) d.interval := rfl

/-! ## Tables and cumulative counts (rule R143) -/

theorem cumFreq_zero (tb : FreqTable) : cumFreq tb 0 = 0 := by simp [cumFreq]

theorem cumFreq_cons_succ (c : Nat) (tb : FreqTable) (s : Nat) :
    cumFreq (c :: tb) (s + 1) = c + cumFreq tb s := by simp [cumFreq]

theorem cumFreq_le_total (tb : FreqTable) (s : Nat) : cumFreq tb s ≤ tableTotal tb := by
  rw [tableTotal, ← List.sum_take_add_sum_drop tb s]
  exact Nat.le_add_right _ _

theorem cumFreq_lt_succ {tb : FreqTable} (hpos : ∀ c ∈ tb, 1 ≤ c) {s : Nat} (hs : s < tb.length) :
    cumFreq tb s < cumFreq tb (s + 1) := by
  have := hpos _ (List.getElem_mem hs)
  rw [cumFreq, cumFreq, List.sum_take_succ _ _ hs]
  omega

/-- A position below the total lies in the interval of the symbol found (rule R156). -/
theorem symbolAt_spec (tb : FreqTable) (x : Nat) (h : x < tableTotal tb) :
    symbolAt tb x < tb.length ∧ cumFreq tb (symbolAt tb x) ≤ x ∧
      x < cumFreq tb (symbolAt tb x + 1) := by
  induction tb generalizing x with
  | nil => exact absurd h (Nat.not_lt_zero x)
  | cons c tb ih =>
    rw [tableTotal, List.sum_cons] at h
    by_cases hx : x < c
    · simp [symbolAt, hx, cumFreq]
    · obtain ⟨hlen, hlow, hhigh⟩ := ih (x - c) (by rw [tableTotal]; omega)
      simp only [symbolAt, if_neg hx, Nat.add_comm 1, cumFreq_cons_succ, List.length_cons]
      omega

/-- No other symbol's interval holds the position. -/
theorem symbolAt_eq_of_mem (tb : FreqTable) (x s : Nat) (hlow : cumFreq tb s ≤ x)
    (hhigh : x < cumFreq tb (s + 1)) : symbolAt tb x = s := by
  induction tb generalizing x s with
  | nil => simp [cumFreq] at hhigh
  | cons c tb ih =>
    rw [cumFreq_cons_succ] at hhigh
    cases s with
    | zero => exact if_pos (by rwa [cumFreq_zero, Nat.add_zero] at hhigh)
    | succ s =>
      rw [cumFreq_cons_succ] at hlow
      rw [symbolAt, if_neg (by omega), ih (x - c) s (by omega) (by omega), Nat.add_comm]

/-! ## Narrowing (rules R147, R157) -/

section Narrow
variable {tb : FreqTable} {v : Interval}

theorem tableTotal_pos (htb : UsableTable tb) : 0 < tableTotal tb := by
  obtain ⟨hlen, hpos, -⟩ := htb
  calc 0 ≤ cumFreq tb 0 := Nat.zero_le _
    _ < cumFreq tb 1 := cumFreq_lt_succ hpos (by omega)
    _ ≤ tableTotal tb := cumFreq_le_total tb 1

theorem intervalWidth_pos (v : Interval) : 0 < intervalWidth v := Nat.succ_pos _

theorem tableTotal_lt_width (htb : UsableTable tb) (hv : Settled v) :
    tableTotal tb < intervalWidth v := by
  have := htb.2.2
  have := width_of_settled hv
  omega

theorem low_le_narrow_low (s : Nat) : v.low ≤ (narrow tb s v).low := Nat.le_add_right _ _

/-- The scaled interval ends no later than the whole one. -/
theorem narrow_high_le (hv : Settled v) (s : Nat) :
    (narrow tb s v).high ≤ v.high := by
  have hle : intervalWidth v * cumFreq tb (s + 1) / tableTotal tb ≤ intervalWidth v :=
    Nat.div_le_of_le_mul (by
      rw [Nat.mul_comm]
      exact Nat.mul_le_mul_right _ (cumFreq_le_total tb (s + 1)))
  have := (ordered_of_settled hv).1
  simp only [narrow]
  unfold intervalWidth at hle ⊢
  omega

/-- The width is over the total, so a count of 1 already gives a position (rule R160(b)). -/
theorem scaledCum_lt_succ (htb : UsableTable tb) (hv : Settled v) {s : Nat} (hs : s < 256) :
    intervalWidth v * cumFreq tb s / tableTotal tb <
      intervalWidth v * cumFreq tb (s + 1) / tableTotal tb := by
  have hcum := cumFreq_lt_succ htb.2.1 (htb.1.symm ▸ hs)
  calc intervalWidth v * cumFreq tb s / tableTotal tb
      < intervalWidth v * cumFreq tb s / tableTotal tb + 1 := Nat.lt_succ_self _
    _ = (intervalWidth v * cumFreq tb s + tableTotal tb) / tableTotal tb :=
      (Nat.add_div_right _ (tableTotal_pos htb)).symm
    _ ≤ (intervalWidth v * cumFreq tb s + intervalWidth v) / tableTotal tb :=
      Nat.div_le_div_right (Nat.add_le_add_left (tableTotal_lt_width htb hv).le _)
    _ ≤ intervalWidth v * cumFreq tb (s + 1) / tableTotal tb :=
      Nat.div_le_div_right (Nat.mul_le_mul_left (intervalWidth v) hcum)

theorem narrow_low_le_high (htb : UsableTable tb) (hv : Settled v) {s : Nat} (hs : s < 256) :
    (narrow tb s v).low ≤ (narrow tb s v).high := by
  have := scaledCum_lt_succ htb hv hs
  simp only [narrow]
  omega

theorem narrow_ordered (htb : UsableTable tb) (hv : Settled v) {s : Nat} (hs : s < 256) :
    Ordered (narrow tb s v) :=
  ⟨narrow_low_le_high htb hv hs, (narrow_high_le hv s).trans_lt (ordered_of_settled hv).2⟩

theorem scaledPos_lt_total (htb : UsableTable tb) {d : Decoder} (hlow : d.interval.low ≤ d.value)
    (hhigh : d.value ≤ d.interval.high) : scaledPos tb d < tableTotal tb := by
  have htot := tableTotal_pos htb
  have hoff : d.value - d.interval.low + 1 ≤ intervalWidth d.interval := by
    unfold intervalWidth
    omega
  have hmul := Nat.mul_le_mul_right (tableTotal tb) hoff
  have hpos : 0 < (d.value - d.interval.low + 1) * tableTotal tb := by positivity
  refine Nat.div_lt_of_lt_mul ?_
  omega

/-- The scaled position is the exact inverse of narrowing (rule R156): it lies in a symbol's
cumulative interval exactly where the value lies in the interval narrowed to the symbol. -/
theorem scaledPos_mem_iff (htb : UsableTable tb) {d : Decoder} (hd : Settled d.interval)
    (hlow : d.interval.low ≤ d.value) {s : Nat} (hs : s < 256) :
    (cumFreq tb s ≤ scaledPos tb d ∧ scaledPos tb d < cumFreq tb (s + 1)) ↔
      ((narrow tb s d.interval).low ≤ d.value ∧ d.value ≤ (narrow tb s d.interval).high) := by
  have htot := tableTotal_pos htb
  have hgap := scaledCum_lt_succ htb hd hs
  have hpos : 0 < (d.value - d.interval.low + 1) * tableTotal tb := by positivity
  have hlower : cumFreq tb s ≤ scaledPos tb d ↔
      intervalWidth d.interval * cumFreq tb s / tableTotal tb < d.value - d.interval.low + 1 := by
    rw [scaledPos, Nat.le_div_iff_mul_le (intervalWidth_pos _), Nat.div_lt_iff_lt_mul htot,
      Nat.mul_comm (cumFreq tb s)]
    omega
  have hupper : scaledPos tb d < cumFreq tb (s + 1) ↔ d.value - d.interval.low + 1 ≤
      intervalWidth d.interval * cumFreq tb (s + 1) / tableTotal tb := by
    rw [scaledPos, Nat.div_lt_iff_lt_mul (intervalWidth_pos _), Nat.le_div_iff_mul_le htot,
      Nat.mul_comm (cumFreq tb (s + 1))]
    omega
  rw [hlower, hupper]
  simp only [narrow]
  generalize intervalWidth d.interval * cumFreq tb s / tableTotal tb = lower at hgap ⊢
  generalize intervalWidth d.interval * cumFreq tb (s + 1) / tableTotal tb = upper at hgap ⊢
  omega

end Narrow

end Sys2Proof.Machine

/-! PROOFS. The arithmetic coder family: the decoder's value stays inside its interval. -/

namespace Sys2Proof.Machine

open Sys2Proof.Reference

theorem encodeSym_settled {tb : FreqTable} (htb : UsableTable tb) {s : Nat} (hs : s < 256)
    {e : Encoder} (he : Settled e.interval) : Settled (encodeSym tb s e).interval := by
  rw [encodeSym, renormEnc_eq_loop]
  exact (renormLoop_fuel interval_renormEncShift _ (narrow_ordered htb he hs)).1

/-! ## The code value (rules R155, R160(c)) -/

/-- The number that `k` bits of the stream `X` make from position `i` on, the first the highest. -/
def codeWindow (X : Nat → Nat) (i k : Nat) : Nat :=
  (List.range k).foldl (fun v j => 2 * v + X (i + j)) 0

@[simp] theorem codeWindow_zero (X : Nat → Nat) (i : Nat) : codeWindow X i 0 = 0 := rfl

theorem codeWindow_succ (X : Nat → Nat) (i k : Nat) :
    codeWindow X i (k + 1) = 2 * codeWindow X i k + X (i + k) := by
  rw [codeWindow, List.range_succ, List.foldl_append]
  rfl

theorem codeWindow_lt {X : Nat → Nat} (hX : ∀ j, X j ≤ 1) (i k : Nat) :
    codeWindow X i k < 2 ^ k := by
  induction k with
  | zero => exact Nat.one_pos
  | succ k ih =>
    have := hX (i + k)
    rw [codeWindow_succ, Nat.pow_succ]
    omega

theorem codeBit_le_one (B : Bytes) (j : Nat) : codeBit B j ≤ 1 := by
  have hbit : codeBit B j = bit ((streamBits B).getD j false) := bitHere_eq_bit B j
  rw [hbit]
  exact bit_le_one _

theorem pullBits_succ_last (k : Nat) (d : Decoder) :
    pullBits (k + 1) d = pullBit (pullBits k d).value (pullBits k d) := by
  induction k generalizing d with
  | zero => rfl
  | succ k ih => exact ih (pullBit d.value d)

theorem pullBits_from_start (v : Interval) (B : Bytes) (k : Nat) :
    pullBits k ⟨v, 0, ⟨B, 0⟩⟩ = ⟨v, codeWindow (codeBit B) 0 k, ⟨B, k⟩⟩ := by
  induction k with
  | zero => rfl
  | succ k ih =>
    rw [pullBits_succ_last, ih, codeWindow_succ, Nat.zero_add]
    rfl

theorem initDecoder_eq (B : Bytes) :
    initDecoder B = ⟨fullInterval, codeWindow (codeBit B) 0 32, ⟨B, 32⟩⟩ :=
  pullBits_from_start fullInterval B 32

theorem initDecoder_settled (B : Bytes) : Settled (initDecoder B).interval := by
  rw [initDecoder_eq]
  exact settled_fullInterval

/-! ## The decoder's steps -/

/-- The code value lies in the interval (rule R160(c)). -/
def ValueInside (d : Decoder) : Prop := d.interval.low ≤ d.value ∧ d.value ≤ d.interval.high

theorem initDecoder_inside (B : Bytes) : ValueInside (initDecoder B) := by
  have := codeWindow_lt (codeBit_le_one B) 0 32
  rw [initDecoder_eq]
  simp only [ValueInside, fullInterval, acTop]
  omega

theorem renormDecShift_inside {d : Decoder} (hd : Ordered d.interval) (hin : ValueInside d)
    (h : renormCase d.interval ≠ .settled) :
    ValueInside (renormDecShift (renormCase d.interval) d) := by
  obtain ⟨hlow, hhigh⟩ := hin
  have hoff := (renormOffset_bounds hd h).1
  have hbit : bitHere d.reader ≤ 1 := codeBit_le_one d.reader.input d.reader.bp
  simp only [ValueInside, renormDecShift, pullBit, shiftBounds]
  omega

theorem renormDec_inside (k : Nat) (d : Decoder) (hd : Ordered d.interval) (hin : ValueInside d) :
    ValueInside (renormDec k d) := by
  rw [renormDec_eq_loop]
  exact (renormLoop_invariant (Q := fun d => Ordered d.interval ∧ ValueInside d)
    (fun x hx hc => ⟨shiftBounds_ordered hx.1 hc, renormDecShift_inside hx.1 hx.2 hc⟩)
    k d ⟨hd, hin⟩).2

theorem decodeSym_settled {tb : FreqTable} (htb : UsableTable tb) {s : Nat} (hs : s < 256)
    {d : Decoder} (hd : Settled d.interval) : Settled (decodeSym tb s d).interval := by
  rw [decodeSym, renormDec_eq_loop]
  exact (renormLoop_fuel interval_renormDecShift _ (narrow_ordered htb hd hs)).1

/-- The symbol that the decoder selects (rule R156). -/
def nextSymbol (tb : FreqTable) (d : Decoder) : Nat := symbolAt tb (scaledPos tb d)

theorem nextSymbol_spec {tb : FreqTable} (htb : UsableTable tb) {d : Decoder}
    (hin : ValueInside d) : nextSymbol tb d < 256 ∧ cumFreq tb (nextSymbol tb d) ≤ scaledPos tb d ∧
      scaledPos tb d < cumFreq tb (nextSymbol tb d + 1) := by
  have hspec := symbolAt_spec tb _ (scaledPos_lt_total htb hin.1 hin.2)
  rwa [htb.1] at hspec

/-- Whatever the code bits are, decoding a symbol leaves the value inside the interval: it is inside
the one narrowed to the selected symbol, and every shift keeps it there. -/
theorem decodeSym_inside {tb : FreqTable} (htb : UsableTable tb) {d : Decoder}
    (hd : Settled d.interval) (hin : ValueInside d) :
    ValueInside (decodeSym tb (nextSymbol tb d) d) := by
  obtain ⟨hs, hscaled⟩ := nextSymbol_spec htb hin
  exact renormDec_inside _ _ (narrow_ordered htb hd hs)
    ((scaledPos_mem_iff htb hd hin.1 hs).mp hscaled)

/-- Settles O47: narrowing and shifting keep the interval's order, the shifts double its width, and
the value never leaves it. -/
theorem acCoderInvariants : Obligations.AcCoderInvariants := by
  refine ⟨settled_fullInterval, fun B => ⟨by rw [initDecoder_eq], initDecoder_inside B⟩,
    fun v => width_of_settled, fun v hle hbound hc => shiftBounds_ordered ⟨hle, hbound⟩ hc, ?_⟩
  intro tb v htb hv
  refine ⟨fun s hs => ⟨low_le_narrow_low s, narrow_low_le_high htb hv hs, narrow_high_le hv s⟩,
    fun s e hs he => encodeSym_settled htb hs (he ▸ hv), ?_⟩
  rintro d rfl hlow hhigh
  have hs := (nextSymbol_spec htb ⟨hlow, hhigh⟩).1
  exact ⟨scaledPos_lt_total htb hlow hhigh, hs, decodeSym_settled htb hs hv,
    decodeSym_inside htb hv ⟨hlow, hhigh⟩⟩

end Sys2Proof.Machine

/-! PROOFS. The arithmetic coder family: the model as its counts, trained and loaded. -/

namespace Sys2Proof.Machine

open Sys2Proof.Reference

/-! ## The model as its counts (`41_arith_coder.md` rules R141 to R145) -/

/-- The table of the counts `f s`. -/
def tableOfCounts (f : Nat → Nat) : FreqTable := (List.range 256).map f

/-- The model of the counts `f t s`. -/
def modelOfCounts (f : Nat → Nat → Nat) : FreqModel :=
  (List.range 257).map (fun t => tableOfCounts (f t))

theorem tableOf_modelOfCounts (f : Nat → Nat → Nat) {t : Nat} (ht : t < 257) :
    tableOf (modelOfCounts f) t = tableOfCounts (f t) := by
  simp [tableOf, modelOfCounts, ht]

theorem cumFreq_tableOfCounts (f : Nat → Nat → Nat) (t : Nat) {s : Nat} (hs : s ≤ 256) :
    cumFreq (tableOfCounts (f t)) s = cumOf f t s := by
  rw [cumFreq, tableOfCounts, ← List.map_take, List.take_range, Nat.min_eq_left hs, cumOf]

theorem tableTotal_tableOfCounts (f : Nat → Nat → Nat) (t : Nat) :
    tableTotal (tableOfCounts (f t)) = cumOf f t 256 := rfl

theorem serializeModel_modelOfCounts (f : Nat → Nat → Nat) :
    serializeModel (modelOfCounts f) = modelBytes f := by
  simp only [serializeModel, modelOfCounts, tableOfCounts, List.flatMap_map, modelBytes]

theorem overLimit_modelOfCounts (f : Nat → Nat → Nat) :
    overLimit (modelOfCounts f) = true ↔ SomeTotalOver f := by
  simp only [overLimit, modelOfCounts, List.any_map, List.any_eq_true, List.mem_range,
    Function.comp_apply, tableTotal_tableOfCounts]
  exact exists_congr fun t => and_congr_right fun _ => decide_eq_true_iff

/-- Some count is 0 or some total over the limit: the model is corrupted (rule R154). -/
def CorruptCounts (f : Nat → Nat → Nat) : Prop :=
  (∃ t k, t < 257 ∧ k < 256 ∧ f t k = 0) ∨ SomeTotalOver f

theorem badModel_modelOfCounts (f : Nat → Nat → Nat) :
    badModel (modelOfCounts f) = true ↔ CorruptCounts f := by
  rw [badModel, Bool.or_eq_true, overLimit_modelOfCounts, CorruptCounts]
  simp [modelOfCounts, tableOfCounts]

/-- Every table of counts that pass the checks is usable. -/
theorem usableTable_tableOfCounts {f : Nat → Nat → Nat} (hf : ¬ CorruptCounts f) {t : Nat}
    (ht : t < 257) : UsableTable (tableOfCounts (f t)) := by
  refine ⟨by simp [tableOfCounts], fun c hc => ?_, ?_⟩
  · obtain ⟨s, hs, rfl⟩ := List.mem_map.mp hc
    by_contra hzero
    exact hf (.inl ⟨t, s, ht, List.mem_range.mp hs, by omega⟩)
  · by_contra hover
    exact hf (.inr ⟨t, ht, Nat.not_le.mp hover⟩)

theorem usableTable_tableOf {f : Nat → Nat → Nat} (hf : ¬ CorruptCounts f) {t : Nat}
    (ht : t < 257) : UsableTable (tableOf (modelOfCounts f) t) := by
  rw [tableOf_modelOfCounts f ht]
  exact usableTable_tableOfCounts hf ht

/-! ## The table and the symbol of each position (rule R141) -/

/-- The table of position `i` when the first position has table `t`. -/
def tableFrom (t : Nat) (P : Bytes) : Nat → Nat
  | 0 => t
  | i + 1 => 1 + (byteIn P i).toNat

theorem tableFrom_zero (P : Bytes) : tableFrom 0 P = tableAt P := by
  funext i
  cases i <;> rfl

theorem tableFrom_cons_succ (t : Nat) (b : Byte) (P : Bytes) (i : Nat) :
    tableFrom t (b :: P) (i + 1) = tableFrom (ctxTable b) P i := by
  cases i <;> rfl

/-- The tables and symbols that a plaintext uses, in order. -/
def codedUses (t : Nat) : Bytes → List (Nat × Nat)
  | [] => []
  | b :: P => (t, b.toNat) :: codedUses (ctxTable b) P

theorem codedUses_eq_range (t : Nat) (P : Bytes) : codedUses t P =
    (List.range P.length).map (fun i => (tableFrom t P i, (byteIn P i).toNat)) := by
  induction P generalizing t with
  | nil => rfl
  | cons b P ih =>
    rw [codedUses, ih, List.length_cons, List.range_succ_eq_map, List.map_cons, List.map_map]
    congr 1
    exact List.map_congr_left fun i _ => Prod.ext (tableFrom_cons_succ t b P i).symm rfl

/-- A table and a symbol that a model has. -/
def InModel (u : Nat × Nat) : Prop := u.1 < 257 ∧ u.2 < 256

theorem ctxTable_lt (b : Byte) : ctxTable b < 257 := by
  have := b.isLt
  unfold ctxTable
  omega

theorem codedUses_inModel (t : Nat) (ht : t < 257) (P : Bytes) :
    ∀ u ∈ codedUses t P, InModel u := by
  induction P generalizing t with
  | nil => exact fun u hu => absurd hu List.not_mem_nil
  | cons b P ih => exact List.forall_mem_cons.mpr ⟨⟨ht, b.isLt⟩, ih _ (ctxTable_lt b)⟩

/-! ## Training (rule R142) -/

theorem trainFrom_eq_foldl (t : Nat) (m : FreqModel) (P : Bytes) :
    trainFrom t m P = (codedUses t P).foldl (fun m u => bumpCount m u.1 u.2) m := by
  induction P generalizing t m with
  | nil => rfl
  | cons b P ih => exact ih _ _

theorem modify_map_range {α : Type} (g : Nat → α) (h : α → α) (n i : Nat) :
    ((List.range n).map g).modify i h =
      (List.range n).map (fun j => if j = i then h (g j) else g j) := by
  refine List.ext_getElem (by simp) fun j _ _ => ?_
  simp [List.getElem_modify, eq_comm]

theorem bumpCount_modelOfCounts (f : Nat → Nat → Nat) (u : Nat × Nat) :
    bumpCount (modelOfCounts f) u.1 u.2 =
      modelOfCounts (fun t s => f t s + if u = (t, s) then 1 else 0) := by
  simp only [bumpCount, modelOfCounts, tableOfCounts, modify_map_range]
  refine List.map_congr_left fun t _ => ?_
  by_cases ht : t = u.1
  · subst ht
    simp only [Prod.ext_iff, true_and, if_true]
    refine List.map_congr_left fun s _ => ?_
    by_cases hs : s = u.2
    · rw [if_pos hs, if_pos hs.symm]
    · rw [if_neg hs, if_neg (Ne.symm hs)]
      rfl
  · simp [ht, Prod.ext_iff, Ne.symm ht]

theorem foldl_bumpCount (us : List (Nat × Nat)) (f : Nat → Nat → Nat) :
    us.foldl (fun m u => bumpCount m u.1 u.2) (modelOfCounts f) =
      modelOfCounts (fun t s => f t s + us.count (t, s)) := by
  induction us generalizing f with
  | nil => rfl
  | cons u us ih =>
    rw [List.foldl_cons, bumpCount_modelOfCounts, ih]
    congr 1
    funext t s
    simp only [List.count_cons, beq_iff_eq]
    ring

theorem trainedCount_eq_count (P : Bytes) (t s : Nat) :
    trainedCount P t s = 1 + (codedUses 0 P).count (t, s) := by
  rw [trainedCount, codedUses_eq_range, tableFrom_zero, List.count, List.countP_map,
    List.countP_eq_length_filter]
  rfl

theorem laplaceModel_eq : laplaceModel = modelOfCounts (fun _ _ => 1) := by
  simp only [laplaceModel, modelOfCounts, tableOfCounts, List.map_const', List.length_range]
  rfl

/-- Training counts each use once, above the floor of 1. -/
theorem trainModel_eq (P : Bytes) : trainModel P = modelOfCounts (trainedCount P) := by
  rw [trainModel, trainFrom_eq_foldl, laplaceModel_eq, foldl_bumpCount]
  congr 1
  funext t s
  exact (trainedCount_eq_count P t s).symm

theorem trainedCount_pos (P : Bytes) (t s : Nat) : trainedCount P t s ≠ 0 := by
  rw [trainedCount_eq_count]
  omega

theorem trainedCounts_sound {P : Bytes} (h : ¬ SomeTotalOver (trainedCount P)) :
    ¬ CorruptCounts (trainedCount P) := by
  rintro (⟨t, k, -, -, hzero⟩ | hover)
  · exact trainedCount_pos P t k hzero
  · exact h hover

/-! ## Loading (rule R154) -/

theorem pieces_map_range (g : Nat → Nat) (n k i : Nat) :
    pieces n k ((List.range (n * k)).map (fun j => g (i + j))) =
      (List.range k).map (fun t => (List.range n).map (fun s => g (i + (n * t + s)))) := by
  induction k generalizing i with
  | zero => rfl
  | succ k ih =>
    have hsplit : n * (k + 1) = n + n * k := by ring
    rw [hsplit, List.range_add, List.map_append, pieces, List.take_left' (by simp),
      List.drop_left' (by simp), List.range_succ_eq_map, List.map_cons, List.map_map, List.map_map]
    congr 1
    · simp
    · have := ih (i + n)
      simp only [Function.comp_def, Nat.add_assoc] at this ⊢
      rw [this]
      refine List.map_congr_left fun t _ => List.map_congr_left fun s _ => ?_
      congr 1
      rw [Nat.succ_eq_add_one]
      ring

theorem byteIn_cons_succ (b : Byte) (S : Bytes) (i : Nat) :
    byteIn (b :: S) (i + 1) = byteIn S i := rfl

theorem be32s_eq_range (S : Bytes) (n : Nat) (h : S.length = 4 * n) :
    be32s S = (List.range n).map (fun i => rdBe32 S (4 * i)) := by
  induction n generalizing S with
  | zero => rw [List.eq_nil_of_length_eq_zero h]; rfl
  | succ n ih =>
    match S, h with
    | b0 :: b1 :: b2 :: b3 :: S, h =>
      have hlen : S.length = 4 * n := by simp only [List.length_cons] at h; omega
      rw [be32s, ih S hlen, List.range_succ_eq_map, List.map_cons, List.map_map]
      rfl

theorem rdBe32_take (S : Bytes) (n i : Nat) (h : i + 4 ≤ n) :
    rdBe32 (S.take n) i = rdBe32 S i := by
  have hbyte : ∀ j, j < n → byteIn (S.take n) j = byteIn S j := fun j hj => by
    simp [byteIn, hj]
  rw [rdBe32, rdBe32, hbyte _ (by omega), hbyte _ (by omega), hbyte _ (by omega),
    hbyte _ (by omega)]

theorem loadModel_eq (S : Bytes) (h : acModelBytes ≤ S.length) :
    loadModel S = modelOfCounts (loadedCount S) := by
  have hlen : (S.take acModelBytes).length = 4 * (256 * 257) := by
    rw [List.length_take, Nat.min_eq_left h]
    rfl
  rw [loadModel, be32s_eq_range _ _ hlen]
  have hpieces := pieces_map_range (fun i => rdBe32 (S.take acModelBytes) (4 * i)) 256 257 0
  simp only [Nat.zero_add] at hpieces
  refine hpieces.trans (List.map_congr_left fun t ht => List.map_congr_left fun s hs => ?_)
  have := List.mem_range.mp ht
  have := List.mem_range.mp hs
  exact rdBe32_take _ _ _ (by unfold acModelBytes; omega)

end Sys2Proof.Machine

/-! PROOFS. The arithmetic coder family: AC_ENC and AC_DEC follow the rules. -/

namespace Sys2Proof.Machine

open Sys2Proof.Reference

/-- What depends on the case of an interval, as the tests of rules R148 and R158 in their order. -/
theorem apply_renormCase {α : Type} (f : RenormCase → α) (v : Interval) : f (renormCase v) =
    if v.high < 0x80000000 then f .lower
    else if 0x80000000 ≤ v.low then f .upper
    else if 0x40000000 ≤ v.low ∧ v.high < 0xC0000000 then f .middle
    else f .settled := by
  simp only [renormCase, apply_ite f]
  rfl

/-- One turn of the renormalization loop, as the rules write it. -/
theorem renormLoop_succ {σ : Type} (iv : σ → Interval) (shift : RenormCase → σ → σ) (k : Nat)
    (x : σ) : renormLoop iv shift (k + 1) x =
      if (iv x).high < 0x80000000 then renormLoop iv shift k (shift .lower x)
      else if 0x80000000 ≤ (iv x).low then renormLoop iv shift k (shift .upper x)
      else if 0x40000000 ≤ (iv x).low ∧ (iv x).high < 0xC0000000 then
        renormLoop iv shift k (shift .middle x)
      else x :=
  apply_renormCase (fun c => if c = .settled then x else renormLoop iv shift k (shift c x)) (iv x)

/-! ## The encoder's registers (`41_arith_coder.md` rules R146 to R152) -/

/-- The encoder with the registers `r`: its writer has put the bits of `r`. -/
def encoderOf (r : EncRegs) : Encoder :=
  ⟨⟨r.low, r.high⟩, r.pending, r.bits.foldl (fun w b => putBit b w) emptyWriter⟩

theorem putBits_eq_foldl (b : Bool) (k : Nat) (w : BitWriter) :
    putBits b k w = (List.replicate k b).foldl (fun w b => putBit b w) w := by
  induction k generalizing w with
  | zero => rfl
  | succ k ih => exact ih (putBit b w)

theorem emitBit_encoderOf (b : Bool) (r : EncRegs) :
    emitBit b (encoderOf r) = encoderOf (encEmit b r) := by
  simp only [emitBit, encoderOf, encEmit, putBits_eq_foldl, List.foldl_append, List.foldl_cons]

theorem encoderOf_encShift (off : Nat) (r : EncRegs) : encoderOf (encShift off r) =
    { encoderOf r with interval := shiftBounds off (encoderOf r).interval } := rfl

theorem renormEncShift_lower_encoderOf (r : EncRegs) :
    renormEncShift .lower (encoderOf r) = encoderOf (encShift 0 (encEmit false r)) := by
  rw [renormEncShift, renormEmit, emitBit_encoderOf]
  rfl

theorem renormEncShift_upper_encoderOf (r : EncRegs) :
    renormEncShift .upper (encoderOf r) = encoderOf (encShift 0x80000000 (encEmit true r)) := by
  rw [renormEncShift, renormEmit, emitBit_encoderOf]
  rfl

theorem renormOffset_middle : renormOffset .middle = 0x40000000 := rfl

theorem renormEncShift_middle_encoderOf (r : EncRegs) : renormEncShift .middle (encoderOf r) =
    encoderOf (encShift 0x40000000 { r with pending := r.pending + 1 }) := by
  rw [encoderOf_encShift, ← renormOffset_middle]
  rfl

/-- The rules' loop is the model's. -/
theorem renormLoop_encoderOf (k : Nat) (r : EncRegs) :
    renormLoop Encoder.interval renormEncShift k (encoderOf r) = encoderOf (encRenorm k r) := by
  induction k generalizing r with
  | zero => rfl
  | succ k ih =>
    rw [renormLoop_succ, renormEncShift_lower_encoderOf, renormEncShift_upper_encoderOf,
      renormEncShift_middle_encoderOf, ih, ih, ih, encRenorm]
    simp only [apply_ite encoderOf]
    rfl

/-- One symbol: the rules allow more shifts than the model, which needs no more than it has. -/
theorem encodeSym_encoderOf {tb : FreqTable} (htb : UsableTable tb) {s : Nat} (hs : s < 256)
    (r : EncRegs) (hr : Settled (encoderOf r).interval) : encodeSym tb s (encoderOf r) =
      encoderOf (encSymbol (cumFreq tb s) (cumFreq tb (s + 1)) (tableTotal tb) r) := by
  have hfuel := (renormLoop_fuel interval_renormEncShift
    { encoderOf r with interval := narrow tb s (encoderOf r).interval }
    (narrow_ordered htb hr hs)).2 32
  rw [encodeSym, renormEnc_eq_loop, ← hfuel, encSymbol, ← renormLoop_encoderOf]
  rfl

theorem encodeSym_tableOfCounts {f : Nat → Nat → Nat} {t : Nat}
    (htb : UsableTable (tableOfCounts (f t))) {s : Nat} (hs : s < 256) (r : EncRegs)
    (hr : Settled (encoderOf r).interval) : encodeSym (tableOfCounts (f t)) s (encoderOf r) =
      encoderOf (encSymbol (cumOf f t s) (cumOf f t (s + 1)) (cumOf f t 256) r) := by
  rw [encodeSym_encoderOf htb hs r hr, cumFreq_tableOfCounts f t hs.le,
    cumFreq_tableOfCounts f t hs, tableTotal_tableOfCounts]

/-! ## The whole plaintext -/

theorem encodeFrom_eq_foldl (m : FreqModel) (t : Nat) (P : Bytes) (e : Encoder) :
    encodeFrom m t P e =
      (codedUses t P).foldl (fun e u => encodeSym (tableOf m u.1) u.2 e) e := by
  induction P generalizing t e with
  | nil => rfl
  | cons b P ih => exact ih _ _

/-- The registers after a list of uses, by the rules. -/
def encFold (f : Nat → Nat → Nat) (us : List (Nat × Nat)) (r : EncRegs) : EncRegs :=
  us.foldl (fun r u =>
    encSymbol (cumOf f u.1 u.2) (cumOf f u.1 (u.2 + 1)) (cumOf f u.1 256) r) r

theorem foldl_encodeSym {f : Nat → Nat → Nat} (hf : ¬ CorruptCounts f) (us : List (Nat × Nat))
    (hus : ∀ u ∈ us, InModel u) (r : EncRegs) (hr : Settled (encoderOf r).interval) :
    us.foldl (fun e u => encodeSym (tableOf (modelOfCounts f) u.1) u.2 e) (encoderOf r) =
      encoderOf (encFold f us r) := by
  induction us generalizing r with
  | nil => rfl
  | cons u us ih =>
    obtain ⟨⟨ht, hs⟩, hus⟩ := List.forall_mem_cons.mp hus
    have htb := usableTable_tableOfCounts hf ht
    have hsym := encodeSym_tableOfCounts htb hs r hr
    have hnext := encodeSym_settled htb hs hr
    rw [hsym] at hnext
    rw [List.foldl_cons, tableOf_modelOfCounts f ht, hsym, ih hus _ hnext]
    rfl

/-- The encoder's registers before termination, by the rules. -/
def finalRegs (P : Bytes) : EncRegs :=
  encFold (trainedCount P) (codedUses 0 P) ⟨0, 0xFFFFFFFF, 0, []⟩

theorem encodeFrom_eq_finalRegs {P : Bytes} (h : ¬ SomeTotalOver (trainedCount P)) :
    encodeFrom (trainModel P) 0 P initEncoder = encoderOf (finalRegs P) := by
  rw [encodeFrom_eq_foldl, trainModel_eq]
  exact foldl_encodeSym (trainedCounts_sound h) _ (codedUses_inModel 0 (by decide) P)
    ⟨0, 0xFFFFFFFF, 0, []⟩ settled_fullInterval

theorem encBits_eq (P : Bytes) : encBits P =
    (encEmit (decide (0x40000000 ≤ (finalRegs P).low))
      { finalRegs P with pending := (finalRegs P).pending + 1 }).bits := by
  rw [encBits, finalRegs, encFold, codedUses_eq_range, tableFrom_zero, List.foldl_map]

/-- Termination puts the last bits, and flushing packs what has been put (rule R150). -/
theorem finishEnc_encoderOf (r : EncRegs) : finishEnc (encoderOf r) =
    packBits (encEmit (decide (0x40000000 ≤ r.low)) { r with pending := r.pending + 1 }).bits := by
  have hemit := emitBit_encoderOf (decide (0x40000000 ≤ r.low)) { r with pending := r.pending + 1 }
  exact congrArg (fun e => flush e.writer) hemit

theorem codedBits_eq {P : Bytes} (h : ¬ SomeTotalOver (trainedCount P)) :
    codedBits (trainModel P) P = packBits (encBits P) := by
  rw [codedBits, encodeFrom_eq_finalRegs h, finishEnc_encoderOf, encBits_eq]

theorem acEncode_of_over {P : Bytes} (hne : P ≠ []) (h : SomeTotalOver (trainedCount P)) :
    acEncode P = .error .acTooLarge := by
  rw [acEncode, if_neg (by simpa using hne), trainModel_eq,
    if_pos ((overLimit_modelOfCounts _).mpr h)]

theorem acEncode_of_within {P : Bytes} (hne : P ≠ []) (h : ¬ SomeTotalOver (trainedCount P)) :
    acEncode P = .ok (acStream P) := by
  rw [acEncode, if_neg (by simpa using hne), codedBits_eq h, trainModel_eq,
    if_neg (mt (overLimit_modelOfCounts _).mp h), serializeModel_modelOfCounts, acStream]

/-- Settles O45: the result function is the rules' stream, and the command succeeds or fails with
what it gives. -/
theorem acEncFollowsTheRules : Obligations.AcEncFollowsTheRules := by
  refine fun s => ⟨fun hP hr => ?_, fun hP hover hr => ?_, fun hP hin hr => ?_⟩
  · exact runPlain_succeeds acEncode s [] hr (by rw [hP]; rfl)
  · exact runPlain_fails acEncode s .acTooLarge hr.1 hr.2 (acEncode_of_over hP hover)
  · exact runPlain_succeeds acEncode s _ hr (acEncode_of_within hP hin)

/-! ## The decoder (rules R153 to R159) -/

/-- The decoder's registers as those of the rules. -/
def decRegsOf (d : Decoder) : DecRegs := ⟨d.interval.low, d.interval.high, d.value, d.reader.bp⟩

theorem renormLoop_decRegsOf (k : Nat) (d : Decoder) :
    decRegsOf (renormLoop Decoder.interval renormDecShift k d) =
      decRenorm d.reader.input k (decRegsOf d) := by
  induction k generalizing d with
  | zero => rfl
  | succ k ih =>
    rw [renormLoop_succ, decRenorm]
    simp only [apply_ite decRegsOf, ih]
    rfl

/-- What rules R156 to R158 say of one symbol `s` decoded with table `t`. -/
def DecodeStep (f : Nat → Nat → Nat) (B : Bytes) (t s : Nat) (r r' : DecRegs) : Prop :=
  let tot := cumOf f t 256
  let width := r.high - r.low + 1
  let scaled := ((r.value - r.low + 1) * tot - 1) / width
  cumOf f t s ≤ scaled ∧ scaled < cumOf f t (s + 1) ∧
    r' = decRenorm B 64 { r with
      low := r.low + width * cumOf f t s / tot
      high := r.low + width * cumOf f t (s + 1) / tot - 1 }

section DecodeStep
variable {f : Nat → Nat → Nat} {t : Nat} {d : Decoder}

theorem decodeSym_step (htb : UsableTable (tableOfCounts (f t))) (hd : Settled d.interval)
    (hin : ValueInside d) :
    DecodeStep f d.reader.input t (nextSymbol (tableOfCounts (f t)) d) (decRegsOf d)
      (decRegsOf (decodeSym (tableOfCounts (f t)) (nextSymbol (tableOfCounts (f t)) d) d)) := by
  obtain ⟨hs, hlow, hhigh⟩ := nextSymbol_spec htb hin
  generalize nextSymbol (tableOfCounts (f t)) d = s at hs hlow hhigh ⊢
  have hfuel := (renormLoop_fuel interval_renormDecShift
    { d with interval := narrow (tableOfCounts (f t)) s d.interval }
    (narrow_ordered htb hd hs)).2 32
  rw [decodeSym, renormDec_eq_loop, ← hfuel, renormLoop_decRegsOf, narrow]
  rw [cumFreq_tableOfCounts f t hs.le] at hlow ⊢
  rw [cumFreq_tableOfCounts f t hs] at hhigh ⊢
  exact ⟨hlow, hhigh, rfl⟩

/-- The decoder after each of the symbols that `decodeFrom` decodes. -/
def decoderTrace (m : FreqModel) : Nat → Nat → Decoder → Decoder
  | 0, _, d => d
  | i + 1, t, d =>
    decoderTrace m i (ctxTable (BitVec.ofNat 8 (nextSymbol (tableOf m t) d)))
      (decodeSym (tableOf m t) (nextSymbol (tableOf m t) d) d)

theorem decodeFrom_succ (m : FreqModel) (k t : Nat) (d : Decoder) :
    decodeFrom m (k + 1) t d = BitVec.ofNat 8 (nextSymbol (tableOf m t) d) ::
      decodeFrom m k (ctxTable (BitVec.ofNat 8 (nextSymbol (tableOf m t) d)))
        (decodeSym (tableOf m t) (nextSymbol (tableOf m t) d) d) := rfl

theorem length_decodeFrom (m : FreqModel) (k t : Nat) (d : Decoder) :
    (decodeFrom m k t d).length = k := by
  induction k generalizing t d with
  | zero => rfl
  | succ k ih => rw [decodeFrom_succ, List.length_cons, ih]

theorem input_decodeSym (tb : FreqTable) (s : Nat) (d : Decoder) :
    (decodeSym tb s d).reader.input = d.reader.input := by
  rw [decodeSym, renormDec_eq_loop]
  exact renormLoop_invariant (Q := fun x : Decoder => x.reader.input = d.reader.input)
    (fun _ hx _ => hx) _ _ rfl

/-- Each symbol that the decoder gives is one step of the rules. -/
theorem decodeFrom_steps (hf : ¬ CorruptCounts f) (k t : Nat) (ht : t < 257) (d : Decoder)
    (hd : Settled d.interval) (hin : ValueInside d) (i : Nat) (hi : i < k) :
    DecodeStep f d.reader.input (tableFrom t (decodeFrom (modelOfCounts f) k t d) i)
      (byteIn (decodeFrom (modelOfCounts f) k t d) i).toNat
      (decRegsOf (decoderTrace (modelOfCounts f) i t d))
      (decRegsOf (decoderTrace (modelOfCounts f) (i + 1) t d)) := by
  induction k generalizing t d i with
  | zero => exact absurd hi (Nat.not_lt_zero i)
  | succ k ih =>
    have htb := usableTable_tableOf hf ht
    have hs := (nextSymbol_spec htb hin).1
    rw [decodeFrom_succ]
    cases i with
    | zero =>
      have hbyte : (BitVec.ofNat 8 (nextSymbol (tableOf (modelOfCounts f) t) d)).toNat =
          nextSymbol (tableOf (modelOfCounts f) t) d := Nat.mod_eq_of_lt hs
      show DecodeStep f _ t (BitVec.ofNat 8 (nextSymbol (tableOf (modelOfCounts f) t) d)).toNat
        (decRegsOf d) (decRegsOf (decodeSym (tableOf (modelOfCounts f) t)
          (nextSymbol (tableOf (modelOfCounts f) t) d) d))
      rw [hbyte, tableOf_modelOfCounts f ht]
      exact decodeSym_step (usableTable_tableOfCounts hf ht) hd hin
    | succ i =>
      rw [tableFrom_cons_succ, byteIn_cons_succ, ← input_decodeSym]
      exact ih _ (ctxTable_lt _) _ (decodeSym_settled htb hs hd) (decodeSym_inside htb hd hin) i
        (Nat.lt_of_succ_lt_succ hi)

theorem decodesTo_decodeFrom (hf : ¬ CorruptCounts f) (B : Bytes) (k : Nat) :
    DecodesTo f B (decodeFrom (modelOfCounts f) k 0 (initDecoder B))
      (fun i => decRegsOf (decoderTrace (modelOfCounts f) i 0 (initDecoder B))) := by
  refine ⟨?_, fun i hi => ?_⟩
  · simp only [decoderTrace, initDecoder_eq, decRegsOf, firstValue, codeWindow, Nat.zero_add]
    rfl
  · have hinput : (initDecoder B).reader.input = B := by rw [initDecoder_eq]
    have hstep := decodeFrom_steps hf k 0 (by decide) (initDecoder B) (initDecoder_settled B)
      (initDecoder_inside B) i (by rwa [length_decodeFrom] at hi)
    rwa [hinput, tableFrom_zero] at hstep

end DecodeStep

/-! ## AC_DEC -/

section Header
variable {maxLen : Nat} {S : Bytes}

theorem acDecode_of_short (h : S.length < acHdrBytes) : acDecode maxLen S = .error .acShortInput :=
  if_pos h

theorem badModel_loadModel (h : acHdrBytes ≤ S.length) :
    badModel (loadModel S) = true ↔ CorruptCounts (loadedCount S) := by
  rw [loadModel_eq S ((by decide : acModelBytes ≤ acHdrBytes).trans h), badModel_modelOfCounts]

theorem acDecode_of_corrupt (h : acHdrBytes ≤ S.length) (hbad : CorruptCounts (loadedCount S)) :
    acDecode maxLen S = .error .acBadModel := by
  rw [acDecode, if_neg (Nat.not_lt.mpr h), if_pos ((badModel_loadModel h).mpr hbad)]

/-- Behind the first two checks the length field decides. -/
theorem acDecode_of_sound (h : acHdrBytes ≤ S.length) (hgood : ¬ CorruptCounts (loadedCount S)) :
    acDecode maxLen S =
      if rdBe32 S 263168 = 0 then .error .acZeroLength
      else if maxLen < rdBe32 S 263168 then .error .tooLarge
      else .ok (decodeFrom (modelOfCounts (loadedCount S)) (rdBe32 S 263168) 0
        (initDecoder (S.drop 263172))) := by
  rw [acDecode, if_neg (Nat.not_lt.mpr h), if_neg (mt (badModel_loadModel h).mp hgood),
    loadModel_eq S ((by decide : acModelBytes ≤ acHdrBytes).trans h)]
  rfl

end Header

theorem acDecResult_error {maxLen : Nat} {S : Bytes} {aux : Word} {c : ErrCode}
    (h : acDecode maxLen S = .error c) : acDecResult maxLen S aux = .error c := by
  simp only [acDecResult, plainResult, h]

theorem acDecResult_ok {maxLen : Nat} {S D : Bytes} {aux : Word}
    (h : acDecode maxLen S = .ok D) : acDecResult maxLen S aux = .ok ⟨D, none⟩ := by
  simp only [acDecResult, plainResult, h]

/-- Settles O46: the header checks are the model's, and its decoder takes the rules' step for every
symbol. -/
theorem acDecFollowsTheRules : Obligations.AcDecFollowsTheRules := by
  intro s S L bad
  have hfails : ∀ c, acDecode s.platform.maxLen S = .error c → Readable s →
      ∃ t, exec .acDec s = .next t ∧ FailedWith s t c :=
    fun c hc hr => runCommand_fails acDecResult s c hr.1 hr.2 (acDecResult_error hc)
  refine ⟨fun h => hfails _ (acDecode_of_short h), fun h hbad => hfails _ (acDecode_of_corrupt h hbad),
    fun h hgood hzero => hfails _ ?_, fun h hgood hlarge => hfails _ ?_, fun h hgood hpos hr => ?_⟩
  · rw [acDecode_of_sound h hgood, if_pos hzero]
  · rw [acDecode_of_sound h hgood, if_neg (Nat.ne_zero_of_lt hlarge), if_pos hlarge]
  · obtain ⟨hmem, hsrc, hmax, hcap, hok⟩ := hr
    have hdec := acDecode_of_sound (maxLen := s.platform.maxLen) h hgood
    rw [if_neg hpos.ne', if_neg (Nat.not_lt.mpr hmax)] at hdec
    have hlen := length_decodeFrom (modelOfCounts (loadedCount S)) L 0 (initDecoder (S.drop 263172))
    obtain ⟨t, hexec, hsucc⟩ := runCommand_succeeds acDecResult s ⟨_, none⟩
      (by rw [hlen]; exact ⟨hmem, hsrc, hmax, hcap, hok⟩) (acDecResult_ok hdec)
    exact ⟨_, _, t, hlen, decodesTo_decodeFrom hgood (S.drop 263172) L, hexec, hsucc⟩

end Sys2Proof.Machine

/-! PROOFS. The arithmetic coder family: the decoder replays the encoder. -/

namespace Sys2Proof.Machine

open Sys2Proof.Reference

/-! ## The bits put so far, and the code value they leave to the decoder -/

/-- The bits the encoder has put. -/
def emitted (e : Encoder) : List Bool := writerBits e.writer

theorem emitted_encoderOf (r : EncRegs) : emitted (encoderOf r) = r.bits :=
  (putBit_foldl r.bits emptyWriter (by decide)).1

theorem writerBits_putBits (b : Bool) (k : Nat) (w : BitWriter) :
    writerBits (putBits b k w) = writerBits w ++ List.replicate k b := by
  induction k generalizing w with
  | zero => simp [putBits]
  | succ k ih => rw [putBits, ih, writerBits_putBit, List.append_assoc]; rfl

theorem emitted_emitBit (b : Bool) (e : Encoder) :
    emitted (emitBit b e) = emitted e ++ b :: List.replicate e.pending (!b) := by
  rw [emitted, emitBit, writerBits_putBits, writerBits_putBit, List.append_assoc]
  rfl

theorem length_emitted_emitBit (b : Bool) (e : Encoder) :
    (emitted (emitBit b e)).length = (emitted e).length + (e.pending + 1) := by
  rw [emitted_emitBit, List.length_append, List.length_cons, List.length_replicate]

/-- Shifting the bounds puts no bit. -/
theorem emitted_renormEncShift (c : RenormCase) (e : Encoder) :
    emitted (renormEncShift c e) = emitted (renormEmit c e) := rfl

theorem emitted_prefix_shift (c : RenormCase) (e : Encoder) :
    emitted e <+: emitted (renormEncShift c e) := by
  rw [emitted_renormEncShift]
  cases c with
  | lower => exact ⟨_, (emitted_emitBit false e).symm⟩
  | upper => exact ⟨_, (emitted_emitBit true e).symm⟩
  | middle => exact List.prefix_rfl
  | settled => exact List.prefix_rfl

theorem emitted_prefix_renormLoop (k : Nat) (e : Encoder) :
    emitted e <+: emitted (renormLoop Encoder.interval renormEncShift k e) :=
  renormLoop_invariant (Q := fun x => emitted e <+: emitted x)
    (fun x hx _ => hx.trans (emitted_prefix_shift _ x)) k e List.prefix_rfl

theorem emitted_prefix_encodeSym (tb : FreqTable) (s : Nat) (e : Encoder) :
    emitted e <+: emitted (encodeSym tb s e) := by
  rw [encodeSym, renormEnc_eq_loop]
  exact emitted_prefix_renormLoop renormFuel { e with interval := narrow tb s e.interval }

theorem emitted_prefix_encodeFrom (m : FreqModel) (t : Nat) (P : Bytes) (e : Encoder) :
    emitted e <+: emitted (encodeFrom m t P e) := by
  induction P generalizing t e with
  | nil => exact List.prefix_rfl
  | cons b P ih => exact (emitted_prefix_encodeSym _ _ e).trans (ih _ _)

/-- The stream `X` begins with these bits. -/
def StartsWith (X : Nat → Nat) (bits : List Bool) : Prop :=
  ∀ j, j < bits.length → X j = bit (bits.getD j false)

theorem StartsWith.of_prefix {X : Nat → Nat} {bits bits' : List Bool} (h : StartsWith X bits')
    (hpre : bits <+: bits') : StartsWith X bits := by
  obtain ⟨rest, rfl⟩ := hpre
  intro j hj
  rw [h j (by rw [List.length_append]; omega), List.getD_append _ _ _ _ hj]

/-- What the stream holds where a bit and its deferred complements have been put. -/
theorem StartsWith.last_run {X : Nat → Nat} {bits : List Bool} {b : Bool} {p : Nat}
    (h : StartsWith X (bits ++ b :: List.replicate p (!b))) :
    X bits.length = bit b ∧ ∀ j, j < p → X (bits.length + 1 + j) = bit (!b) := by
  constructor
  · have hbit := h bits.length (by simp)
    rwa [List.getD_append_right _ _ _ _ le_rfl, Nat.sub_self, List.getD_cons_zero] at hbit
  · intro j hj
    have hbit := h (bits.length + 1 + j) (by simp; omega)
    have hsub : bits.length + 1 + j - bits.length = j + 1 := by omega
    rwa [List.getD_append_right _ _ _ _ (by omega), hsub, List.getD_cons_succ,
      List.getD_replicate _ hj] at hbit

/-! ## The code value (`41_arith_coder.md` rules R150, R158) -/

theorem codeWindow_add (X : Nat → Nat) (i a b : Nat) :
    codeWindow X i (a + b) = codeWindow X i a * 2 ^ b + codeWindow X (i + a) b := by
  induction b with
  | zero => simp
  | succ b ih =>
    rw [← Nat.add_assoc, codeWindow_succ, ih, codeWindow_succ, Nat.add_assoc i a b]
    ring

/-- A bit and its deferred complements. -/
theorem codeWindow_emitted {X : Nat → Nat} {n p : Nat} {b : Bool} (hbit : X n = bit b)
    (hdefer : ∀ j, j < p → X (n + 1 + j) = bit (!b)) :
    codeWindow X n (p + 1) + 1 = 2 ^ p + bit b := by
  induction p with
  | zero => simp [codeWindow_succ, hbit, Nat.add_comm]
  | succ p ih =>
    have hnot : bit b + bit (!b) = 1 := by cases b <;> rfl
    have hlast := hdefer p (Nat.lt_succ_self p)
    rw [Nat.add_assoc, Nat.add_comm 1 p] at hlast
    have := ih (fun j hj => hdefer j (Nat.lt_succ_of_lt hj))
    rw [codeWindow_succ, hlast, Nat.pow_succ]
    omega

/-- The value of a decoder that has followed an encoder with `n` bits put and `p` deferred: the bits
read and not yet accounted for, less what the deferred shifts have subtracted. -/
def codeValue (X : Nat → Nat) (n p : Nat) : Int := codeWindow X n (p + 32) - 2 ^ 31 * (2 ^ p - 1)

/-- Deferring a bit subtracts a quarter and shifts. -/
theorem codeValue_defer (X : Nat → Nat) (n p : Nat) :
    codeValue X n (p + 1) = 2 * (codeValue X n p - 2 ^ 30) + X (n + (p + 32)) := by
  rw [codeValue, codeValue, Nat.add_right_comm, codeWindow_succ]
  push_cast
  ring

/-- Emitting a bit with the deferred ones subtracts half for a 1 and shifts. -/
theorem codeValue_emit {X : Nat → Nat} {n p : Nat} {b : Bool} (hbit : X n = bit b)
    (hdefer : ∀ j, j < p → X (n + 1 + j) = bit (!b)) :
    codeValue X (n + (p + 1)) 0 = 2 * (codeValue X n p - 2 ^ 31 * bit b) + X (n + (p + 32)) := by
  have hrun : (codeWindow X n (p + 1) : Int) = 2 ^ p + bit b - 1 := by
    have := codeWindow_emitted hbit hdefer
    zify at this
    linarith
  have hread : codeWindow X n (p + 32) =
      codeWindow X n (p + 1) * 2 ^ 31 + codeWindow X (n + (p + 1)) 31 := codeWindow_add X n (p + 1) 31
  have hnext : codeWindow X (n + (p + 1)) 32 =
      2 * codeWindow X (n + (p + 1)) 31 + X (n + (p + 32)) := codeWindow_succ X (n + (p + 1)) 31
  rw [codeValue, codeValue, Nat.zero_add, hnext, hread]
  push_cast
  rw [hrun]
  ring

/-- After termination the stream is the last bit, its complements and zeros: the value is a quarter
or half (rule R150). -/
theorem codeValue_final {X : Nat → Nat} {n p : Nat} {b : Bool} (hbit : X n = bit b)
    (hdefer : ∀ j, j < p + 1 → X (n + 1 + j) = bit (!b)) (hend : ∀ j, n + (p + 2) ≤ j → X j = 0) :
    codeValue X n p = 2 ^ 30 + 2 ^ 30 * bit b := by
  have hzero : ∀ k, codeWindow X (n + (p + 2)) k = 0 := by
    intro k
    induction k with
    | zero => rfl
    | succ k ih => rw [codeWindow_succ, ih, hend _ (Nat.le_add_right _ _)]
  have hlast := codeValue_emit hbit hdefer
  have hprev := codeValue_defer X n p
  rw [hend _ (by omega)] at hlast hprev
  rw [codeValue, Nat.zero_add, hzero] at hlast
  push_cast at hlast hprev
  linarith

/-! ## Encoder and decoder in step -/

/-- The code value that the stream gives at the encoder's point. -/
def valueAt (X : Nat → Nat) (e : Encoder) : Int := codeValue X (emitted e).length e.pending

theorem valueAt_renormEncShift (X : Nat → Nat) (c : RenormCase) (e : Encoder) :
    valueAt X (renormEncShift c e) = valueAt X (renormEmit c e) := rfl

/-- The stream's code value lies in the encoder's interval. -/
def InStream (X : Nat → Nat) (e : Encoder) : Prop :=
  (e.interval.low : Int) ≤ valueAt X e ∧ valueAt X e ≤ e.interval.high

/-- Each shift of the encoder changes the code value as the decoder's shift changes its value. -/
theorem valueAt_shift {X : Nat → Nat} {c : RenormCase} {e : Encoder} (hc : c ≠ .settled)
    (hX : StartsWith X (emitted (renormEncShift c e))) : valueAt X (renormEncShift c e) =
      2 * (valueAt X e - renormOffset c) + X ((emitted e).length + (e.pending + 32)) := by
  have hemit : ∀ b, StartsWith X (emitted (emitBit b e)) → valueAt X (emitBit b e) =
      2 * (valueAt X e - 2 ^ 31 * bit b) + X ((emitted e).length + (e.pending + 32)) := by
    intro b hb
    rw [emitted_emitBit] at hb
    obtain ⟨hbit, hdefer⟩ := hb.last_run
    rw [valueAt, length_emitted_emitBit]
    exact codeValue_emit hbit hdefer
  rw [emitted_renormEncShift] at hX
  rw [valueAt_renormEncShift]
  cases c with
  | lower => simpa [renormEmit, bit, renormOffset] using hemit false hX
  | upper => simpa [renormEmit, bit, renormOffset, acHalf] using hemit true hX
  | middle => exact codeValue_defer X _ _
  | settled => exact absurd rfl hc

/-- A shift keeps the code value where it is in the interval. -/
theorem inStream_shift_iff {X : Nat → Nat} (hbits : ∀ j, X j ≤ 1) {e : Encoder}
    (he : Ordered e.interval) (hc : renormCase e.interval ≠ .settled)
    (hX : StartsWith X (emitted (renormEncShift (renormCase e.interval) e))) :
    InStream X (renormEncShift (renormCase e.interval) e) ↔ InStream X e := by
  have hoff := (renormOffset_bounds he hc).1
  have hbit := hbits ((emitted e).length + (e.pending + 32))
  obtain ⟨hle, -⟩ := he
  rw [InStream, InStream, valueAt_shift hc hX, interval_renormEncShift, shiftBounds]
  dsimp only
  omega

/-- The decoder over the code bytes `B` stands where the encoder `e` stood: it has the same interval,
has read 32 bits ahead of the encoder's shifts, and holds the code value. -/
def Follows (B : Bytes) (e : Encoder) (d : Decoder) : Prop :=
  d.interval = e.interval ∧ (d.value : Int) = valueAt (codeBit B) e ∧
    d.reader = ⟨B, (emitted e).length + (e.pending + 32)⟩

section Lockstep
variable {B : Bytes}

theorem Follows.inside {e : Encoder} {d : Decoder} (h : Follows B e d) (hin : InStream (codeBit B) e) :
    ValueInside d := by
  obtain ⟨hiv, hval, -⟩ := h
  obtain ⟨hlow, hhigh⟩ := hin
  rw [← hval, ← hiv] at hlow hhigh
  exact ⟨by exact_mod_cast hlow, by exact_mod_cast hhigh⟩

/-- The encoder's shifts and the reader's position advance together. -/
theorem shift_count {c : RenormCase} (hc : c ≠ .settled) (e : Encoder) :
    (emitted (renormEncShift c e)).length + (renormEncShift c e).pending =
      (emitted e).length + e.pending + 1 := by
  rw [emitted_renormEncShift]
  cases c with
  | lower => exact length_emitted_emitBit false e
  | upper => exact length_emitted_emitBit true e
  | middle => rfl
  | settled => exact absurd rfl hc

theorem Follows.shift {e : Encoder} {d : Decoder} (h : Follows B e d)
    (he : Ordered e.interval) (hc : renormCase e.interval ≠ .settled)
    (hX : StartsWith (codeBit B) (emitted (renormEncShift (renormCase e.interval) e)))
    (hin : InStream (codeBit B) e) :
    Follows B (renormEncShift (renormCase e.interval) e)
      (renormDecShift (renormCase e.interval) d) := by
  have hlow := (h.inside hin).1
  have hoff := (renormOffset_bounds he hc).1
  have hcount := shift_count hc e
  obtain ⟨hiv, hval, hrd⟩ := h
  rw [hiv] at hlow
  refine ⟨by rw [interval_renormDecShift, interval_renormEncShift, hiv], ?_, ?_⟩
  · rw [valueAt_shift hc hX, ← hval]
    have hread : bitHere d.reader = codeBit B ((emitted e).length + (e.pending + 32)) := by
      rw [hrd]
      rfl
    simp only [renormDecShift, pullBit, hread]
    omega
  · simp only [renormDecShift, pullBit, skipBit, hrd, BitReader.mk.injEq, true_and]
    omega

/-- If the stream's code value lies in the renormalized interval, it did so before, and the decoder
renormalizes along with the encoder. -/
theorem renormLoop_lockstep (k : Nat) (e : Encoder) (he : Ordered e.interval)
    (hX : StartsWith (codeBit B) (emitted (renormLoop Encoder.interval renormEncShift k e)))
    (hin : InStream (codeBit B) (renormLoop Encoder.interval renormEncShift k e)) :
    InStream (codeBit B) e ∧ ∀ d, Follows B e d →
      Follows B (renormLoop Encoder.interval renormEncShift k e)
        (renormLoop Decoder.interval renormDecShift k d) := by
  induction k generalizing e with
  | zero => exact ⟨hin, fun d hd => hd⟩
  | succ k ih =>
    by_cases hc : renormCase e.interval = .settled
    · rw [renormLoop_of_settled _ hc] at hin ⊢
      refine ⟨hin, fun d hd => ?_⟩
      rwa [renormLoop_of_settled _ (by rwa [hd.1])]
    · rw [renormLoop_of_unsettled _ hc] at hX hin ⊢
      obtain ⟨hinShift, hfollow⟩ := ih _ (shiftBounds_ordered he hc) hX hin
      have hXshift := hX.of_prefix (emitted_prefix_renormLoop k _)
      have hinHere := (inStream_shift_iff (codeBit_le_one B) he hc hXshift).mp hinShift
      refine ⟨hinHere, fun d hd => ?_⟩
      rw [renormLoop_of_unsettled _ (by rwa [hd.1]), hd.1]
      exact hfollow _ (hd.shift he hc hXshift hinHere)

/-- If the stream's code value lies in the interval after a symbol, the decoder selects that symbol
and follows. -/
theorem encodeSym_lockstep {tb : FreqTable} (htb : UsableTable tb) {s : Nat} (hs : s < 256)
    {e : Encoder} (he : Settled e.interval) (hX : StartsWith (codeBit B) (emitted (encodeSym tb s e)))
    (hin : InStream (codeBit B) (encodeSym tb s e)) :
    InStream (codeBit B) e ∧ ∀ d, Follows B e d →
      nextSymbol tb d = s ∧ Follows B (encodeSym tb s e) (decodeSym tb s d) := by
  rw [encodeSym, renormEnc_eq_loop] at hX hin ⊢
  obtain ⟨hnarrow, hfollow⟩ := renormLoop_lockstep renormFuel
    { e with interval := narrow tb s e.interval } (narrow_ordered htb he hs) hX hin
  have hinHere : InStream (codeBit B) e :=
    ⟨(Int.ofNat_le.mpr (low_le_narrow_low s)).trans hnarrow.1,
      hnarrow.2.trans (Int.ofNat_le.mpr (narrow_high_le he s))⟩
  refine ⟨hinHere, fun d hd => ?_⟩
  have hd' : Follows B { e with interval := narrow tb s e.interval }
      { d with interval := narrow tb s d.interval } := ⟨by rw [hd.1], hd.2⟩
  have hmem := (scaledPos_mem_iff htb (by rwa [hd.1]) (hd.inside hinHere).1 hs).mpr
    (hd'.inside hnarrow)
  exact ⟨symbolAt_eq_of_mem tb _ s hmem.1 hmem.2, by
    rw [decodeSym, renormDec_eq_loop]; exact hfollow _ hd'⟩

/-- The decoder that follows the encoder decodes what the encoder goes on to encode. -/
theorem decodeFrom_of_follows {f : Nat → Nat → Nat} (hf : ¬ CorruptCounts f) (P : Bytes) (t : Nat)
    (ht : t < 257) (e : Encoder) (he : Settled e.interval)
    (hX : StartsWith (codeBit B) (emitted (encodeFrom (modelOfCounts f) t P e)))
    (hin : InStream (codeBit B) (encodeFrom (modelOfCounts f) t P e)) :
    InStream (codeBit B) e ∧
      ∀ d, Follows B e d → decodeFrom (modelOfCounts f) P.length t d = P := by
  induction P generalizing t e with
  | nil => exact ⟨hin, fun d _ => rfl⟩
  | cons b P ih =>
    have htb := usableTable_tableOf hf ht
    rw [encodeFrom] at hX hin
    obtain ⟨hinNext, hrest⟩ := ih _ (ctxTable_lt b) _ (encodeSym_settled htb b.isLt he) hX hin
    obtain ⟨hinHere, hsym⟩ := encodeSym_lockstep htb b.isLt he
      (hX.of_prefix (emitted_prefix_encodeFrom _ _ P _)) hinNext
    refine ⟨hinHere, fun d hd => ?_⟩
    obtain ⟨hs, hd'⟩ := hsym d hd
    rw [List.length_cons, decodeFrom_succ, hs, BitVec.ofNat_toNat, BitVec.setWidth_eq,
      hrest _ hd']

end Lockstep

/-! ## Termination (rule R150) -/

theorem codeBit_packBits (bits : List Bool) (j : Nat) :
    codeBit (packBits bits) j = bit (bits.getD j false) := bitHere_packBits bits j

theorem startsWith_packBits (bits : List Bool) : StartsWith (codeBit (packBits bits)) bits :=
  fun j _ => codeBit_packBits bits j

/-- The bits put at termination leave the code value at a quarter or half of the range, which lies in
every settled interval on the side that the last bit says. -/
theorem inStream_finish (r : EncRegs) (hr : Settled (encoderOf r).interval) :
    InStream (codeBit (packBits (encEmit (decide (0x40000000 ≤ r.low))
      { r with pending := r.pending + 1 }).bits)) (encoderOf r) := by
  have hvalue : ∀ b, valueAt (codeBit (packBits (encEmit b { r with pending := r.pending + 1 }).bits))
      (encoderOf r) = 2 ^ 30 + 2 ^ 30 * bit b := by
    intro b
    have hput : (encEmit b { r with pending := r.pending + 1 }).bits =
      r.bits ++ b :: List.replicate (r.pending + 1) (!b) := rfl
    rw [hput, valueAt, emitted_encoderOf]
    obtain ⟨hbit, hdefer⟩ :=
      (startsWith_packBits (r.bits ++ b :: List.replicate (r.pending + 1) (!b))).last_run
    refine codeValue_final hbit hdefer fun j (hj : r.bits.length + (r.pending + 2) ≤ j) => ?_
    rw [codeBit_packBits, List.getD_eq_default _ _ (by simpa using hj)]
    rfl
  obtain ⟨hlow, hhigh, -, -⟩ := hr
  rw [InStream, hvalue]
  by_cases hquarter : 0x40000000 ≤ r.low
  · simp only [decide_eq_true hquarter, bit, encoderOf, if_true] at hlow hhigh ⊢
    omega
  · simp only [decide_eq_false hquarter, bit, encoderOf, Bool.false_eq_true, if_false] at hlow hhigh ⊢
    omega

/-! ## The round trip (rule R162) -/

theorem ofBe32_byteAt {n : Nat} (h : n < 2 ^ 32) :
    ofBe32 (byteAt n 3) (byteAt n 2) (byteAt n 1) (byteAt n 0) = n := by
  simp only [ofBe32, byteAt, BitVec.toNat_ofNat]
  omega

theorem be32s_flatMap_be32 (tb : FreqTable) (h : ∀ c ∈ tb, c < 2 ^ 32) :
    be32s (tb.flatMap be32) = tb := by
  induction tb with
  | nil => rfl
  | cons c tb ih =>
    obtain ⟨hc, htb⟩ := List.forall_mem_cons.mp h
    rw [List.flatMap_cons, be32, List.cons_append, List.cons_append, List.cons_append,
      List.cons_append, List.nil_append, be32s, ofBe32_byteAt hc, ih htb]

theorem pieces_flatten (n : Nat) (m : FreqModel) (h : ∀ tb ∈ m, tb.length = n) :
    pieces n m.length m.flatten = m := by
  induction m with
  | nil => rfl
  | cons tb m ih =>
    obtain ⟨htb, hm⟩ := List.forall_mem_cons.mp h
    rw [List.length_cons, pieces, List.flatten_cons, List.take_left' htb, List.drop_left' htb, ih hm]

theorem serializeModel_eq_flatten (m : FreqModel) : serializeModel m = m.flatten.flatMap be32 := by
  rw [List.flatten_eq_flatMap, List.flatMap_assoc]
  rfl

theorem modelBytes_length (f : Nat → Nat → Nat) : (modelBytes f).length = acModelBytes := by
  simp only [modelBytes, be32, List.length_flatMap, List.length_cons, List.length_nil,
    List.map_const', List.length_range, List.sum_replicate]
  rfl

/-- The decoder loads the model that the encoder has written (rules R144, R154). -/
theorem loadModel_acStream {P : Bytes} (h : ¬ SomeTotalOver (trainedCount P)) :
    loadModel (acStream P) = modelOfCounts (trainedCount P) := by
  have htables : ∀ tb ∈ modelOfCounts (trainedCount P), UsableTable tb := fun tb htb => by
    obtain ⟨t, ht, rfl⟩ := List.mem_map.mp htb
    exact usableTable_tableOfCounts (trainedCounts_sound h) (List.mem_range.mp ht)
  have hcounts : ∀ c ∈ (modelOfCounts (trainedCount P)).flatten, c < 2 ^ 32 := fun c hc => by
    obtain ⟨tb, htb, hc⟩ := List.mem_flatten.mp hc
    have := List.single_le_sum (fun x _ => Nat.zero_le x) c hc
    have := (htables tb htb).2.2
    unfold tableTotal at this
    omega
  have hlen : (modelOfCounts (trainedCount P)).length = acTables := by
    simp only [modelOfCounts, List.length_map, List.length_range]
    rfl
  rw [loadModel, acStream, List.append_assoc, List.take_left' (modelBytes_length _),
    ← serializeModel_modelOfCounts, serializeModel_eq_flatten, be32s_flatMap_be32 _ hcounts, ← hlen]
  exact pieces_flatten acSymbols _ fun tb htb => (htables tb htb).1

theorem rdBe32_append (A S : Bytes) (i : Nat) : rdBe32 (A ++ S) (A.length + i) = rdBe32 S i := by
  have hbyte : ∀ j, byteIn (A ++ S) (A.length + j) = byteIn S j := fun j => by
    rw [byteIn, List.getD_append_right _ _ _ _ (Nat.le_add_right _ _), Nat.add_sub_cancel_left,
      byteIn]
  simp only [rdBe32, Nat.add_assoc, hbyte]

theorem rdBe32_be32_append {n : Nat} (h : n < 2 ^ 32) (S : Bytes) : rdBe32 (be32 n ++ S) 0 = n :=
  ofBe32_byteAt h

theorem lengthField_acStream {P : Bytes} (h : P.length < 2 ^ 32) :
    rdBe32 (acStream P) 263168 = P.length := by
  have hfield := rdBe32_append (modelBytes (trainedCount P))
    (be32 P.length ++ packBits (encBits P)) 0
  rw [modelBytes_length, rdBe32_be32_append h, ← List.append_assoc] at hfield
  exact hfield

theorem length_header (P : Bytes) :
    (modelBytes (trainedCount P) ++ be32 P.length).length = 263172 := by
  rw [List.length_append, modelBytes_length]
  rfl

theorem encodeFrom_settled {f : Nat → Nat → Nat} (hf : ¬ CorruptCounts f) (P : Bytes) (t : Nat)
    (ht : t < 257) (e : Encoder) (he : Settled e.interval) :
    Settled (encodeFrom (modelOfCounts f) t P e).interval := by
  induction P generalizing t e with
  | nil => exact he
  | cons b P ih =>
    exact ih _ (ctxTable_lt b) _ (encodeSym_settled (usableTable_tableOf hf ht) b.isLt he)

/-- Before the first symbol the decoder holds the stream's first 32 bits. -/
theorem follows_init (B : Bytes) : Follows B initEncoder (initDecoder B) := by
  rw [initDecoder_eq]
  refine ⟨rfl, ?_, rfl⟩
  have hstart : valueAt (codeBit B) initEncoder = codeValue (codeBit B) 0 0 := rfl
  rw [hstart, codeValue]
  simp

/-- The coded bits decode to the plaintext. -/
theorem decodeFrom_encBits {P : Bytes} (h : ¬ SomeTotalOver (trainedCount P)) :
    decodeFrom (modelOfCounts (trainedCount P)) P.length 0 (initDecoder (packBits (encBits P))) =
      P := by
  have hsound := trainedCounts_sound h
  have hfinal := encodeFrom_eq_finalRegs h
  have hsettled := encodeFrom_settled hsound P 0 (by decide) initEncoder settled_fullInterval
  rw [trainModel_eq] at hfinal
  rw [hfinal] at hsettled
  refine (decodeFrom_of_follows hsound P 0 (by decide) initEncoder settled_fullInterval ?_ ?_).2 _
    (follows_init _)
  · rw [hfinal, emitted_encoderOf]
    refine (startsWith_packBits _).of_prefix ?_
    rw [encBits_eq]
    exact List.prefix_append _ _
  · rw [hfinal, encBits_eq]
    exact inStream_finish _ hsettled

/-- Settles O59: the header is the model and the length, and the decoder replays the encoder. -/
theorem acRoundTrip : Obligations.AcRoundTrip := by
  intro maxLen S hmax hne hlen hin
  refine ⟨acStream S, acEncode_of_within hne hin, ?_⟩
  have hheader : acHdrBytes ≤ (acStream S).length := by
    rw [acStream, List.length_append, length_header]
    exact Nat.le_add_right _ _
  have hloaded : modelOfCounts (loadedCount (acStream S)) = modelOfCounts (trainedCount S) :=
    (loadModel_eq _ ((by decide : acModelBytes ≤ acHdrBytes).trans hheader)).symm.trans
      (loadModel_acStream hin)
  have hgood : ¬ CorruptCounts (loadedCount (acStream S)) := by
    rw [← badModel_modelOfCounts, hloaded, badModel_modelOfCounts]
    exact trainedCounts_sound hin
  have hcode : (acStream S).drop 263172 = packBits (encBits S) := List.drop_left' (length_header S)
  rw [acDecode_of_sound hheader hgood, lengthField_acStream (hlen.trans_lt hmax),
    if_neg (by simpa using hne), if_neg (Nat.not_lt.mpr hlen), hloaded, hcode, decodeFrom_encBits hin]

end Sys2Proof.Machine

/-! PROOFS. The dictionary coder family: the hash table and the chains hold the earlier positions with a
hash, newest first, so LZ_ENC emits the token stream of the rules. -/

namespace Sys2Proof.Machine

open Sys2Proof.Reference

/-! ## The chains (`42_lz.md` rules R192 to R194) -/

/-- The positions below `n` with hash `h`, newest first. -/
def hashChain (S : Bytes) (h n : Nat) : List Nat :=
  (List.range n).reverse.filter (fun c => decide (c + 3 ≤ S.length) && (lzHash S c == h))

@[simp] theorem hashChain_zero (S : Bytes) (h : Nat) : hashChain S h 0 = [] := rfl

theorem hashChain_succ (S : Bytes) (h n : Nat) : hashChain S h (n + 1) =
    if n + 3 ≤ S.length ∧ lzHash S n = h then n :: hashChain S h n else hashChain S h n := by
  simp [hashChain, List.range_succ, List.filter_cons]

/-- What follows a position in a chain is the chain of its own hash below it. -/
theorem hashChain_eq_cons {S : Bytes} {h n c : Nat} {rest : List Nat}
    (hc : hashChain S h n = c :: rest) :
    c < n ∧ c + 3 ≤ S.length ∧ rest = hashChain S (lzHash S c) c := by
  induction n with
  | zero => cases hc
  | succ n ih =>
    rw [hashChain_succ] at hc
    split at hc
    next hn =>
      cases hc
      exact ⟨Nat.lt_succ_self _, hn.1, by rw [hn.2]⟩
    next =>
      obtain ⟨hlt, hrest⟩ := ih hc
      exact ⟨hlt.trans (Nat.lt_succ_self n), hrest⟩

/-- The positions below `n` are inserted: `head` starts each chain, `prev` continues it. -/
structure IndexAt (S : Bytes) (n : Nat) (ix : LzIndex) : Prop where
  head : ∀ h, ix.head.lookup h = (hashChain S h n).head?
  prev : ∀ c, c < n → c + 3 ≤ S.length → prevOf ix c = (hashChain S (lzHash S c) c).head?

theorem indexAt_empty (S : Bytes) : IndexAt S 0 emptyIndex :=
  ⟨fun _ => rfl, fun _ h => absurd h (Nat.not_lt_zero _)⟩

theorem lookup_cons_eq_ite {β : Type} (k a : Nat) (b : β) (l : List (Nat × β)) :
    ((k, b) :: l).lookup a = if a = k then some b else l.lookup a := by
  rw [List.lookup_cons]
  split
  next h => rw [if_pos (beq_iff_eq.mp h)]
  next h => rw [if_neg (beq_eq_false_iff_ne.mp h)]

theorem prevOf_eq_getD (ix : LzIndex) (c : Nat) :
    prevOf ix c = (ix.prev.lookup c).getD none := by
  unfold prevOf
  cases ix.prev.lookup c <;> rfl

section Index
variable {S : Bytes} {n : Nat} {ix : LzIndex}

theorem lzInsert_head (hn : n + 3 ≤ S.length) (h : Nat) : (lzInsert S n ix).head.lookup h =
    if h = lzHash S n then some n else ix.head.lookup h := by
  rw [lzInsert, if_pos hn, lookup_cons_eq_ite]

theorem lzInsert_prev (hn : n + 3 ≤ S.length) (c : Nat) : prevOf (lzInsert S n ix) c =
    if c = n then ix.head.lookup (lzHash S n) else prevOf ix c := by
  simp only [lzInsert, if_pos hn, prevOf_eq_getD, lookup_cons_eq_ite]
  split <;> rfl

theorem lzInsert_of_end (hn : ¬ n + 3 ≤ S.length) : lzInsert S n ix = ix := if_neg hn

theorem IndexAt.insert (hix : IndexAt S n ix) : IndexAt S (n + 1) (lzInsert S n ix) := by
  by_cases hn : n + 3 ≤ S.length
  · refine ⟨fun h => ?_, fun c hc hc3 => ?_⟩
    · rw [lzInsert_head hn, hix.head, hashChain_succ]
      by_cases hh : lzHash S n = h
      · rw [if_pos hh.symm, if_pos ⟨hn, hh⟩, List.head?_cons]
      · rw [if_neg (Ne.symm hh), if_neg fun hand => hh hand.2]
    · rw [lzInsert_prev hn]
      split
      next heq => rw [heq, hix.head]
      next hne => exact hix.prev c (by omega) hc3
  · rw [lzInsert_of_end hn]
    refine ⟨fun h => ?_, fun c hc hc3 => hix.prev c (by omega) hc3⟩
    rw [hix.head, hashChain_succ, if_neg fun hand => hn hand.1]

theorem IndexAt.insertMany (k : Nat) (hix : IndexAt S n ix) :
    IndexAt S (n + k) (lzInsertMany S k n ix) := by
  induction k generalizing n ix with
  | zero => exact hix
  | succ k ih =>
    rw [← Nat.succ_add_eq_add_succ]
    exact ih hix.insert

/-! ## The match finder (rule R195) -/

/-- The match of the bytes at `pos` with those at the candidate `c`. -/
def candidateMatch (S : Bytes) (pos c : Nat) : LzMatch :=
  ⟨matchLen (min 255 (S.length - pos)) (S.drop c) (S.drop pos), pos - c⟩

/-- A candidate is compared: its match replaces the best one if it is longer. -/
def keepLonger (S : Bytes) (pos : Nat) (best : LzMatch) (c : Nat) : LzMatch :=
  if best.len < (candidateMatch S pos c).len then candidateMatch S pos c else best

theorem bestOf_eq_foldl (S : Bytes) (pos : Nat) (cs : List Nat) :
    bestOf S pos cs = cs.foldl (keepLonger S pos) ⟨0, 0⟩ := rfl

/-- Whether a candidate is near enough to be compared. -/
def nearEnough (pos c : Nat) : Bool := decide (pos - c ≤ 65535)

theorem nearEnough_iff (pos c : Nat) : nearEnough pos c = true ↔ pos - c ≤ 65535 :=
  decide_eq_true_iff

theorem chainCandidates_eq (S : Bytes) (pos : Nat) : chainCandidates S pos =
    ((hashChain S (lzHash S pos) pos).takeWhile (nearEnough pos)).take 256 := rfl

/-- The walk compares the near candidates of a chain in turn, as many as it has probes. -/
theorem walkChain_eq_foldl {pos : Nat} (hix : IndexAt S pos ix) (fuel h n : Nat) (hn : n ≤ pos)
    (best : LzMatch) :
    walkChain S pos (min 255 (S.length - pos)) ix fuel (hashChain S h n).head? best =
      (((hashChain S h n).takeWhile (nearEnough pos)).take fuel).foldl (keepLonger S pos) best := by
  induction fuel generalizing h n best with
  | zero => simp [walkChain]
  | succ fuel ih =>
    cases hc : hashChain S h n with
    | nil => rfl
    | cons c rest =>
      obtain ⟨hlt, hc3, rfl⟩ := hashChain_eq_cons hc
      by_cases hfar : 65535 < pos - c
      · have hnear : ¬ nearEnough pos c = true := by rwa [nearEnough_iff, Nat.not_le]
        rw [List.takeWhile_cons_of_neg hnear, List.head?_cons, walkChain, lzMaxDist, if_pos hfar]
        rfl
      · have hnear := (nearEnough_iff pos c).mpr (Nat.not_lt.mp hfar)
        rw [List.takeWhile_cons_of_pos hnear, List.take_succ_cons, List.foldl_cons,
          ← ih _ _ (hlt.le.trans hn), ← hix.prev c (by omega) hc3, List.head?_cons, walkChain,
          lzMaxDist, if_neg hfar]
        rfl

theorem findMatch_eq_bestMatch {pos : Nat} (hix : IndexAt S pos ix) :
    findMatch S pos ix = bestMatch S pos := by
  have hroom : 3 ≤ S.length - pos ↔ pos + 3 ≤ S.length := by omega
  simp only [findMatch, bestMatch, hroom]
  split
  · rw [hix.head, bestOf_eq_foldl, chainCandidates_eq]
    exact walkChain_eq_foldl hix _ _ _ le_rfl _
  · rfl

/-! ## The token stream (rules R197, R198) -/

theorem chooseToken_findMatch {pos : Nat} (hix : IndexAt S pos ix) :
    chooseToken S pos (findMatch S pos ix) = tokenAt S pos := by
  rw [findMatch_eq_bestMatch hix]
  rfl

/-- A token leaves room for its literal. -/
theorem tokenAt_inside {pos : Nat} (hpos : pos < S.length) :
    pos + (tokenAt S pos).len < S.length := by
  unfold tokenAt
  split
  next h => exact h.2
  next => exact hpos

theorem tokenStream_tokensFrom (fuel : Nat) {pos : Nat} (hix : IndexAt S pos ix)
    (hpos : pos ≤ S.length) (hfuel : S.length ≤ pos + fuel) :
    TokenStream S pos (tokensFrom S fuel pos ix) := by
  induction fuel generalizing pos ix with
  | zero => exact Nat.le_antisymm hpos hfuel
  | succ fuel ih =>
    rw [tokensFrom, chooseToken_findMatch hix]
    split
    next hlt =>
      have hinside := tokenAt_inside hlt
      exact ⟨hlt, rfl, ih (hix.insertMany (_ + 1)) (by omega) (by omega)⟩
    next hge => exact Nat.le_antisymm hpos (Nat.not_lt.mp hge)

end Index

theorem tokenStream_lzTokens (S : Bytes) : TokenStream S 0 (lzTokens S) :=
  tokenStream_tokensFrom S.length (indexAt_empty S) (Nat.zero_le _) (Nat.zero_add _).ge

/-- Settles O42: the model's own token stream is the one of the rules. -/
theorem lzEncEmitsTheTokenStream : Obligations.LzEncEmitsTheTokenStream := fun s =>
  ⟨lzTokens (sourceString s), tokenStream_lzTokens _,
    fun hr => runPlain_succeeds (fun S => .ok (lzEncode S)) s _ hr rfl⟩

end Sys2Proof.Machine

/-! PROOFS. The dictionary coder family: what an emitted token says of the source, and that the tokens
cover it. -/

namespace Sys2Proof.Machine

open Sys2Proof.Reference

/-! ## Matches (`42_lz.md` rule R195) -/

theorem matchLen_le (m : Nat) (A B : Bytes) : matchLen m A B ≤ m := by
  fun_induction matchLen m A B with
  | case4 m A b B ih => exact Nat.succ_le_succ ih
  | case1 | case2 | case3 | case5 => exact Nat.zero_le _

theorem byteIn_eq_of_lt_matchLen {m : Nat} {A B : Bytes} {i : Nat} (hi : i < matchLen m A B) :
    byteIn A i = byteIn B i := by
  fun_induction matchLen m A B generalizing i with
  | case4 m A b B ih =>
    cases i with
    | zero => rfl
    | succ i => exact ih (Nat.lt_of_succ_lt_succ hi)
  | case1 | case2 | case3 | case5 => exact absurd hi (Nat.not_lt_zero _)

theorem byteIn_drop (S : Bytes) (n i : Nat) : byteIn (S.drop n) i = byteIn S (n + i) := by
  simp [byteIn, List.getD_eq_getElem?_getD]

theorem hashChain_lt {S : Bytes} {h n c : Nat} (hc : c ∈ hashChain S h n) : c < n :=
  List.mem_range.mp (List.mem_reverse.mp (List.mem_of_mem_filter hc))

theorem chainCandidates_bounds {S : Bytes} {pos c : Nat} (hc : c ∈ chainCandidates S pos) :
    c < pos ∧ pos - c ≤ 65535 := by
  rw [chainCandidates_eq] at hc
  have hnear := List.mem_of_mem_take hc
  exact ⟨hashChain_lt ((List.takeWhile_sublist _).mem hnear),
    (nearEnough_iff pos c).mp (List.mem_takeWhile_imp hnear)⟩

/-- `m` matches the bytes at `pos` with those `m.dist` before, within the limits of rule R191. -/
structure MatchAt (S : Bytes) (pos : Nat) (m : LzMatch) : Prop where
  len_le : m.len ≤ 255
  dist_pos : 1 ≤ m.dist
  dist_le : m.dist ≤ min 65535 pos
  bytes : ∀ i, i < m.len → byteIn S (pos - m.dist + i) = byteIn S (pos + i)

theorem matchAt_candidate {S : Bytes} {pos c : Nat} (hc : c ∈ chainCandidates S pos) :
    MatchAt S pos (candidateMatch S pos c) := by
  obtain ⟨hlt, hnear⟩ := chainCandidates_bounds hc
  refine ⟨(matchLen_le _ _ _).trans (min_le_left _ _), Nat.sub_pos_of_lt hlt,
    le_min hnear (Nat.sub_le _ _), fun i hi => ?_⟩
  have hbyte := byteIn_eq_of_lt_matchLen hi
  rwa [byteIn_drop, byteIn_drop, ← Nat.sub_sub_self hlt.le] at hbyte

theorem keepLonger_eq_or (S : Bytes) (pos c : Nat) (best : LzMatch) :
    keepLonger S pos best c = best ∨ keepLonger S pos best c = candidateMatch S pos c := by
  unfold keepLonger
  split
  · exact .inr rfl
  · exact .inl rfl

/-- The best match is none or one with a candidate. -/
theorem matchAt_foldl {S : Bytes} {pos : Nat} (cs : List Nat)
    (hcs : ∀ c ∈ cs, c ∈ chainCandidates S pos) (best : LzMatch)
    (hbest : best = ⟨0, 0⟩ ∨ MatchAt S pos best) :
    cs.foldl (keepLonger S pos) best = ⟨0, 0⟩ ∨ MatchAt S pos (cs.foldl (keepLonger S pos) best) := by
  induction cs generalizing best with
  | nil => exact hbest
  | cons c cs ih =>
    refine ih (fun c' hc' => hcs c' (List.mem_cons_of_mem c hc')) _ ?_
    rcases keepLonger_eq_or S pos c best with heq | heq
    · rwa [heq]
    · rw [heq]
      exact .inr (matchAt_candidate (hcs c List.mem_cons_self))

theorem bestMatch_cases (S : Bytes) (pos : Nat) :
    bestMatch S pos = ⟨0, 0⟩ ∨ MatchAt S pos (bestMatch S pos) := by
  unfold bestMatch
  split
  · exact matchAt_foldl _ (fun _ hc => hc) _ (.inl rfl)
  · exact .inl rfl

/-! ## Tokens (rules R191, R197, R198) -/

/-- A token is a literal or a match of length at least 3 with the byte after it. -/
theorem tokenAt_cases (S : Bytes) (pos : Nat) :
    tokenAt S pos = ⟨0, 0, byteIn S pos⟩ ∨ ∃ m, MatchAt S pos m ∧ 3 ≤ m.len ∧
      tokenAt S pos = ⟨m.dist, m.len, byteIn S (pos + m.len)⟩ := by
  by_cases h : 3 ≤ (bestMatch S pos).len ∧ pos + (bestMatch S pos).len < S.length
  · refine .inr ⟨bestMatch S pos, ?_, h.1, if_pos h⟩
    rcases bestMatch_cases S pos with hnone | hmatch
    · exact absurd (hnone ▸ h.1) (by decide)
    · exact hmatch
  · exact .inl (if_neg h)

/-- The bytes that tokens cover. -/
def covered (T : List LzToken) : Nat := (T.map (fun t => t.len + 1)).sum

@[simp] theorem covered_nil : covered [] = 0 := rfl

@[simp] theorem covered_cons (t : LzToken) (T : List LzToken) :
    covered (t :: T) = t.len + 1 + covered T := by simp [covered]

/-- After its first tokens, the stream goes on at the cursor behind the bytes they cover. -/
theorem tokenStream_after_prefix {S : Bytes} {pos : Nat} (pre : List LzToken) {post : List LzToken}
    (h : TokenStream S pos (pre ++ post)) : TokenStream S (pos + covered pre) post := by
  induction pre generalizing pos with
  | nil => exact h
  | cons t pre ih =>
    obtain ⟨-, -, hrest⟩ := h
    rw [covered_cons, ← Nat.add_assoc]
    exact ih hrest

theorem tokenStream_covered {S : Bytes} {T : List LzToken} (h : TokenStream S 0 T) :
    covered T = S.length := by
  rw [← List.append_nil T] at h
  simpa [TokenStream] using tokenStream_after_prefix T h

/-- Settles O44: each token is the one at the cursor behind the bytes covered before it. -/
theorem lzTokensAreSound : Obligations.LzTokensAreSound := by
  intro S
  refine ⟨tokenStream_covered (tokenStream_lzTokens S), fun pre post t hT => ?_⟩
  have hstream := tokenStream_lzTokens S
  rw [hT] at hstream
  obtain ⟨-, ht, -⟩ := tokenStream_after_prefix pre hstream
  rw [Nat.zero_add] at ht
  subst ht
  rcases tokenAt_cases S (covered pre) with hlit | ⟨m, hm, hlen, htok⟩
  · rw [hlit]
    exact ⟨fun _ => rfl, fun h => absurd h (lt_irrefl 0)⟩
  · rw [htok]
    exact ⟨fun h => absurd h (Nat.ne_zero_of_lt hlen),
      fun _ => ⟨hlen, hm.len_le, hm.dist_pos, hm.dist_le⟩⟩

end Sys2Proof.Machine

/-! PROOFS. The dictionary coder family: the decoder's replay on the output held latest byte first is the
replay of the rules, and it gives the source of a token stream back. -/

namespace Sys2Proof.Machine

open Sys2Proof.Reference

/-! ## One token (`42_lz.md` rule R202) -/

theorem copyBack_reverse {dist : Nat} (k : Nat) {D : Bytes} (hpos : 1 ≤ dist)
    (hle : dist ≤ D.length) :
    copyBack dist k D.reverse = (copyForward k (D.length - dist) D).reverse := by
  induction k generalizing D with
  | zero => rfl
  | succ k ih =>
    have hbyte : D.reverse.getD (dist - 1) 0 = byteIn D (D.length - dist) := by
      rw [byteIn, List.getD_reverse _ (by omega)]
      congr 1
      omega
    have hnext : (D ++ [byteIn D (D.length - dist)]).length - dist = D.length - dist + 1 := by
      rw [List.length_append, List.length_singleton]
      omega
    rw [copyBack, hbyte, ← List.reverse_concat', copyForward, ← hnext]
    exact ih (by rw [List.length_append]; omega)

/-- Replaying a token on the reversed output is replaying it on the output. -/
theorem replayToken_reverse (t : LzToken) (D : Bytes) :
    replayToken t D.reverse = (replayForward t.dist t.len t.lit D).map List.reverse := by
  unfold replayToken replayForward
  by_cases hlen : t.len = 0
  · rw [if_pos hlen, if_pos hlen]
    by_cases hdist : t.dist = 0
    · rw [if_pos hdist, if_neg (not_not.mpr hdist), Except.map, List.reverse_concat']
    · rw [if_neg hdist, if_pos hdist, Except.map]
  · rw [if_neg hlen, if_neg hlen, List.length_reverse]
    by_cases hbad : t.dist = 0 ∨ D.length < t.dist
    · rw [if_pos hbad, if_pos hbad, Except.map]
    · rw [if_neg hbad, if_neg hbad, Except.map, List.reverse_concat',
        copyBack_reverse t.len (by omega) (by omega)]

theorem replayTokens_cons (t : LzToken) (ts : List LzToken) (D : Bytes) :
    replayTokens (t :: ts) D.reverse =
      (replayForward t.dist t.len t.lit D).bind (fun D' => replayTokens ts D'.reverse) := by
  rw [replayTokens, replayToken_reverse]
  cases replayForward t.dist t.len t.lit D <;> rfl

/-! ## The tokens of a string (rules R201, R203) -/

@[simp] theorem tokensOf_nil : tokensOf [] = [] := rfl

theorem tokensOf_of_length {S : Bytes} (h : 4 ≤ S.length) : tokensOf S =
    ⟨ofBe16 (byteIn S 0) (byteIn S 1), (byteIn S 2).toNat, byteIn S 3⟩ :: tokensOf (S.drop 4) := by
  match S, h with
  | _ :: _ :: _ :: _ :: _, _ => rfl

/-- The loop of rule R203 from token `j` on replays the tokens of the rest of the string. -/
theorem replayLoop_eq (S : Bytes) (k j : Nat) (hlen : S.length = 4 * (j + k)) (D : Bytes) :
    replayLoop S k j D = replayTokens (tokensOf (S.drop (4 * j))) D.reverse := by
  induction k generalizing j D with
  | zero =>
    rw [List.drop_of_length_le (by omega), tokensOf_nil, replayTokens, List.reverse_reverse,
      replayLoop]
  | succ k ih =>
    have hnext : (S.drop (4 * j)).drop 4 = S.drop (4 * (j + 1)) := List.drop_drop
    rw [tokensOf_of_length (by rw [List.length_drop]; omega), replayTokens_cons, hnext, replayLoop]
    simp only [byteIn_drop, Nat.add_zero]
    cases replayForward _ _ _ D with
    | error c => rfl
    | ok D' => exact ih (j + 1) (by omega) D'

theorem lzDecode_of_bad_size {S : Bytes} (h : S.length % 4 ≠ 0) : lzDecode S = .error .lzBadSize :=
  if_pos h

theorem lzDecode_of_whole_tokens {S : Bytes} (h : S.length % 4 = 0) :
    lzDecode S = replayTokens (tokensOf S) [] := if_neg (not_not.mpr h)

theorem lzDecode_eq_replayLoop {S : Bytes} (h : S.length % 4 = 0) :
    lzDecode S = replayLoop S (S.length / 4) 0 [] := by
  rw [lzDecode_of_whole_tokens h, replayLoop_eq S _ 0 (by omega)]
  rfl

/-- Settles O43: LZ_DEC's result is that of the loop of the rules. -/
theorem lzDecReplaysTokens : Obligations.LzDecReplaysTokens := by
  refine fun s => ⟨fun hsize hr => runPlain_fails lzDecode s _ hr.1 hr.2 (lzDecode_of_bad_size hsize),
    fun hsize => ⟨fun D hD hr => ?_, fun c hc hr => ?_⟩⟩
  · exact runPlain_succeeds lzDecode s D hr ((lzDecode_eq_replayLoop hsize).trans hD)
  · exact runPlain_fails lzDecode s c hr.1 hr.2 ((lzDecode_eq_replayLoop hsize).trans hc)

/-! ## The round trip (rule R204) -/

theorem ofBe16_byteAt {n : Nat} (h : n < 2 ^ 16) : ofBe16 (byteAt n 1) (byteAt n 0) = n := by
  simp only [ofBe16, byteAt, BitVec.toNat_ofNat]
  omega

/-- The fields of a token fit their bytes. -/
def Serializable (t : LzToken) : Prop := t.dist < 2 ^ 16 ∧ t.len < 2 ^ 8

theorem tokensOf_flatMap_tokenBytes (T : List LzToken) (h : ∀ t ∈ T, Serializable t) :
    tokensOf (T.flatMap tokenBytes) = T := by
  induction T with
  | nil => rfl
  | cons t T ih =>
    obtain ⟨⟨hdist, hlen⟩, hT⟩ := List.forall_mem_cons.mp h
    rw [List.flatMap_cons, tokenBytes, be16]
    simp only [List.cons_append, List.nil_append, tokensOf, ofBe16_byteAt hdist, ih hT,
      BitVec.toNat_ofNat, Nat.mod_eq_of_lt hlen]

theorem length_flatMap_tokenBytes (T : List LzToken) :
    (T.flatMap tokenBytes).length = 4 * T.length := by
  induction T with
  | nil => rfl
  | cons t T ih =>
    rw [List.flatMap_cons, List.length_append, ih, List.length_cons, Nat.mul_succ, Nat.add_comm]
    rfl

theorem tokenAt_serializable (S : Bytes) (pos : Nat) : Serializable (tokenAt S pos) := by
  rcases tokenAt_cases S pos with hlit | ⟨m, hm, -, htok⟩
  · rw [hlit]
    exact ⟨Nat.two_pow_pos 16, Nat.two_pow_pos 8⟩
  · rw [htok]
    exact ⟨Nat.lt_succ_of_le (hm.dist_le.trans (min_le_left _ _)), Nat.lt_succ_of_le hm.len_le⟩

theorem tokenStream_serializable {S : Bytes} {pos : Nat} {T : List LzToken}
    (h : TokenStream S pos T) : ∀ t ∈ T, Serializable t := by
  induction T generalizing pos with
  | nil => exact List.forall_mem_nil _
  | cons t T ih =>
    obtain ⟨-, rfl, hrest⟩ := h
    exact List.forall_mem_cons.mpr ⟨tokenAt_serializable S pos, ih hrest⟩

theorem take_concat_byteIn {S : Bytes} {pos : Nat} (h : pos < S.length) :
    S.take pos ++ [byteIn S pos] = S.take (pos + 1) := by
  rw [byteIn, List.getD_eq_getElem _ _ h, List.take_append_getElem]

/-- Copying from where the bytes of the source stand earlier continues the source. -/
theorem copyForward_take {S : Bytes} {dist : Nat} (k : Nat) {pos : Nat} (hdist : 1 ≤ dist)
    (hle : dist ≤ pos) (hroom : pos + k ≤ S.length)
    (hbytes : ∀ i, i < k → byteIn S (pos - dist + i) = byteIn S (pos + i)) :
    copyForward k (pos - dist) (S.take pos) = S.take (pos + k) := by
  induction k generalizing pos with
  | zero => rfl
  | succ k ih =>
    have hfirst : byteIn (S.take pos) (pos - dist) = byteIn S pos := by
      rw [← Nat.add_zero pos, ← hbytes 0 k.succ_pos]
      simp only [byteIn, List.getD_eq_getElem?_getD, Nat.add_zero]
      rw [List.getElem?_take_of_lt (by omega)]
    have hstep : pos - dist + 1 = pos + 1 - dist := by omega
    rw [copyForward, hfirst, take_concat_byteIn (by omega), hstep,
      ih (by omega) (by omega) fun i hi => ?_, Nat.succ_add_eq_add_succ]
    have hnext := hbytes (i + 1) (Nat.succ_lt_succ hi)
    rwa [← Nat.succ_add_eq_add_succ, ← Nat.succ_add_eq_add_succ, Nat.succ_eq_add_one, hstep] at hnext

/-- On the source up to the cursor, the token there gives the source up to the next cursor. -/
theorem replayForward_tokenAt {S : Bytes} {pos : Nat} (hpos : pos < S.length) :
    replayForward (tokenAt S pos).dist (tokenAt S pos).len (tokenAt S pos).lit (S.take pos) =
      .ok (S.take (pos + (tokenAt S pos).len + 1)) := by
  have hinside := tokenAt_inside hpos
  have htake := List.length_take_of_le hpos.le
  rcases tokenAt_cases S pos with hlit | ⟨m, hm, hlen, htok⟩
  · rw [hlit]
    exact congrArg Except.ok (take_concat_byteIn hpos)
  · rw [htok] at hinside ⊢
    obtain ⟨-, hdist, hle, hbytes⟩ := hm
    have hle' := hle.trans (min_le_right _ _)
    rw [replayForward, if_neg (Nat.ne_zero_of_lt hlen), htake, if_neg (by simp only; omega),
      copyForward_take m.len hdist hle' hinside.le hbytes, take_concat_byteIn hinside]

theorem replayTokens_tokenStream {S : Bytes} {pos : Nat} {T : List LzToken}
    (h : TokenStream S pos T) : replayTokens T (S.take pos).reverse = .ok S := by
  induction T generalizing pos with
  | nil =>
    cases h
    rw [replayTokens, List.reverse_reverse, List.take_length]
  | cons t T ih =>
    obtain ⟨hpos, rfl, hrest⟩ := h
    rw [replayTokens_cons, replayForward_tokenAt hpos]
    exact ih hrest

/-- Settles O58: the decoder reads the emitted tokens back, and replaying each continues the source. -/
theorem lzRoundTrip : Obligations.LzRoundTrip := by
  intro S
  have hstream := tokenStream_lzTokens S
  have hlen : (lzEncode S).length % 4 = 0 := by
    rw [lzEncode, length_flatMap_tokenBytes, Nat.mul_mod_right]
  rw [lzDecode_of_whole_tokens hlen, lzEncode,
    tokensOf_flatMap_tokenBytes _ (tokenStream_serializable hstream)]
  exact replayTokens_tokenStream hstream

end Sys2Proof.Machine

/-! PROOFS. The block-sort family: the recency list stays an order of the 256 byte values, so the
move-to-front recoder follows its list and decoding undoes encoding. -/

namespace Sys2Proof.Machine

open Sys2Proof.Reference

/-! ## The recency list (`43_bwt_mtf.md` rule R238) -/

/-- `l` lists every byte value once. -/
def RecencyList (l : Bytes) : Prop := l.Perm identityList

theorem recencyList_identityList : RecencyList identityList := List.Perm.refl _

section RecencyList
variable {l : Bytes} (h : RecencyList l)
include h

theorem RecencyList.length_eq_256 : l.length = 256 := by
  rw [h.length_eq, identityList, List.length_map, List.length_range]

theorem RecencyList.mem (b : Byte) : b ∈ l :=
  h.mem_iff.mpr (List.mem_map.mpr ⟨b.toNat, List.mem_range.mpr b.isLt, BitVec.ofNat_toNat _ _⟩)

theorem RecencyList.idxOf_lt (b : Byte) : l.idxOf b < 256 := by
  rw [← h.length_eq_256]
  exact List.idxOf_lt_length_of_mem (h.mem b)

theorem RecencyList.moveToFront {j : Nat} (hj : j < 256) : RecencyList (moveToFront l j) := by
  rw [← h.length_eq_256] at hj
  rw [Machine.moveToFront, List.getD_eq_getElem _ _ hj]
  exact (List.getElem_cons_eraseIdx_perm hj).trans h

end RecencyList

theorem movedToFront_moveToFront {l : Bytes} {j : Nat} (hj : j < l.length) :
    MovedToFront l (moveToFront l j) j := by
  have hrest : ∀ k, byteIn (moveToFront l j) (k + 1) = byteIn l (if k < j then k else k + 1) := by
    intro k
    rw [moveToFront, byteIn_cons_succ, byteIn, List.getD_eq_getElem?_getD, List.getElem?_eraseIdx]
    split <;> exact (List.getD_eq_getElem?_getD ..).symm
  refine ⟨?_, rfl, fun k hpos hle => ?_, fun k hlt => ?_⟩
  · rw [moveToFront, List.length_cons, List.length_eraseIdx_of_lt hj]
    omega
  · obtain ⟨k, rfl⟩ := Nat.exists_eq_add_one.mpr hpos
    rw [hrest, if_pos (Nat.lt_of_succ_le hle), Nat.add_sub_cancel]
  · obtain ⟨k, rfl⟩ := Nat.exists_eq_add_one.mpr (Nat.zero_lt_of_lt hlt)
    rw [hrest, if_neg (by omega)]

/-! ## The round trip (rule R243) -/

theorem mtfDecFrom_mtfEncFrom {l : Bytes} (h : RecencyList l) (S : Bytes) :
    mtfDecFrom l (mtfEncFrom l S) = S := by
  induction S generalizing l with
  | nil => rfl
  | cons b S ih =>
    have hidx := h.idxOf_lt b
    have hj : (BitVec.ofNat 8 (l.idxOf b)).toNat = l.idxOf b := by
      rw [BitVec.toNat_ofNat, Nat.mod_eq_of_lt hidx]
    have hb : l.getD (l.idxOf b) 0 = b := by
      rw [List.getD_eq_getElem _ _ (h.length_eq_256 ▸ hidx), List.getElem_idxOf]
    rw [mtfEncFrom, mtfDecFrom, hj, hb, ih (h.moveToFront hidx)]

/-- Settles O56: each byte stands in the list at the place that its code names. -/
theorem mtfRoundTrip : Obligations.MtfRoundTrip :=
  mtfDecFrom_mtfEncFrom recencyList_identityList

/-! ## The lists of a run (rules R239, R241) -/

/-- The list before step `i`: `l` after the entries at the first `i` of the indices `J` have been
moved to the front, one by one. -/
def listBefore (l J : Bytes) : Nat → Bytes
  | 0 => l
  | i + 1 => moveToFront (listBefore l J i) (byteIn J i).toNat

theorem RecencyList.listBefore {l : Bytes} (h : RecencyList l) (J : Bytes) (i : Nat) :
    RecencyList (listBefore l J i) := by
  induction i with
  | zero => exact h
  | succ i ih => exact ih.moveToFront (byteIn J i).isLt

theorem listBefore_cons_succ (l : Bytes) (j : Byte) (J : Bytes) (i : Nat) :
    listBefore l (j :: J) (i + 1) = listBefore (moveToFront l j.toNat) J i := by
  induction i with
  | zero => rfl
  | succ i ih => rw [listBefore, ih, byteIn_cons_succ, listBefore]

theorem length_mtfDecFrom (l J : Bytes) : (mtfDecFrom l J).length = J.length := by
  induction J generalizing l with
  | nil => rfl
  | cons j J ih => simp [mtfDecFrom, ih]

theorem length_mtfEncFrom (l S : Bytes) : (mtfEncFrom l S).length = S.length := by
  induction S generalizing l with
  | nil => rfl
  | cons b S ih => simp [mtfEncFrom, ih]

theorem byteIn_mtfDecFrom (l J : Bytes) {i : Nat} (hi : i < J.length) :
    byteIn (mtfDecFrom l J) i = byteIn (listBefore l J i) (byteIn J i).toNat := by
  induction J generalizing l i with
  | nil => cases hi
  | cons j J ih =>
    cases i with
    | zero => rfl
    | succ i =>
      rw [listBefore_cons_succ]
      exact ih _ (Nat.lt_of_succ_lt_succ hi)

theorem byteIn_identityList {j : Nat} (hj : j < 256) : (byteIn identityList j).toNat = j := by
  simp [byteIn, identityList, List.getD_eq_getElem?_getD, List.getElem?_range hj,
    Nat.mod_eq_of_lt hj]

/-- Decoding follows its lists. -/
theorem mtfTrace_mtfDecode (J : Bytes) :
    MtfTrace (mtfDecode J) J (listBefore identityList J) := by
  refine ⟨(length_mtfDecFrom _ _).symm, recencyList_identityList.length_eq_256,
    fun j hj => byteIn_identityList hj, fun i hi => ?_⟩
  rw [mtfDecode, length_mtfDecFrom] at hi
  have hlist := recencyList_identityList.listBefore J i
  exact ⟨(byteIn_mtfDecFrom _ _ hi).symm,
    movedToFront_moveToFront (hlist.length_eq_256 ▸ (byteIn J i).isLt)⟩

/-- Settles O38: the encoder's lists are those of the decoder on its output, which gives the source
back. -/
theorem mtfEncFollowsTheList : Obligations.MtfEncFollowsTheList := by
  intro s hr
  have hlen : (mtfEncode (sourceString s)).length = s.latch.srcLen.toNat := by
    rw [mtfEncode, length_mtfEncFrom, length_sourceString]
  have htrace := mtfTrace_mtfDecode (mtfEncode (sourceString s))
  rw [mtfRoundTrip] at htrace
  obtain ⟨t, hexec, hsucc⟩ := runPlain_succeeds (fun S => .ok (mtfEncode S)) s _ (hlen ▸ hr) rfl
  exact ⟨_, _, t, hexec, hsucc, htrace⟩

/-- Settles O39: decoding is total and follows its lists. -/
theorem mtfDecFollowsTheList : Obligations.MtfDecFollowsTheList := by
  intro s hr
  have hlen : (mtfDecode (sourceString s)).length = s.latch.srcLen.toNat := by
    rw [mtfDecode, length_mtfDecFrom, length_sourceString]
  obtain ⟨t, hexec, hsucc⟩ := runPlain_succeeds (fun S => .ok (mtfDecode S)) s _ (hlen ▸ hr) rfl
  exact ⟨_, _, t, hexec, hsucc, mtfTrace_mtfDecode _⟩

end Sys2Proof.Machine

/-! PROOFS. The block-sort family: the sort gives the rotation order of the rules, and the walk of
the inverse follows the stable order of the bytes. -/

namespace Sys2Proof.Machine

open Sys2Proof.Reference

/-! ## The order of rotations (`43_bwt_mtf.md` rule R230) -/

/-- The byte values of a string: lists of numbers have the lexicographic order of rule R230. -/
def byteValues (a : Bytes) : List Nat := a.map BitVec.toNat

theorem byteValues_injective : Function.Injective byteValues :=
  BitVec.toNat_injective.list_map

theorem byteValues_cons (b : Byte) (a : Bytes) :
    byteValues (b :: a) = b.toNat :: byteValues a := rfl

theorem bytesOrder_eq_ite (a b : Bytes) : bytesOrder a b =
    if byteValues a < byteValues b then .lt
    else if byteValues b < byteValues a then .gt else .eq := by
  induction a generalizing b with
  | nil =>
    cases b with
    | nil => rfl
    | cons y b => exact (if_pos (List.nil_lt_cons _ _)).symm
  | cons x a ih =>
    cases b with
    | nil => exact ((if_neg (List.not_lt_nil _)).trans (if_pos (List.nil_lt_cons _ _))).symm
    | cons y b =>
      simp only [bytesOrder, ih, byteValues_cons, List.cons_lt_cons_iff]
      rcases Nat.lt_trichotomy x.toNat y.toNat with hlt | heq | hgt
      · simp [hlt]
      · simp [heq]
      · simp [hgt, hgt.not_gt, hgt.ne']

/-- What the rotations are sorted by: the bytes, then the start offset. -/
def rotationKey (S : Bytes) (i : Nat) : List Nat ×ₗ Nat := toLex (byteValues (rotation S i), i)

theorem rotationLe_iff (S : Bytes) (i j : Nat) :
    rotationLe S i j = true ↔ rotationKey S i ≤ rotationKey S j := by
  rw [rotationKey, rotationKey, Prod.Lex.toLex_le_toLex, rotationLe, bytesOrder_eq_ite]
  generalize byteValues (rotation S i) = a
  generalize byteValues (rotation S j) = b
  rcases lt_trichotomy a b with hlt | heq | hgt
  · simp [hlt]
  · simp [heq]
  · simp [hgt, hgt.not_gt, hgt.ne']

theorem sortedRotations_perm (S : Bytes) : (sortedRotations S).Perm (List.range S.length) :=
  List.perm_insertionSort _ _

theorem sortedRotations_pairwise (S : Bytes) :
    (sortedRotations S).Pairwise (fun i j => rotationKey S i ≤ rotationKey S j) := by
  have htotal : Std.Total (fun i j => rotationLe S i j = true) :=
    ⟨fun i j => by simpa only [rotationLe_iff] using le_total _ _⟩
  have htrans : IsTrans Nat (fun i j => rotationLe S i j = true) :=
    ⟨fun i j k => by simpa only [rotationLe_iff] using le_trans⟩
  exact (List.pairwise_insertionSort _ _).imp (rotationLe_iff S _ _).mp

theorem sortedRotations_spec (S : Bytes) : SortedRotations S (sortedRotations S) := by
  have hperm := sortedRotations_perm S
  have hnodup : (sortedRotations S).Pairwise (· ≠ ·) := hperm.nodup_iff.mpr List.nodup_range
  refine ⟨hperm, ((sortedRotations_pairwise S).and hnodup).imp fun ⟨hle, hne⟩ => ?_⟩
  rcases Prod.Lex.toLex_le_toLex.mp hle with hlt | ⟨heq, hij⟩
  · exact .inl hlt
  · exact .inr ⟨byteValues_injective heq, Nat.lt_of_le_of_ne hij hne⟩

@[simp] theorem length_sortedRotations (S : Bytes) : (sortedRotations S).length = S.length := by
  rw [(sortedRotations_perm S).length_eq, List.length_range]

theorem sortedRotations_getD_lt {S : Bytes} {k : Nat} (hk : k < S.length) :
    (sortedRotations S).getD k 0 < S.length := by
  rw [List.getD_eq_getElem _ _ (by simpa using hk)]
  exact List.mem_range.mp ((sortedRotations_perm S).mem_iff.mp (List.getElem_mem _))

/-! ## The transformed bytes and the primary index (rules R231 to R234) -/

/-- The offset before `i`, around the end of the string. -/
def preceding (S : Bytes) (i : Nat) : Nat := (i + S.length - 1) % S.length

@[simp] theorem length_bwtBytes (S : Bytes) : (bwtBytes S).length = S.length := by
  rw [bwtBytes, List.length_map, length_sortedRotations]

theorem byteIn_bwtBytes {S : Bytes} {k : Nat} (hk : k < S.length) :
    byteIn (bwtBytes S) k = byteIn S (preceding S ((sortedRotations S).getD k 0)) := by
  rw [byteIn, List.getD_eq_getElem _ _ (by simpa using hk),
    List.getD_eq_getElem _ _ (by simpa using hk)]
  exact List.getElem_map _

theorem bwtPrimary_spec {S : Bytes} (h : 0 < S.length) :
    bwtPrimary S < S.length ∧ (sortedRotations S).getD (bwtPrimary S) 0 = 0 := by
  have hmem : 0 ∈ sortedRotations S := (sortedRotations_perm S).mem_iff.mpr (List.mem_range.mpr h)
  have hlt := List.idxOf_lt_length_of_mem hmem
  rw [bwtPrimary, List.getD_eq_getElem _ _ hlt]
  exact ⟨by simpa using hlt, List.getElem_idxOf hlt⟩

/-- Settles O40: the sorted order, the bytes before its rotations and the place of rotation 0. -/
theorem bwtFwdSortsRotations : Obligations.BwtFwdSortsRotations := by
  intro s hr S
  have hlen : (bwtBytes S).length = s.latch.srcLen.toNat := by
    rw [length_bwtBytes, length_sourceString]
  obtain ⟨t, hexec, hsucc⟩ := runCommand_succeeds bwtFwdResult s
    ⟨bwtBytes S, some (BitVec.ofNat 32 (bwtPrimary S))⟩ (hlen ▸ hr) rfl
  refine ⟨sortedRotations S, bwtBytes S, BitVec.ofNat 32 (bwtPrimary S), t,
    sortedRotations_spec S, length_bwtBytes S, fun k hk => byteIn_bwtBytes hk, ?_, hexec, hsucc⟩
  split
  next hempty => rw [List.length_eq_zero_iff.mp hempty]; rfl
  next hne =>
    obtain ⟨hlt, hzero⟩ := bwtPrimary_spec (Nat.pos_of_ne_zero hne)
    have hword : S.length < 2 ^ 32 := by
      rw [length_sourceString]
      exact s.latch.srcLen.isLt
    rw [BitVec.toNat_ofNat, Nat.mod_eq_of_lt (hlt.trans hword)]
    exact ⟨hlt, hzero⟩

/-! ## The stable order of the bytes (rule R235) -/

/-- Index `i` stands before index `j` when the bytes of `L` are stably sorted. -/
def ByteBefore (L : Bytes) (i j : Nat) : Prop :=
  (byteIn L i).toNat < (byteIn L j).toNat ∨ (byteIn L i = byteIn L j ∧ i < j)

theorem mem_indicesOf {L : Bytes} {v i : Nat} :
    i ∈ indicesOf L v ↔ i < L.length ∧ (byteIn L i).toNat = v := by
  simp [indicesOf]

theorem mem_stableOrder {L : Bytes} {i : Nat} : i ∈ stableOrder L ↔ i < L.length := by
  have hbyte := (byteIn L i).isLt
  simp only [stableOrder, List.mem_flatMap, List.mem_range, mem_indicesOf]
  exact ⟨fun ⟨_, _, hi, _⟩ => hi, fun hi => ⟨_, hbyte, hi, rfl⟩⟩

theorem indicesOf_pairwise (L : Bytes) (v : Nat) : (indicesOf L v).Pairwise (ByteBefore L) := by
  refine (List.Pairwise.filter _ List.pairwise_lt_range).imp_of_mem fun hi hj hlt => ?_
  obtain ⟨-, hi⟩ := mem_indicesOf.mp hi
  obtain ⟨-, hj⟩ := mem_indicesOf.mp hj
  exact .inr ⟨BitVec.eq_of_toNat_eq (hi.trans hj.symm), hlt⟩

theorem stableOrder_pairwise (L : Bytes) : (stableOrder L).Pairwise (ByteBefore L) := by
  refine List.pairwise_flatMap.mpr ⟨fun v _ => indicesOf_pairwise L v,
    List.pairwise_lt_range.imp fun hlt i hi j hj => .inl ?_⟩
  obtain ⟨-, rfl⟩ := mem_indicesOf.mp hi
  obtain ⟨-, rfl⟩ := mem_indicesOf.mp hj
  exact hlt

theorem stableOrder_nodup (L : Bytes) : (stableOrder L).Nodup :=
  (stableOrder_pairwise L).imp fun {i j} hbefore => by
    rintro rfl
    rcases hbefore with hlt | ⟨-, hlt⟩ <;> exact hlt.false

theorem stableOrder_perm (L : Bytes) : (stableOrder L).Perm (List.range L.length) :=
  (List.perm_ext_iff_of_nodup (stableOrder_nodup L) List.nodup_range).mpr fun _ =>
    mem_stableOrder.trans List.mem_range.symm

theorem stableByteOrder_stableOrder (L : Bytes) : StableByteOrder L (stableOrder L) :=
  ⟨stableOrder_perm L, stableOrder_pairwise L⟩

@[simp] theorem length_stableOrder (L : Bytes) : (stableOrder L).length = L.length := by
  rw [(stableOrder_perm L).length_eq, List.length_range]

theorem nextPos_stableOrder_getD (L : Bytes) {k : Nat} (hk : k < L.length) :
    nextPos (stableOrder L) ((stableOrder L).getD k 0) = k := by
  rw [← length_stableOrder] at hk
  rw [nextPos, List.getD_eq_getElem _ _ hk, (stableOrder_nodup L).idxOf_getElem]

/-! ## The walk (rules R236, R237) -/

/-- The position of the walk before step `j`. -/
def walkAt (ord : List Nat) (p : Nat) : Nat → Nat
  | 0 => p
  | j + 1 => nextPos ord (walkAt ord p j)

theorem walk_walkAt (L : Bytes) (p : Nat) :
    Walk L.length p (stableOrder L) (walkAt (stableOrder L) p) :=
  ⟨rfl, fun j k _ hk hord => by rw [walkAt, ← hord, nextPos_stableOrder_getD L hk]⟩

theorem walkAt_nextPos (ord : List Nat) (p j : Nat) :
    walkAt ord (nextPos ord p) j = walkAt ord p (j + 1) := by
  induction j with
  | zero => rfl
  | succ j ih => rw [walkAt, ih, ← walkAt]

@[simp] theorem length_walkFrom (L : Bytes) (ord : List Nat) (k q : Nat) :
    (walkFrom L ord k q).length = k := by
  induction k generalizing q with
  | zero => rfl
  | succ k ih => rw [walkFrom, List.length_cons, ih]

theorem byteIn_walkFrom (L : Bytes) (ord : List Nat) (p : Nat) {k j : Nat} (hj : j < k) :
    byteIn (walkFrom L ord k p) j = byteIn L (walkAt ord p j) := by
  induction k generalizing p j with
  | zero => cases hj
  | succ k ih =>
    cases j with
    | zero => rfl
    | succ j =>
      rw [walkFrom, byteIn_cons_succ, ih _ (Nat.lt_of_succ_lt_succ hj), walkAt_nextPos]

theorem byteIn_reverse {A : Bytes} {n j : Nat} (hn : A.length = n) (hj : j < n) :
    byteIn A.reverse (n - 1 - j) = byteIn A j := by
  have hback : A.length - 1 - (n - 1 - j) = j := by omega
  rw [byteIn, byteIn, List.getD_eq_getElem?_getD, List.getD_eq_getElem?_getD,
    List.getElem?_reverse (by omega), hback]

theorem bwtInverse_of_bad_index {L : Bytes} {p : Nat}
    (h : if L.length = 0 then p ≠ 0 else L.length ≤ p) : bwtInverse L p = .error .bwtBadIndex := by
  unfold bwtInverse
  split at h
  next hempty => rw [if_pos hempty, if_pos h]
  next hne => rw [if_neg hne, if_pos h]

theorem bwtInverse_of_index {L : Bytes} {p : Nat}
    (h : if L.length = 0 then p = 0 else p < L.length) :
    bwtInverse L p = .ok (walkFrom L (stableOrder L) L.length p).reverse := by
  unfold bwtInverse
  split at h
  next hempty => rw [if_pos hempty, if_neg (not_not.mpr h), hempty]; rfl
  next hne => rw [if_neg hne, if_neg (Nat.not_le.mpr h)]

theorem bwtInvResult_error {maxLen : Nat} {L : Bytes} {aux : Word} {c : ErrCode}
    (h : bwtInverse L aux.toNat = .error c) : bwtInvResult maxLen L aux = .error c := by
  simp [bwtInvResult, plainResult, h]

theorem bwtInvResult_ok {maxLen : Nat} {L D : Bytes} {aux : Word}
    (h : bwtInverse L aux.toNat = .ok D) : bwtInvResult maxLen L aux = .ok ⟨D, none⟩ := by
  simp [bwtInvResult, plainResult, h]

/-- Settles O41: the index is checked, and the walk through the stable order is the model's. -/
theorem bwtInvWalks : Obligations.BwtInvWalks := by
  intro s L n p
  refine ⟨fun hbad hr => ?_, fun hp hr => ?_⟩
  · exact runCommand_fails bwtInvResult s _ hr.1 hr.2
      (bwtInvResult_error (bwtInverse_of_bad_index hbad))
  · have hlen : (walkFrom L (stableOrder L) n p).reverse.length = n := by
      rw [List.length_reverse, length_walkFrom]
    obtain ⟨t, hexec, hsucc⟩ := runCommand_succeeds bwtInvResult s ⟨_, none⟩ (hlen.symm ▸ hr)
      (bwtInvResult_ok (bwtInverse_of_index hp))
    exact ⟨stableOrder L, walkAt (stableOrder L) p, _, t, stableByteOrder_stableOrder L,
      walk_walkAt L p, hlen, fun j hj =>
        (byteIn_reverse (length_walkFrom ..) hj).trans (byteIn_walkFrom L _ p hj), hexec, hsucc⟩

end Sys2Proof.Machine

/-! PROOFS. The block-sort family: the stable order of the transformed bytes sorts the rotations one
place further back, so the walk of the inverse meets the rotations of the source in turn. -/

namespace Sys2Proof.Machine

open Sys2Proof.Reference
open scoped List

/-! ## The rotation before a rotation -/

theorem rotation_eq_rotate {S : Bytes} {i : Nat} (hi : i ≤ S.length) : rotation S i = S.rotate i :=
  (List.rotate_eq_drop_append_take hi).symm

@[simp] theorem rotation_zero (S : Bytes) : rotation S 0 = S := List.append_nil S

@[simp] theorem rotation_length (S : Bytes) : rotation S S.length = S := by
  rw [rotation_eq_rotate le_rfl, List.rotate_length]

theorem rotation_succ {S : Bytes} {i : Nat} (hi : i < S.length) :
    rotation S (i + 1) = (rotation S i).rotate 1 := by
  rw [rotation_eq_rotate hi.le, List.rotate_rotate]
  exact rotation_eq_rotate hi

/-- A rotation is its first byte before all but the last byte of the next one. -/
theorem rotation_eq_cons {S : Bytes} {i : Nat} (hi : i < S.length) :
    rotation S i = byteIn S i :: (rotation S (i + 1)).take (S.length - 1) := by
  have hlen : (S.drop (i + 1) ++ S.take i).length = S.length - 1 := by
    rw [List.length_append, List.length_drop, List.length_take_of_le hi.le]
    omega
  rw [rotation, rotation, ← take_concat_byteIn hi, ← List.append_assoc, ← hlen, List.take_left,
    List.drop_eq_getElem_cons hi, byteIn, List.getD_eq_getElem _ _ hi]
  rfl

theorem preceding_lt {S : Bytes} (h : 0 < S.length) (i : Nat) : preceding S i < S.length :=
  Nat.mod_lt _ h

theorem rotation_preceding_succ {S : Bytes} {i : Nat} (hi : i < S.length) :
    rotation S (preceding S i + 1) = rotation S i := by
  have hpos := Nat.zero_lt_of_lt hi
  have hsub : i + S.length - 1 + 1 = i + S.length := by omega
  have hpred := preceding_lt hpos i
  rw [rotation_succ hpred, rotation_eq_rotate hpred.le, rotation_eq_rotate hi.le,
    List.rotate_rotate, ← List.rotate_mod, preceding, Nat.mod_add_mod, hsub, Nat.add_mod_right,
    List.rotate_mod]

theorem rotation_preceding {S : Bytes} {i : Nat} (hi : i < S.length) :
    rotation S (preceding S i) =
      byteIn S (preceding S i) :: (rotation S i).take (S.length - 1) := by
  rw [rotation_eq_cons (preceding_lt (Nat.zero_lt_of_lt hi) i), rotation_preceding_succ hi]

/-- Rotations that are equal as strings have equal rotations before them. -/
theorem rotation_preceding_congr {S : Bytes} {i m : Nat} (hi : i < S.length) (hm : m < S.length)
    (h : rotation S i = rotation S (m + 1)) : rotation S (preceding S i) = rotation S m := by
  have hpred := preceding_lt (Nat.zero_lt_of_lt hi) i
  rw [← rotation_preceding_succ hi, rotation_succ hpred, rotation_succ hm] at h
  exact List.rotate_injective 1 h

theorem map_preceding_range_perm (S : Bytes) :
    ((List.range S.length).map (preceding S)).Perm (List.range S.length) := by
  have hrotate : (List.range S.length).map (preceding S) =
      (List.range S.length).rotate (S.length - 1) := by
    refine List.ext_getElem (by simp) fun k hk _ => ?_
    have hpos : k + S.length - 1 = k + (S.length - 1) := by
      rw [List.length_map, List.length_range] at hk
      omega
    simp [List.getElem_rotate, preceding, hpos]
  rw [hrotate]
  exact List.rotate_perm _ _

/-! ## The stable order sorts the rotations one place back (`43_bwt_mtf.md` rule R235) -/

theorem lt_of_take_lt_take {a b : List Nat} {m : Nat} (h : a.take m < b.take m) : a < b := by
  induction m generalizing a b with
  | zero => exact absurd h (lt_irrefl _)
  | succ m ih =>
    match a, b with
    | [], [] => exact h
    | [], y :: b => exact List.nil_lt_cons y b
    | x :: a, [] => exact absurd h (List.not_lt_nil _)
    | x :: a, y :: b =>
      rw [List.take_succ_cons, List.take_succ_cons, List.cons_lt_cons_iff] at h
      exact List.cons_lt_cons_iff.mpr (h.imp_right fun ⟨heq, htail⟩ => ⟨heq, ih htail⟩)

section Order
variable (S : Bytes)

/-- The rotation at place `k` of the sorted order. -/
def sortedRotation (k : Nat) : Bytes := rotation S ((sortedRotations S).getD k 0)

/-- The rotation one place back from the one at place `k`: it starts with the transformed byte. -/
def shiftedRotation (k : Nat) : Bytes := rotation S (preceding S ((sortedRotations S).getD k 0))

theorem shiftedRotation_eq_cons {k : Nat} (hk : k < S.length) : shiftedRotation S k =
    byteIn (bwtBytes S) k :: (sortedRotation S k).take (S.length - 1) := by
  rw [shiftedRotation, rotation_preceding (sortedRotations_getD_lt hk), byteIn_bwtBytes hk]
  rfl

theorem sortedRotation_le {i j : Nat} (hij : i < j) (hj : j < S.length) :
    byteValues (sortedRotation S i) ≤ byteValues (sortedRotation S j) := by
  rw [← length_sortedRotations] at hj
  have hkey := List.pairwise_iff_getElem.mp (sortedRotations_pairwise S) i j (hij.trans hj) hj hij
  rw [sortedRotation, sortedRotation, List.getD_eq_getElem _ _ hj,
    List.getD_eq_getElem _ _ (hij.trans hj)]
  rcases Prod.Lex.toLex_le_toLex.mp hkey with hlt | ⟨heq, -⟩
  · exact hlt.le
  · exact heq.le

theorem shiftedRotation_le {i j : Nat} (hi : i < S.length) (hj : j < S.length)
    (h : ByteBefore (bwtBytes S) i j) :
    byteValues (shiftedRotation S i) ≤ byteValues (shiftedRotation S j) := by
  rw [shiftedRotation_eq_cons S hi, shiftedRotation_eq_cons S hj, byteValues_cons, byteValues_cons]
  rcases h with hlt | ⟨heq, hij⟩
  · exact (List.cons_lt_cons_iff.mpr (.inl hlt)).le
  · rw [heq, ← not_lt, List.cons_lt_cons_iff]
    rintro (hlt | ⟨-, hlt⟩)
    · exact hlt.false
    · rw [byteValues, byteValues, List.map_take, List.map_take] at hlt
      exact (sortedRotation_le S hij hj).not_gt (lt_of_take_lt_take hlt)

theorem map_range_sortedRotations (g : Nat → Bytes) :
    (List.range S.length).map (fun k => g ((sortedRotations S).getD k 0)) =
      (sortedRotations S).map g :=
  List.ext_getElem (by simp) fun k _ hk => by
    rw [List.length_map] at hk
    simp [List.getElem?_eq_getElem hk]

theorem map_shiftedRotation_perm : ((stableOrder (bwtBytes S)).map (shiftedRotation S)).Perm
    ((List.range S.length).map (sortedRotation S)) := by
  have hord := stableOrder_perm (bwtBytes S)
  have hsorted := sortedRotations_perm S
  have hback := ((map_preceding_range_perm S).trans hsorted.symm).map (rotation S)
  rw [List.map_map] at hback
  rw [length_bwtBytes] at hord
  calc (stableOrder (bwtBytes S)).map (shiftedRotation S)
    _ ~ (List.range S.length).map (shiftedRotation S) := hord.map _
    _ = (sortedRotations S).map (rotation S ∘ preceding S) :=
      map_range_sortedRotations S (rotation S ∘ preceding S)
    _ ~ (List.range S.length).map (rotation S ∘ preceding S) := hsorted.map _
    _ ~ (sortedRotations S).map (rotation S) := hback
    _ = (List.range S.length).map (sortedRotation S) :=
      (map_range_sortedRotations S (rotation S)).symm

/-- Sorted stably by their first byte, the shifted rotations are the sorted rotations again. -/
theorem map_shiftedRotation_stableOrder : (stableOrder (bwtBytes S)).map (shiftedRotation S) =
    (List.range S.length).map (sortedRotation S) := by
  have hshifted : ((stableOrder (bwtBytes S)).map (shiftedRotation S)).Pairwise
      (fun a b => byteValues a ≤ byteValues b) := by
    refine List.pairwise_map.mpr ((stableOrder_pairwise _).imp_of_mem fun hi hj hbefore => ?_)
    rw [mem_stableOrder, length_bwtBytes] at hi hj
    exact shiftedRotation_le S hi hj hbefore
  have hsorted : ((List.range S.length).map (sortedRotation S)).Pairwise
      (fun a b => byteValues a ≤ byteValues b) :=
    List.pairwise_map.mpr (List.pairwise_lt_range.imp_of_mem fun _ hj hij =>
      sortedRotation_le S hij (List.mem_range.mp hj))
  exact List.Perm.eq_of_pairwise (fun _ _ _ _ hab hba => byteValues_injective (hab.antisymm hba))
    hshifted hsorted (map_shiftedRotation_perm S)

/-- A step of the walk leads to the rotation one place back. -/
theorem sortedRotation_nextPos {q : Nat} (hq : q < S.length) :
    nextPos (stableOrder (bwtBytes S)) q < S.length ∧
      sortedRotation S (nextPos (stableOrder (bwtBytes S)) q) = shiftedRotation S q := by
  have hmem : q ∈ stableOrder (bwtBytes S) := mem_stableOrder.mpr (by rwa [length_bwtBytes])
  have hidx := List.idxOf_lt_length_of_mem hmem
  rw [length_stableOrder, length_bwtBytes] at hidx
  have hat := congrArg (·[nextPos (stableOrder (bwtBytes S)) q]?)
    (map_shiftedRotation_stableOrder S)
  simp only [List.getElem?_map, nextPos, List.getElem?_idxOf hmem, List.getElem?_range hidx,
    Option.map_some] at hat
  exact ⟨hidx, (Option.some.inj hat).symm⟩

end Order

/-! ## The round trip (rules R236, R243) -/

/-- The walk from a rotation that starts at `m` meets the bytes before `m`, last first. -/
theorem walkFrom_reverse {S : Bytes} (m q : Nat) (hm : m ≤ S.length) (hq : q < S.length)
    (h : sortedRotation S q = rotation S m) :
    (walkFrom (bwtBytes S) (stableOrder (bwtBytes S)) m q).reverse = S.take m := by
  induction m generalizing q with
  | zero => rfl
  | succ m ih =>
    obtain ⟨hnext, hstep⟩ := sortedRotation_nextPos S hq
    have hback : shiftedRotation S q = rotation S m :=
      rotation_preceding_congr (sortedRotations_getD_lt hq) hm h
    have hbyte : byteIn (bwtBytes S) q = byteIn S m := by
      rw [shiftedRotation_eq_cons S hq, rotation_eq_cons hm] at hback
      exact (List.cons.inj hback).1
    rw [walkFrom, List.reverse_cons, ih _ (Nat.le_of_succ_le hm) hnext (hstep.trans hback), hbyte,
      take_concat_byteIn hm]

/-- Settles O57: the walk starts at rotation 0, which is the source, and goes once around it. -/
theorem bwtRoundTrip : Obligations.BwtRoundTrip := by
  intro S
  rcases Nat.eq_zero_or_pos S.length with hempty | hpos
  · rw [List.length_eq_zero_iff.mp hempty]
    rfl
  · obtain ⟨hlt, hzero⟩ := bwtPrimary_spec hpos
    have hstart : sortedRotation S (bwtPrimary S) = rotation S S.length := by
      rw [sortedRotation, hzero, rotation_zero, rotation_length]
    rw [bwtInverse_of_index (by rwa [length_bwtBytes, if_neg hpos.ne']), length_bwtBytes,
      walkFrom_reverse S.length _ le_rfl hlt hstart, List.take_length]

end Sys2Proof.Machine

/-! PROOFS. The byte-run coder: its runs are maximal, decoding is the loop of the rules, and it
gives the source of an encoding back. -/

namespace Sys2Proof.Machine

open Sys2Proof.Reference

/-! ## The runs (`44_rle_delta_exe.md` rule R260) -/

/-- The bytes of a run. -/
def runBytes (run : Byte × Nat) : Bytes := List.replicate run.2 run.1

theorem flatMap_runBytes_runsFrom (b : Byte) (r : Nat) (S : Bytes) :
    (runsFrom b r S).flatMap runBytes = List.replicate r b ++ S := by
  induction S generalizing b r with
  | nil => simp [runsFrom, runBytes]
  | cons c S ih =>
    rw [runsFrom]
    split
    next h => rw [ih, h.1, List.replicate_succ', List.append_assoc, List.singleton_append]
    next => rw [List.flatMap_cons, ih, runBytes, List.replicate_one, List.singleton_append]

theorem flatMap_runBytes_runsOf (S : Bytes) : (runsOf S).flatMap runBytes = S := by
  cases S with
  | nil => rfl
  | cons b S => exact flatMap_runBytes_runsFrom b 1 S

theorem runsFrom_bounds (b : Byte) {r : Nat} (S : Bytes) (hpos : 1 ≤ r) (hcap : r ≤ 255) :
    ∀ run ∈ runsFrom b r S, 1 ≤ run.2 ∧ run.2 ≤ 255 := by
  induction S generalizing b r with
  | nil => exact List.forall_mem_singleton.mpr ⟨hpos, hcap⟩
  | cons c S ih =>
    rw [runsFrom]
    split
    next h => exact ih b (Nat.le_add_left 1 r) h.2
    next => exact List.forall_mem_cons.mpr ⟨⟨hpos, hcap⟩, ih c le_rfl (by decide)⟩

theorem runsOf_bounds (S : Bytes) : ∀ run ∈ runsOf S, 1 ≤ run.2 ∧ run.2 ≤ 255 := by
  cases S with
  | nil => exact List.forall_mem_nil _
  | cons b S => exact runsFrom_bounds b S le_rfl (by decide)

/-- A run after `p` may begin with byte `b`: `p` is of another byte or full. -/
def RunEndsBefore (p : Byte × Nat) (b : Byte) : Prop := p.1 ≠ b ∨ p.2 = 255

theorem isChain_cons_runsFrom {p : Byte × Nat} {b : Byte} {r : Nat} (S : Bytes)
    (hp : RunEndsBefore p b) (hcap : r ≤ 255) :
    (p :: runsFrom b r S).IsChain (fun p q => RunEndsBefore p q.1) := by
  induction S generalizing p b r with
  | nil => exact List.isChain_pair.mpr hp
  | cons c S ih =>
    rw [runsFrom]
    split
    next h => exact ih hp h.2
    next h =>
      have hend : RunEndsBefore (b, r) c := by
        by_cases hc : c = b
        · exact .inr (le_antisymm hcap (not_lt.mp fun hlt => h ⟨hc, hlt⟩))
        · exact .inl (Ne.symm hc)
      exact List.isChain_cons_cons.mpr ⟨hp, ih hend (by decide)⟩

/-- The first run begins as it would after a full run. -/
theorem isChain_runsOf (S : Bytes) : (runsOf S).IsChain (fun p q => RunEndsBefore p q.1) := by
  cases S with
  | nil => exact List.isChain_nil
  | cons b S => exact (isChain_cons_runsFrom (p := (b, 255)) S (.inr rfl) (by decide)).tail

/-- Settles O32: the runs are those of the encoder's own scan. -/
theorem rleEncEmitsMaximalRuns : Obligations.RleEncEmitsMaximalRuns := fun s =>
  ⟨runsOf (sourceString s), flatMap_runBytes_runsOf _, runsOf_bounds _, isChain_runsOf _,
    fun hr => runPlain_succeeds (fun S => .ok (rleEncode S)) s _ hr rfl⟩

/-! ## The decoder, case by case (rule R263) -/

theorem prependOk_nil (x : Except ErrCode Bytes) : prependOk [] x = x := by cases x <;> rfl

theorem prependOk_prependOk (p q : Bytes) (x : Except ErrCode Bytes) :
    prependOk p (prependOk q x) = prependOk (p ++ q) x := by
  cases x with
  | ok D => rw [prependOk, prependOk, prependOk, List.append_assoc]
  | error c => rfl

theorem rleDecode_literal {a : Byte} (h : a ≠ rleMarker) (S : Bytes) :
    rleDecode (a :: S) = prependOk [a] (rleDecode S) := by
  match S with
  | [] => exact if_neg h
  | [_] | _ :: _ :: _ => rw [rleDecode.eq_def]; exact if_neg h

theorem rleDecode_truncated {a : Byte} (ha : a = rleMarker) {S : Bytes} (h : S.length < 2) :
    rleDecode (a :: S) = .error .rleTruncated := by
  match S, h with
  | [], _ | [_], _ => exact if_pos ha

theorem rleDecode_zeroRun {a r : Byte} (ha : a = rleMarker) (h : r = 0) (b : Byte) (S : Bytes) :
    rleDecode (a :: r :: b :: S) = .error .rleZeroRun := by
  rw [rleDecode, if_pos ha, if_pos h]

theorem rleDecode_triple {a r : Byte} (ha : a = rleMarker) (h : r ≠ 0) (b : Byte) (S : Bytes) :
    rleDecode (a :: r :: b :: S) = prependOk (List.replicate r.toNat b) (rleDecode S) := by
  rw [rleDecode, if_pos ha, if_neg h]

theorem drop_eq_byteIn_cons {S : Bytes} {i : Nat} (h : i < S.length) :
    S.drop i = byteIn S i :: S.drop (i + 1) := by
  rw [byteIn, List.getD_eq_getElem _ _ h, List.drop_eq_getElem_cons h]

/-- The loop from index `i` on appends what the rest of the string decodes to. -/
theorem rleLoop_eq (S : Bytes) (fuel i : Nat) (D : Bytes) (h : S.length ≤ i + fuel) :
    rleLoop S fuel i D = prependOk D (rleDecode (S.drop i)) := by
  induction fuel generalizing i D with
  | zero => rw [List.drop_of_length_le (i := i) h, rleLoop, rleDecode, prependOk, List.append_nil]
  | succ fuel ih =>
    rw [rleLoop]
    by_cases hi : i < S.length
    · rw [if_pos hi, drop_eq_byteIn_cons hi]
      by_cases hmark : byteIn S i = 0xFF
      · rw [if_pos hmark]
        by_cases hshort : S.length ≤ i + 2
        · rw [if_pos hshort, rleDecode_truncated hmark (by rw [List.length_drop]; omega), prependOk]
        · rw [if_neg hshort, drop_eq_byteIn_cons (i := i + 1) (by omega),
            drop_eq_byteIn_cons (i := i + 1 + 1) (by omega)]
          by_cases hzero : byteIn S (i + 1) = 0
          · rw [if_pos hzero, rleDecode_zeroRun hmark hzero, prependOk]
          · rw [if_neg hzero, rleDecode_triple hmark hzero, prependOk_prependOk, ih _ _ (by omega)]
      · rw [if_neg hmark, rleDecode_literal hmark, prependOk_prependOk, ih _ _ (by omega)]
    · rw [if_neg hi, List.drop_of_length_le (by omega), rleDecode, prependOk, List.append_nil]

theorem rleDecode_eq_rleLoop (S : Bytes) : rleDecode S = rleLoop S S.length 0 [] := by
  rw [rleLoop_eq S _ 0 [] (by omega), prependOk_nil, List.drop_zero]

/-- Settles O33: RLE_DEC's result is that of the loop of the rules. -/
theorem rleDecExpandsMarkers : Obligations.RleDecExpandsMarkers := fun s =>
  ⟨fun D hD hr => runPlain_succeeds rleDecode s D hr ((rleDecode_eq_rleLoop _).trans hD),
    fun c hc hr => runPlain_fails rleDecode s c hr.1 hr.2 ((rleDecode_eq_rleLoop _).trans hc)⟩

/-! ## The round trip (rule R265) -/

theorem rleDecode_replicate {b : Byte} (h : b ≠ rleMarker) (n : Nat) (S : Bytes) :
    rleDecode (List.replicate n b ++ S) = prependOk (List.replicate n b) (rleDecode S) := by
  induction n with
  | zero => exact (prependOk_nil _).symm
  | succ n ih =>
    rw [List.replicate_succ, List.cons_append, rleDecode_literal h, ih, prependOk_prependOk,
      List.singleton_append]

theorem rleDecode_emitRun {run : Byte × Nat} (hpos : 1 ≤ run.2) (hcap : run.2 ≤ 255) (S : Bytes) :
    rleDecode (emitRun run ++ S) = prependOk (runBytes run) (rleDecode S) := by
  rw [emitRun]
  split
  next =>
    have hcount : (BitVec.ofNat 8 run.2).toNat = run.2 := by
      rw [BitVec.toNat_ofNat]
      omega
    have hne : BitVec.ofNat 8 run.2 ≠ 0 := fun h => by
      rw [h] at hcount
      exact absurd hcount (Nat.ne_of_lt hpos)
    refine (rleDecode_triple rfl hne _ _).trans ?_
    rw [hcount, runBytes]
    rfl
  next h => exact rleDecode_replicate (fun hmark => h (.inr hmark)) _ _

theorem rleDecode_flatMap_emitRun (runs : List (Byte × Nat))
    (h : ∀ run ∈ runs, 1 ≤ run.2 ∧ run.2 ≤ 255) :
    rleDecode (runs.flatMap emitRun) = .ok (runs.flatMap runBytes) := by
  induction runs with
  | nil => rfl
  | cons run runs ih =>
    obtain ⟨⟨hpos, hcap⟩, hrest⟩ := List.forall_mem_cons.mp h
    rw [List.flatMap_cons, List.flatMap_cons, rleDecode_emitRun hpos hcap, ih hrest, prependOk]

/-- Settles O53: each run decodes to its bytes. -/
theorem rleRoundTrip : Obligations.RleRoundTrip := fun S => by
  rw [rleEncode, rleDecode_flatMap_emitRun _ (runsOf_bounds S), flatMap_runBytes_runsOf]

end Sys2Proof.Machine

/-! PROOFS. The delta coder: both directions combine each byte with the one four places before it,
and decoding undoes encoding. -/

namespace Sys2Proof.Machine

/-- A command whose output is as long as its source succeeds when an output of SRC_LEN bytes fits. -/
theorem runSameLength_succeeds {f : Bytes → Bytes} (hlen : ∀ S, (f S).length = S.length) (s : State)
    (hr : Runnable s s.latch.srcLen.toNat) :
    ∃ t, runCommand (plainResult (fun S => .ok (f S))) s = .next t ∧
      Succeeded s t (f (sourceString s)) s.regs.aux :=
  runPlain_succeeds (fun S => .ok (f S)) s _ (by rwa [hlen, length_sourceString]) rfl

/-! ## The byte four places earlier (`44_rle_delta_exe.md` rules R270, R272) -/

/-- The strings that a delta coder combines are the source and a string delayed by four bytes. -/
theorem byteIn_zipWith_delayed (f : Byte → Byte → Byte) {S T : Bytes} {i : Nat} (hi : i < S.length)
    (hlen : T.length = S.length) :
    byteIn (List.zipWith f S (List.replicate deltaStride 0 ++ T)) i =
      f (byteIn S i) (if i < 4 then 0 else byteIn T (i - 4)) := by
  have hdelayed : i < (List.replicate deltaStride (0 : Byte) ++ T).length := by
    rw [List.length_append, List.length_replicate]
    omega
  simp only [byteIn]
  rw [List.getD_eq_getElem _ _ (by rw [List.length_zipWith]; omega), List.getElem_zipWith,
    List.getD_eq_getElem _ _ hi, List.getElem_append]
  split
  next h =>
    have hlt : i < 4 := h
    rw [List.getElem_replicate, if_pos hlt]
  next h =>
    have hle : ¬ i < 4 := h
    rw [if_neg hle, List.getD_eq_getElem _ _ (by omega)]
    rfl

/-! ## Encoding (rule R271) -/

theorem length_deltaEncode (S : Bytes) : (deltaEncode S).length = S.length := by
  rw [deltaEncode, List.length_zipWith, List.length_append]
  omega

/-- Settles O34: the delayed string is the source itself. -/
theorem deltaEncSubtracts : Obligations.DeltaEncSubtracts := by
  intro s hr
  obtain ⟨t, hexec, hsucc⟩ := runSameLength_succeeds length_deltaEncode s hr
  have hlen := length_deltaEncode (sourceString s)
  refine ⟨_, t, hexec, hsucc, hlen, fun i hi => ?_⟩
  rw [deltaEncode, byteIn_zipWith_delayed _ (hlen ▸ hi) rfl]
  split
  · exact BitVec.sub_zero _
  · rfl

/-! ## Decoding (rule R273) -/

theorem deltaDecFrom_cons (b : Byte) (w : Bytes) (x : Byte) (S : Bytes) :
    deltaDecFrom (b :: w) (x :: S) = (x + b) :: deltaDecFrom (w ++ [x + b]) S := rfl

theorem length_deltaDecFrom (w S : Bytes) : (deltaDecFrom w S).length = S.length := by
  induction S generalizing w with
  | nil => rfl
  | cons x S ih => rw [deltaDecFrom, List.length_cons, ih, List.length_cons]

theorem length_deltaDecode (S : Bytes) : (deltaDecode S).length = S.length :=
  length_deltaDecFrom _ S

/-- Decoding adds its own output, delayed by the bytes it starts from. -/
theorem deltaDecFrom_eq_zipWith {w : Bytes} (hw : w ≠ []) (S : Bytes) :
    deltaDecFrom w S = List.zipWith (· + ·) S (w ++ deltaDecFrom w S) := by
  induction S generalizing w with
  | nil => rfl
  | cons x S ih =>
    obtain ⟨b, w, rfl⟩ := List.exists_cons_of_ne_nil hw
    have hnext := ih (w := w ++ [x + b]) (by simp)
    rw [List.append_assoc, List.singleton_append] at hnext
    rw [deltaDecFrom_cons, List.cons_append, List.zipWith_cons_cons, ← hnext]

/-- Settles O35: the delayed string is the output. -/
theorem deltaDecAdds : Obligations.DeltaDecAdds := by
  intro s hr
  obtain ⟨t, hexec, hsucc⟩ := runSameLength_succeeds length_deltaDecode s hr
  have hlen := length_deltaDecode (sourceString s)
  refine ⟨_, t, hexec, hsucc, hlen, fun i hi => ?_⟩
  have hfix : deltaDecode (sourceString s) = List.zipWith (· + ·) (sourceString s)
      (List.replicate deltaStride 0 ++ deltaDecode (sourceString s)) :=
    deltaDecFrom_eq_zipWith (by decide) _
  conv_lhs => rw [hfix, byteIn_zipWith_delayed _ (hlen ▸ hi) hlen]
  split
  · exact BitVec.add_zero _
  · rfl

/-! ## The round trip (rule R274) -/

theorem deltaDecFrom_zipWith_sub {w : Bytes} (hw : w ≠ []) (S : Bytes) :
    deltaDecFrom w (List.zipWith (· - ·) S (w ++ S)) = S := by
  induction S generalizing w with
  | nil => rfl
  | cons x S ih =>
    obtain ⟨b, w, rfl⟩ := List.exists_cons_of_ne_nil hw
    have hnext := ih (w := w ++ [x]) (by simp)
    rw [List.append_assoc, List.singleton_append] at hnext
    rw [List.cons_append, List.zipWith_cons_cons, deltaDecFrom_cons, BitVec.sub_add_cancel, hnext]

/-- Settles O54: the decoder has the same bytes before it as the encoder had. -/
theorem deltaRoundTrip : Obligations.DeltaRoundTrip := deltaDecFrom_zipWith_sub (by decide)

end Sys2Proof.Machine

/-! PROOFS. The executable-address filter: the scan over the rest of the string is the loop of the
rules over the whole buffer, and the two directions undo each other. -/

namespace Sys2Proof.Machine

open Sys2Proof.Reference

/-! ## Displacements (`44_rle_delta_exe.md` rule R281) -/

theorem ofLe32_lt (b0 b1 b2 b3 : Byte) : ofLe32 b0 b1 b2 b3 < 2 ^ 32 := by
  have := b0.isLt
  have := b1.isLt
  have := b2.isLt
  have := b3.isLt
  rw [ofLe32]
  omega

theorem ofLe32_byteAt {n : Nat} (h : n < 2 ^ 32) :
    ofLe32 (byteAt n 0) (byteAt n 1) (byteAt n 2) (byteAt n 3) = n := by
  simp only [ofLe32, byteAt, BitVec.toNat_ofNat]
  omega

theorem le32_ofLe32 (b0 b1 b2 b3 : Byte) : le32 (ofLe32 b0 b1 b2 b3) = [b0, b1, b2, b3] := by
  have := b0.isLt
  have := b1.isLt
  have := b2.isLt
  have := b3.isLt
  simp only [le32, byteAt, ofLe32, List.cons.injEq, and_true, ← BitVec.toNat_inj,
    BitVec.toNat_ofNat]
  omega

/-! ## The scan, case by case (rule R280) -/

theorem length_lt_five_of_no_room {S : Bytes}
    (h : ∀ c b0 b1 b2 b3 rest, S = c :: b0 :: b1 :: b2 :: b3 :: rest → False) : S.length < 5 := by
  match S with
  | [] | [_] | [_, _] | [_, _, _] | [_, _, _, _] => simp
  | _ :: _ :: _ :: _ :: _ :: _ => exact (h _ _ _ _ _ _ rfl).elim

theorem exeScan_short (f : Nat → Word → Word) (i : Nat) {S : Bytes} (h : S.length < 5) :
    exeScan f i S = S := by
  match S, h with
  | [], _ | [_], _ | [_, _], _ | [_, _, _], _ | [_, _, _, _], _ => rfl

theorem exeScan_call (f : Nat → Word → Word) (i : Nat) {c : Byte} (h : c = exeOpcode)
    (b0 b1 b2 b3 : Byte) (S : Bytes) :
    exeScan f i (c :: b0 :: b1 :: b2 :: b3 :: S) =
      c :: (le32 (f i (BitVec.ofNat 32 (ofLe32 b0 b1 b2 b3))).toNat ++ exeScan f (i + 5) S) := by
  rw [exeScan, if_pos h]

theorem exeScan_other (f : Nat → Word → Word) (i : Nat) {c : Byte} (h : c ≠ exeOpcode) (S : Bytes) :
    exeScan f i (c :: S) = c :: exeScan f (i + 1) S := by
  match S with
  | [] | [_] | [_, _] | [_, _, _] => rfl
  | _ :: _ :: _ :: _ :: _ => rw [exeScan, if_neg h]

theorem length_exeScan (f : Nat → Word → Word) (i : Nat) (S : Bytes) :
    (exeScan f i S).length = S.length := by
  induction i, S using exeScan.induct with
  | case1 i b0 b1 b2 b3 S ih =>
    rw [exeScan_call f i rfl, List.length_cons, List.length_append, ih]
    simp only [le32, List.length_cons, List.length_nil]
    omega
  | case2 i c b0 b1 b2 b3 S hc ih =>
    rw [exeScan_other f i hc, List.length_cons, ih]
    rfl
  | case3 i S hS => rw [exeScan_short f i (length_lt_five_of_no_room hS)]

/-! ## The loop over the whole buffer (rules R282, R284) -/

theorem drop_eq_byteIn_five {S : Bytes} {i : Nat} (h : i + 5 ≤ S.length) :
    S.drop i = byteIn S i :: byteIn S (i + 1) :: byteIn S (i + 2) :: byteIn S (i + 3) ::
      byteIn S (i + 4) :: S.drop (i + 5) := by
  rw [drop_eq_byteIn_cons (i := i) (by omega), drop_eq_byteIn_cons (i := i + 1) (by omega),
    drop_eq_byteIn_cons (i := i + 2) (by omega), drop_eq_byteIn_cons (i := i + 3) (by omega),
    drop_eq_byteIn_cons (i := i + 4) (by omega)]

/-- The displacement of a call site at index `i` of a buffer. -/
def displacementAt (D : Bytes) (i : Nat) : Word :=
  BitVec.ofNat 32
    (ofLe32 (byteIn D (i + 1)) (byteIn D (i + 2)) (byteIn D (i + 3)) (byteIn D (i + 4)))

theorem toNat_displacementAt (D : Bytes) (i : Nat) : (displacementAt D i).toNat =
    ofLe32 (byteIn D (i + 1)) (byteIn D (i + 2)) (byteIn D (i + 3)) (byteIn D (i + 4)) := by
  rw [displacementAt, BitVec.toNat_ofNat, Nat.mod_eq_of_lt (ofLe32_lt ..)]

/-- The buffer with the displacement of the call site at index `i` replaced by `v`. -/
def putDisplacement (D : Bytes) (i : Nat) (v : Word) : Bytes := putAt D (i + 1) (le32 v.toNat)

section PutDisplacement
variable {D : Bytes} {i : Nat} (hroom : i + 5 ≤ D.length) (v : Word)
include hroom

theorem length_putDisplacement : (putDisplacement D i v).length = D.length := by
  rw [putDisplacement, putAt, List.length_append, List.length_append, List.length_take,
    List.length_drop]
  simp only [le32, List.length_cons, List.length_nil]
  omega

theorem length_take_append_le32 : (D.take (i + 1) ++ le32 v.toNat).length = i + 5 := by
  rw [List.length_append, List.length_take, min_eq_left (by omega)]
  rfl

theorem take_putDisplacement :
    (putDisplacement D i v).take (i + 5) = D.take (i + 1) ++ le32 v.toNat :=
  List.take_left' (length_take_append_le32 hroom v)

theorem drop_putDisplacement : (putDisplacement D i v).drop (i + 5) = D.drop (i + 5) :=
  List.drop_left' (length_take_append_le32 hroom v)

end PutDisplacement

section Scan
variable (f : Nat → Word → Word) {D : Bytes} {i : Nat}

/-- At a call site the scan goes on behind it in the rewritten buffer. -/
theorem take_append_exeScan_call (hroom : i + 5 ≤ D.length) (hcall : byteIn D i = exeOpcode) :
    D.take i ++ exeScan f i (D.drop i) =
      (putDisplacement D i (f i (displacementAt D i))).take (i + 5) ++
        exeScan f (i + 5) ((putDisplacement D i (f i (displacementAt D i))).drop (i + 5)) := by
  rw [take_putDisplacement hroom, drop_putDisplacement hroom, drop_eq_byteIn_five hroom,
    exeScan_call f i hcall, ← take_concat_byteIn (by omega)]
  simp only [List.append_assoc, List.singleton_append]
  rfl

theorem take_append_exeScan_other (hi : i < D.length) (hcall : byteIn D i ≠ exeOpcode) :
    D.take i ++ exeScan f i (D.drop i) = D.take (i + 1) ++ exeScan f (i + 1) (D.drop (i + 1)) := by
  rw [drop_eq_byteIn_cons hi, exeScan_other f i hcall, ← take_concat_byteIn hi, List.append_assoc,
    List.singleton_append]

theorem take_append_exeScan_end (hroom : ¬ i + 5 ≤ D.length) :
    D.take i ++ exeScan f i (D.drop i) = D := by
  rw [exeScan_short f i (by rw [List.length_drop]; omega), List.take_append_drop]

end Scan

/-- At a call site `f` adds what the loop of the rules adds, modulo 2^32. -/
def AddsAtSites (f : Nat → Word → Word) (add : Nat → Nat) : Prop :=
  ∀ i v, (f i v).toNat = (v.toNat + add i) % 2 ^ 32

section ScanLoop
variable {f : Nat → Word → Word} {add : Nat → Nat} (hf : AddsAtSites f add)
include hf

/-- The loop from index `i` on leaves the bytes before it and scans the rest. -/
theorem exeLoop_eq (fuel i : Nat) (D : Bytes) (hfuel : D.length ≤ i + fuel) :
    exeLoop add fuel i D = D.take i ++ exeScan f i (D.drop i) := by
  induction fuel generalizing i D with
  | zero =>
    have hend : ¬ i + 5 ≤ D.length := by omega
    exact (take_append_exeScan_end f hend).symm
  | succ fuel ih =>
    rw [exeLoop]
    by_cases hroom : i + 5 ≤ D.length
    · rw [if_pos hroom]
      by_cases hcall : byteIn D i = 0xE8
      · rw [if_pos hcall, ← toNat_displacementAt, ← hf i, take_append_exeScan_call f hroom hcall]
        exact ih (i + 5) (putDisplacement D i _) (by rw [length_putDisplacement hroom]; omega)
      · rw [if_neg hcall, take_append_exeScan_other f (by omega) hcall]
        exact ih _ _ (by omega)
    · rw [if_neg hroom, take_append_exeScan_end f hroom]

theorem exeScan_eq_exeLoop (S : Bytes) : exeScan f 0 S = exeLoop add S.length 0 S :=
  (exeLoop_eq hf S.length 0 S (by omega)).symm

/-- A command that scans its source succeeds with the output of the loop. -/
theorem runScan_succeeds (s : State) (hr : Runnable s s.latch.srcLen.toNat) :
    let D := exeLoop add (sourceString s).length 0 (sourceString s)
    ∃ t, runCommand (plainResult (fun S => .ok (exeScan f 0 S))) s = .next t ∧
      Succeeded s t D s.regs.aux ∧ D.length = (sourceString s).length := by
  rw [← exeScan_eq_exeLoop hf]
  obtain ⟨t, hexec, hsucc⟩ := runSameLength_succeeds (length_exeScan f 0) s hr
  exact ⟨t, hexec, hsucc, length_exeScan f 0 _⟩

end ScanLoop

theorem toAbsolute_addsAtSites : AddsAtSites toAbsolute fwdAdd := fun i v => by
  rw [toAbsolute, fwdAdd, BitVec.toNat_add, BitVec.toNat_ofNat]
  omega

theorem toRelative_addsAtSites : AddsAtSites toRelative invAdd := fun i v => by
  rw [toRelative, invAdd, BitVec.toNat_sub, BitVec.toNat_ofNat]
  omega

/-- Settles O36: what the scan puts at a call site is what the loop puts there. -/
theorem exeFwdRewritesCalls : Obligations.ExeFwdRewritesCalls :=
  runScan_succeeds toAbsolute_addsAtSites

/-- Settles O37: subtracting `i + 5` is adding its complement modulo 2^32. -/
theorem exeInvRewritesCalls : Obligations.ExeInvRewritesCalls :=
  runScan_succeeds toRelative_addsAtSites

/-! ## The round trips (rule R285) -/

theorem exeScan_exeScan {f g : Nat → Word → Word} (h : ∀ i v, g i (f i v) = v) (i : Nat)
    (S : Bytes) : exeScan g i (exeScan f i S) = S := by
  induction i, S using exeScan.induct with
  | case1 i b0 b1 b2 b3 S ih =>
    rw [exeScan_call f i rfl, le32, List.cons_append, List.cons_append, List.cons_append,
      List.cons_append, List.nil_append, exeScan_call g i rfl, ih, ofLe32_byteAt (BitVec.isLt _),
      BitVec.ofNat_toNat, BitVec.setWidth_eq, h, BitVec.toNat_ofNat,
      Nat.mod_eq_of_lt (ofLe32_lt ..), le32_ofLe32]
    rfl
  | case2 i c b0 b1 b2 b3 S hc ih => rw [exeScan_other f i hc, exeScan_other g i hc, ih]
  | case3 i S hS =>
    have hlt := length_lt_five_of_no_room hS
    rw [exeScan_short f i hlt, exeScan_short g i hlt]

/-- Settles O55: at a call site each direction undoes the other. -/
theorem exeRoundTrip : Obligations.ExeRoundTrip := fun S =>
  ⟨exeScan_exeScan (fun _ v => BitVec.add_sub_cancel v _) 0 S,
    exeScan_exeScan (fun _ v => BitVec.sub_add_cancel v _) 0 S⟩

end Sys2Proof.Machine

/-! PROOFS. The pipelines: stages in order, and the decode column undoes the encode column. -/

namespace Sys2Proof.Machine

open Sys2Proof.Reference

/-! ## Stages in order (`45_pipelines.md` rule R307) -/

theorem exists_ok_of_bind_eq_ok {α β : Type} {x : Except ErrCode α} {f : α → Except ErrCode β}
    {b : β} (h : x >>= f = .ok b) : ∃ a, x = .ok a ∧ f a = .ok b := by
  cases x with
  | error c => cases h
  | ok a => exact ⟨a, rfl, h⟩

section Stages
variable {maxLen : Nat}

theorem within_of_le {S : Bytes} (h : S.length ≤ maxLen) : within maxLen S = .ok S := if_pos h

theorem within_eq_ok_iff {S D : Bytes} : within maxLen S = .ok D ↔ S.length ≤ maxLen ∧ S = D := by
  rw [within]
  split
  next h => rw [Except.ok.injEq, and_iff_right h]
  next h => exact ⟨nofun, fun hD => absurd hD.1 h⟩

theorem ok_bind_within (D : Bytes) :
    (Except.ok D : Except ErrCode Bytes) >>= within maxLen = within maxLen D := rfl

theorem boundedStage_eq_bind (f : Bytes → Except ErrCode Bytes) (S : Bytes) :
    boundedStage maxLen f S = f S >>= within maxLen := by
  rw [boundedStage]
  cases f S with
  | error c => rfl
  | ok D => simp only [ok_bind_within, within, ← Nat.not_lt, ite_not]

theorem runStages_cons (f : Bytes → Except ErrCode Bytes)
    (fs : List (Bytes → Except ErrCode Bytes)) :
    runStages maxLen (f :: fs) = fun S => f S >>= within maxLen >>= runStages maxLen fs := by
  funext S
  rw [runStages, boundedStage_eq_bind]
  cases f S >>= within maxLen <;> rfl

/-- Nothing is left to run behind the last stage. -/
theorem bind_runStages_nil (x : Except ErrCode Bytes) : x >>= runStages maxLen [] = x := by
  cases x <;> rfl

theorem runStages_append (fs gs : List (Bytes → Except ErrCode Bytes)) (S : Bytes) :
    runStages maxLen (fs ++ gs) S = runStages maxLen fs S >>= runStages maxLen gs := by
  induction fs generalizing S with
  | nil => rfl
  | cons f fs ih => simp only [List.cons_append, runStages_cons, bind_assoc, funext ih]

theorem exists_ok_of_runStages_cons {f : Bytes → Except ErrCode Bytes}
    {fs : List (Bytes → Except ErrCode Bytes)} {S D : Bytes}
    (h : runStages maxLen (f :: fs) S = .ok D) :
    ∃ T, f S = .ok T ∧ T.length ≤ maxLen ∧ runStages maxLen fs T = .ok D := by
  rw [runStages_cons] at h
  obtain ⟨T, hT, hrest⟩ := exists_ok_of_bind_eq_ok h
  obtain ⟨X, hX, hin⟩ := exists_ok_of_bind_eq_ok hT
  obtain ⟨hlen, rfl⟩ := within_eq_ok_iff.mp hin
  exact ⟨X, hX, hlen, hrest⟩

theorem runStages_singleton_of_ok {f : Bytes → Except ErrCode Bytes} {S D : Bytes}
    (hf : f S = .ok D) (hD : D.length ≤ maxLen) : runStages maxLen [f] S = .ok D := by
  simp only [runStages_cons, hf, bind_runStages_nil, ok_bind_within, within_of_le hD]

/-! ## Stages that undo one another -/

/-- The decode stage `dec` undoes the encode stage `enc` on the non-empty strings that a pipeline
hands on, and gives no such string for nothing. -/
structure Undoes (maxLen : Nat) (enc dec : Bytes → Except ErrCode Bytes) : Prop where
  nothing : ∀ S, dec [] = .ok S → S = []
  restores : ∀ S D, S ≠ [] → S.length ≤ maxLen → enc S = .ok D → dec D = .ok S

/-- Decode stages that undo the encode stages one by one, run from the last to the first, restore
what the encode stages began with. -/
theorem runStages_reverse_of_undoes {encs decs : List (Bytes → Except ErrCode Bytes)}
    (hstages : List.Forall₂ (Undoes maxLen) encs decs) {S D : Bytes} (hne : S ≠ [])
    (hlen : S.length ≤ maxLen) (h : runStages maxLen encs S = .ok D) :
    D ≠ [] ∧ runStages maxLen decs.reverse D = .ok S := by
  induction hstages generalizing S with
  | nil =>
    cases h
    exact ⟨hne, rfl⟩
  | cons hundo _ ih =>
    obtain ⟨T, hT, hTlen, hrest⟩ := exists_ok_of_runStages_cons h
    have hdec := hundo.restores S T hne hlen hT
    have hTne : T ≠ [] := by
      rintro rfl
      exact hne (hundo.nothing S hdec)
    obtain ⟨hDne, hback⟩ := ih hTne hTlen hrest
    rw [List.reverse_cons, runStages_append, hback]
    exact ⟨hDne, runStages_singleton_of_ok hdec hlen⟩

/-! ## The units (`45_pipelines.md` rules R300, R305) -/

theorem undoes_of_roundTrip {e : Bytes → Bytes} {dec : Bytes → Except ErrCode Bytes}
    (hnothing : dec [] = .ok []) (h : ∀ S, dec (e S) = .ok S) :
    Undoes maxLen (fun S => .ok (e S)) dec where
  nothing S hS := (Except.ok.inj (hnothing.symm.trans hS)).symm
  restores S D _ _ hD := by
    cases hD
    exact h S

theorem lz_undoes : Undoes maxLen (fun S => .ok (lzEncode S)) lzDecode :=
  undoes_of_roundTrip rfl lzRoundTrip

theorem rle_undoes : Undoes maxLen (fun S => .ok (rleEncode S)) rleDecode :=
  undoes_of_roundTrip rfl rleRoundTrip

theorem delta_undoes :
    Undoes maxLen (fun S => .ok (deltaEncode S)) (fun S => .ok (deltaDecode S)) :=
  undoes_of_roundTrip rfl fun S => congrArg _ (deltaRoundTrip S)

theorem exe_undoes : Undoes maxLen (fun S => .ok (exeForward S)) (fun S => .ok (exeInverse S)) :=
  undoes_of_roundTrip rfl fun S => congrArg _ (exeRoundTrip S).1

theorem mtf_undoes : Undoes maxLen (fun S => .ok (mtfEncode S)) (fun S => .ok (mtfDecode S)) :=
  undoes_of_roundTrip rfl fun S => congrArg _ (mtfRoundTrip S)

theorem bwtUnprefixed_be32_append {p : Nat} (hp : p < 2 ^ 32) (L : Bytes) :
    bwtUnprefixed (be32 p ++ L) = bwtInverse L p := by
  have hlen : ¬ (be32 p ++ L).length < 4 := Nat.not_lt.mpr (Nat.le_add_left 4 L.length)
  rw [bwtUnprefixed, if_neg hlen, rdBe32_be32_append hp]
  rfl

/-- The primary index is below the length, so its four bytes hold it. -/
theorem bwtPrefixed_undoes (hmax : maxLen < 2 ^ 32) :
    Undoes maxLen (fun S => .ok (bwtPrefixed S)) bwtUnprefixed where
  nothing _ := nofun
  restores S D hne hlen hD := by
    cases hD
    obtain ⟨hprimary, -⟩ := bwtPrimary_spec (List.length_pos_of_ne_nil hne)
    rw [bwtPrefixed, bwtUnprefixed_be32_append (by omega), bwtRoundTrip S]

theorem ac_undoes (hmax : maxLen < 2 ^ 32) : Undoes maxLen acEncode (acDecode maxLen) where
  nothing _ := nofun
  restores S D hne hlen hD := by
    by_cases hover : SomeTotalOver (trainedCount S)
    · cases (acEncode_of_over hne hover).symm.trans hD
    · obtain ⟨D', henc, hdec⟩ := acRoundTrip maxLen S hmax hne hlen hover
      cases henc.symm.trans hD
      exact hdec

/-- Each row of the table of rule R300: the decode column is the encode column's units undone, last
first. -/
theorem decStages_undo_encStages (hmax : maxLen < 2 ^ 32) (alg : Alg) :
    List.Forall₂ (Undoes maxLen) (encStages alg) (decStages maxLen alg).reverse := by
  have hac := ac_undoes hmax
  cases alg with
  | store => exact .nil
  | lzEntropy => exact .cons lz_undoes (.cons hac .nil)
  | runEntropy => exact .cons rle_undoes (.cons hac .nil)
  | deltaLzEntropy => exact .cons delta_undoes (.cons lz_undoes (.cons hac .nil))
  | bwtMtfEntropy => exact .cons (bwtPrefixed_undoes hmax) (.cons mtf_undoes (.cons hac .nil))
  | exeFilterLzEntropy => exact .cons exe_undoes (.cons lz_undoes (.cons hac .nil))

end Stages

theorem pipeEncode_nil (maxLen : Nat) (alg : Alg) : pipeEncode maxLen alg [] = .ok [] := rfl

theorem pipeDecode_nil (maxLen : Nat) (alg : Alg) : pipeDecode maxLen alg [] = .ok [] := rfl

theorem pipeEncode_of_ne_nil (maxLen : Nat) (alg : Alg) {S : Bytes} (h : S ≠ []) :
    pipeEncode maxLen alg S = runStages maxLen (encStages alg) S :=
  if_neg (mt List.length_eq_zero_iff.mp h)

theorem pipeDecode_of_ne_nil (maxLen : Nat) (alg : Alg) {S : Bytes} (h : S ≠ []) :
    pipeDecode maxLen alg S = runStages maxLen (decStages maxLen alg) S :=
  if_neg (mt List.length_eq_zero_iff.mp h)

/-- Settles O60: the decode column undoes the encode column stage by stage, and no stage makes
nothing of something. -/
theorem pipelineRoundTrip : Obligations.PipelineRoundTrip := by
  intro maxLen alg S D hmax hlen hD
  by_cases hS : S = []
  · subst hS
    cases hD
    exact pipeDecode_nil maxLen alg
  · rw [pipeEncode_of_ne_nil _ _ hS] at hD
    obtain ⟨hDne, hback⟩ :=
      runStages_reverse_of_undoes (decStages_undo_encStages hmax alg) hS hlen hD
    rwa [pipeDecode_of_ne_nil _ _ hDne, ← List.reverse_reverse (decStages maxLen alg)]

end Sys2Proof.Machine

/-! PROOFS. The pipelines: PIPE_ENC and PIPE_DEC are the columns of the rules. -/

namespace Sys2Proof.Machine

open Sys2Proof.Reference

/-! ## The algorithms by number (`45_pipelines.md` rule R300) -/

/-- The ALG value of an algorithm (`30_encoding.md` rule R93). -/
def algNumber : Alg → Nat
  | .store => 0
  | .lzEntropy => 1
  | .runEntropy => 2
  | .deltaLzEntropy => 3
  | .bwtMtfEntropy => 4
  | .exeFilterLzEntropy => 5

theorem algNumber_of_algOf {alg : BitVec 8} {a : Alg} (h : algOf alg = some a) :
    algNumber a = alg.toNat := by
  obtain ⟨hlt, rfl⟩ := List.getElem?_eq_some_iff.mp h
  have hsix : alg.toNat < 6 := hlt
  interval_cases alg.toNat <;> rfl

theorem algOf_of_unknown {alg : BitVec 8} (h : 6 ≤ alg.toNat) : algOf alg = none :=
  List.getElem?_eq_none h

/-! ## Columns of stages -/

section Columns
variable {maxLen : Nat}

/-- The encode column, its last output held against MAX_LEN too. -/
theorem runStages_encStages {S : Bytes} (h : S.length ≤ maxLen) (a : Alg) :
    runStages maxLen (encStages a) S = encodeColumn maxLen S (algNumber a) >>= within maxLen := by
  cases a with
  | store => exact (within_of_le h).symm
  | lzEntropy | runEntropy | deltaLzEntropy | bwtMtfEntropy | exeFilterLzEntropy =>
    simp only [encStages, runStages_cons, bind_runStages_nil, ok_bind_within, bind_assoc,
      encodeColumn, algNumber, bwtPrefixed]

theorem length_of_acDecode {S M : Bytes} (h : acDecode maxLen S = .ok M) : M.length ≤ maxLen := by
  rcases Nat.lt_or_ge S.length acHdrBytes with hshort | hlong
  · cases (acDecode_of_short hshort).symm.trans h
  by_cases hbad : CorruptCounts (loadedCount S)
  · cases (acDecode_of_corrupt hlong hbad).symm.trans h
  rw [acDecode_of_sound hlong hbad] at h
  split at h
  next => cases h
  next =>
    split at h
    next => cases h
    next hmax =>
      cases h
      rw [length_decodeFrom]
      exact Nat.not_lt.mp hmax

/-- AC_DEC holds its own output against MAX_LEN. -/
theorem acDecode_bind_within (S : Bytes) :
    acDecode maxLen S >>= within maxLen = acDecode maxLen S := by
  cases h : acDecode maxLen S with
  | error c => rfl
  | ok M => exact within_of_le (length_of_acDecode h)

/-- MTF_DEC's output is as long as its input, so it needs no check of its own. -/
theorem acDecode_bind_mtfDecode (S : Bytes) (k : Bytes → Except ErrCode Bytes) :
    (acDecode maxLen S >>= fun M => within maxLen (mtfDecode M) >>= k) =
      acDecode maxLen S >>= fun M => k (mtfDecode M) := by
  cases h : acDecode maxLen S with
  | error c => rfl
  | ok M =>
    have hlen : (mtfDecode M).length ≤ maxLen :=
      (length_mtfDecFrom _ M).trans_le (length_of_acDecode h)
    exact congrArg (· >>= k) (within_of_le hlen)

/-- The decode column, its last output held against MAX_LEN too. -/
theorem runStages_decStages {S : Bytes} (h : S.length ≤ maxLen) (a : Alg) :
    runStages maxLen (decStages maxLen a) S =
      decodeColumn maxLen S (algNumber a) >>= within maxLen := by
  cases a with
  | store => exact (within_of_le h).symm
  | lzEntropy | runEntropy | deltaLzEntropy | exeFilterLzEntropy =>
    simp only [decStages, runStages_cons, acDecode_bind_within, bind_runStages_nil, bind_assoc,
      decodeColumn, algNumber]
  | bwtMtfEntropy =>
    simp only [decStages, runStages_cons, acDecode_bind_within, bind_runStages_nil, ok_bind_within,
      decodeColumn, algNumber, bind_assoc, acDecode_bind_mtfDecode, bwtUnprefixed]

theorem pipeEncode_eq_column {S : Bytes} (h : S.length ≤ maxLen) (a : Alg) :
    pipeEncode maxLen a S =
      (if S = [] then .ok [] else encodeColumn maxLen S (algNumber a)) >>= within maxLen := by
  split
  next hS => rw [hS, pipeEncode_nil, ok_bind_within, within_of_le (Nat.zero_le maxLen)]
  next hS => rw [pipeEncode_of_ne_nil _ _ hS, runStages_encStages h]

theorem pipeDecode_eq_column {S : Bytes} (h : S.length ≤ maxLen) (a : Alg) :
    pipeDecode maxLen a S =
      (if S = [] then .ok [] else decodeColumn maxLen S (algNumber a)) >>= within maxLen := by
  split
  next hS => rw [hS, pipeDecode_nil, ok_bind_within, within_of_le (Nat.zero_le maxLen)]
  next hS => rw [pipeDecode_of_ne_nil _ _ hS, runStages_decStages h]

end Columns

/-! ## The commands (`45_pipelines.md` rules R301, R303, R304, R306) -/

theorem length_sourceString_le {s : State} (h : SourceReadable s) :
    (sourceString s).length ≤ s.platform.maxLen := by
  obtain ⟨-, -, hlen, -⟩ := h
  rwa [length_sourceString]

/-- A command whose result is a value held against MAX_LEN succeeds with the value where it fits, and
fails with its error. -/
theorem exec_of_result_within {i : Instr} {f : Nat → Bytes → Except ErrCode Bytes} {s : State}
    {r : Except ErrCode Bytes}
    (hi : resultOf i = some fun maxLen S aux => plainResult (f maxLen) maxLen S aux)
    (hf : SourceReadable s →
      f s.platform.maxLen (sourceString s) = r >>= within s.platform.maxLen) :
    (∀ D, r = .ok D → Runnable s D.length →
      ∃ t, exec i s = .next t ∧ Succeeded s t D s.regs.aux) ∧
    (∀ c, r = .error c → Readable s → ∃ t, exec i s = .next t ∧ FailedWith s t c) := by
  rw [exec_of_resultOf i _ s hi]
  refine ⟨fun D hD hrun => ?_, fun c hc hread => ?_⟩
  · have ⟨_, hsrc, hfits, _⟩ := hrun
    refine runCommand_succeeds _ s ⟨D, none⟩ hrun ?_
    rw [plainResult, hf hsrc, hD, ok_bind_within, within_of_le hfits]
  · obtain ⟨hmem, hsrc⟩ := hread
    refine runCommand_fails _ s c hmem hsrc ?_
    rw [plainResult, hf hsrc, hc]
    rfl

theorem resultOf_pipeEnc {alg : BitVec 8} {a : Alg} (h : algOf alg = some a) :
    resultOf (.pipeEnc alg) = some (pipeEncResult a) := congrArg (Option.map pipeEncResult) h

theorem resultOf_pipeDec {alg : BitVec 8} {a : Alg} (h : algOf alg = some a) :
    resultOf (.pipeDec alg) = some (pipeDecResult a) := congrArg (Option.map pipeDecResult) h

theorem exec_pipeEnc_unknown {alg : BitVec 8} (h : algOf alg = none) (s : State) :
    exec (.pipeEnc alg) s = .next (complete (.fail .illegalCmd false) s) := by
  rw [exec, execPipeEnc, h]

theorem exec_pipeDec_unknown {alg : BitVec 8} (h : algOf alg = none) (s : State) :
    exec (.pipeDec alg) s = .next (complete (.fail .unknownAlg false) s) := by
  rw [exec, execPipeDec, h]

/-- Settles O49: PIPE_ENC's result is the encode column's, held against MAX_LEN. -/
theorem pipeEncComposesStages : Obligations.PipeEncComposesStages := by
  intro s alg r
  refine ⟨fun hknown => ?_, fun hunknown => ?_⟩
  · obtain ⟨a, ha⟩ := algOf_of_known alg hknown
    refine exec_of_result_within (resultOf_pipeEnc ha) fun hsrc => ?_
    rw [pipeEncode_eq_column (length_sourceString_le hsrc), algNumber_of_algOf ha]
  · exact ⟨_, exec_pipeEnc_unknown (algOf_of_unknown hunknown) s, complete_failedEarly s _⟩

/-- Settles O50: PIPE_DEC's result is the decode column's, held against MAX_LEN. -/
theorem pipeDecComposesStages : Obligations.PipeDecComposesStages := by
  intro s alg r
  refine ⟨fun hknown => ?_, fun hunknown => ?_⟩
  · obtain ⟨a, ha⟩ := algOf_of_known alg hknown
    refine exec_of_result_within (resultOf_pipeDec ha) fun hsrc => ?_
    rw [pipeDecode_eq_column (length_sourceString_le hsrc), algNumber_of_algOf ha]
  · exact ⟨_, exec_pipeDec_unknown (algOf_of_unknown hunknown) s, complete_failedEarly s _⟩

/-- Nothing for nothing is a copy too. -/
theorem storeColumn_eq_source (S : Bytes) :
    (if S = [] then .ok [] else .ok S : Except ErrCode Bytes) = .ok S := by
  split
  next h => rw [h]
  next => rfl

/-- Settles O51: the columns of STORE have no stage. -/
theorem storeCopies : Obligations.StoreCopies := by
  intro s hrun
  rw [← length_sourceString] at hrun
  exact ⟨((pipeEncComposesStages s 0).1 rfl).1 _ (storeColumn_eq_source _) hrun,
    ((pipeDecComposesStages s 0).1 rfl).1 _ (storeColumn_eq_source _) hrun⟩

/-- Settles O52: no stage runs for the empty source. -/
theorem pipelinesOfNothing : Obligations.PipelinesOfNothing := by
  intro s alg hknown hlen hrun
  have hS : sourceString s = [] := by
    rw [← List.length_eq_zero_iff, length_sourceString, hlen]
    rfl
  exact ⟨((pipeEncComposesStages s alg).1 hknown).1 [] (if_pos hS) hrun,
    ((pipeDecComposesStages s alg).1 hknown).1 [] (if_pos hS) hrun⟩

end Sys2Proof.Machine

/-! PROOFS. The exceptions family: the command that a step runs, the register accesses that have no
meaning, and the outcome as a function of the operands and the source bytes. -/

namespace Sys2Proof.Machine

/-! ## The engine's turn (`60_exceptions.md` rules R320, R338) -/

/-- While BUSY = 1 the engine moves unless the host is on turn; a step uses up a turn only where
the host had an access to make. -/
theorem step_of_engine_turn (s : State) (hb : s.busy = true)
    (ht : s.inputs = [] ∨ s.turns.head? ≠ some .host) :
    step s = engineStep { s with turns := if s.inputs = [] then s.turns else s.turns.tail } := by
  by_cases hnil : s.inputs = []
  · rw [step_of_no_access_left s hb hnil, if_pos hnil]
  · obtain ⟨op, rest, hi⟩ := List.exists_cons_of_ne_nil hnil
    rw [step, nextAgent_engine s hb (ht.resolve_left hnil), if_neg hnil]
    show engineStep (takeTurn s) = _
    rw [takeTurn_of_access_left s op rest hi, if_pos hb]

theorem engineStep_of_decode_ok (s : State) (i : Instr) (h : decode s.latch.cmd = .ok i) :
    engineStep s = exec i s := by
  rw [engineStep, h]

/-- A 32-bit word placed by `withFetchWord` is the word latched. -/
theorem withFetchWord_latched_word (s : State) (w : Word) :
    (s.withFetchWord 32 w.toNat).latch.cmd = w := by
  rw [withFetchWord_latch, Nat.mod_eq_of_lt w.isLt, BitVec.ofNat_toNat, BitVec.setWidth_eq]

/-- The turn that `withFetchWord` gives the engine is the one that its step uses up. -/
theorem step_withFetchWord (s : State) (w : Word) :
    step (s.withFetchWord 32 w.toNat) = engineStep { s with
      busy := true, done := false, errCode := none, outLen := 0
      regs := { s.regs with cmd := w }, latch := { s.regs with cmd := w } } := by
  have hword : BitVec.ofNat 32 (w.toNat % 2 ^ 32) = w := withFetchWord_latched_word s w
  have hturn : s.inputs = [] ∨ (s.withFetchWord 32 w.toNat).turns.head? ≠ some .host := by
    cases hi : s.inputs <;> simp [hi]
  rw [step_of_engine_turn _ rfl hturn, State.withFetchWord, hword]
  cases hi : s.inputs <;> simp

/-- Settles O4: on its turn the engine decodes the latched word and executes the command. -/
theorem stepRunsTheDecodedCommand : Obligations.StepRunsTheDecodedCommand := by
  refine ⟨fun s i hb hd ht => ?_, fun s i hwf => ?_⟩
  · exact (step_of_engine_turn s hb ht).trans (engineStep_of_decode_ok _ i hd)
  · exact (step_withFetchWord s _).trans
      (engineStep_of_decode_ok _ i (decode_encode_of_wf i hwf))

/-! ## Register accesses without a meaning (`60_exceptions.md` rule R331) -/

theorem accessOffset_narrow (p : Platform) (w : AccessWidth) (a : Word)
    (hw : w = .byte ∨ w = .half) : accessOffset p w a = .error .narrowRegisterAccess := by
  rcases hw with rfl | rfl <;> rfl

theorem accessOffset_outside (p : Platform) (a : Word)
    (h : a.toNat < p.regBase.toNat ∨ p.regBase.toNat + 256 ≤ a.toNat) :
    accessOffset p .word a = .error .outsideRegisterBlock := by
  have hnone : regOffset p a = none := if_neg (by unfold regBlockBytes; omega)
  rw [accessOffset, hnone]

/-- Inside the block a word access is judged by the alignment of its address: REG_BASE is
aligned. -/
theorem accessOffset_inside (p : Platform) (a : Word) (hwf : p.wf = true)
    (hlo : p.regBase.toNat ≤ a.toNat) (hhi : a.toNat < p.regBase.toNat + 256) :
    accessOffset p .word a =
      if a.toNat % 4 = 0 then .ok (a.toNat - p.regBase.toNat)
      else .error .misalignedRegisterAccess := by
  have hsome : regOffset p a = some (a.toNat - p.regBase.toNat) := if_pos ⟨hlo, hhi⟩
  have hbase : p.regBase.toNat % 256 = 0 := by
    simp only [Platform.wf, Bool.and_eq_true, beq_iff_eq] at hwf
    obtain ⟨⟨halign, -⟩, -⟩ := hwf
    exact halign
  have halign : (a.toNat - p.regBase.toNat) % 4 = 0 ↔ a.toNat % 4 = 0 := by omega
  rw [accessOffset, hsome]
  simp only [halign]

/-! ## An access is refused exactly where it has no offset -/

theorem writeCtrl_not_refused (v : Word) (s : State) (r : Refusal) :
    writeCtrl v s ≠ .refused r := by
  unfold writeCtrl accept
  split
  · nofun
  · split
    · split <;> nofun
    · nofun

theorem writeOffset_not_refused (off : Nat) (v : Word) (s : State) (r : Refusal) :
    writeOffset off v s ≠ .refused r := by
  unfold writeOffset
  split
  next q _ =>
    cases q
    case ctrl => exact writeCtrl_not_refused v s r
    all_goals nofun
  next => nofun

section Refused
variable (s : State) (w : AccessWidth) (a v : Word) (f : Field) (n : Nat) (r : Refusal)

theorem hostDo_regWrite_refused_iff :
    hostDo (.regWrite w a v) s = .refused r ↔ accessOffset s.platform w a = .error r := by
  show hostRegWrite w a v s = _ ↔ _
  rw [hostRegWrite]
  cases accessOffset s.platform w a with
  | error q => simp
  | ok off => simp [writeOffset_not_refused]

theorem hostDo_regRead_refused_iff :
    hostDo (.regRead w a) s = .refused r ↔ accessOffset s.platform w a = .error r := by
  show hostRegRead w a s = _ ↔ _
  rw [hostRegRead]
  cases accessOffset s.platform w a <;> simp

theorem hostDo_poll_refused_iff :
    hostDo (.poll a f n) s = .refused r ↔ accessOffset s.platform .word a = .error r := by
  show hostPoll a f n s = _ ↔ _
  rw [hostPoll]
  cases accessOffset s.platform .word a with
  | error q => simp
  | ok off => simp only; split <;> simp

end Refused

/-- Settles O18: the width, the block and the alignment decide in turn whether an access has an
offset, and no step follows a refusal. -/
theorem accessRefusals : Obligations.AccessRefusals := by
  simp only [Obligations.AccessRefusals, ne_eq, hostDo_regWrite_refused_iff,
    hostDo_regRead_refused_iff, hostDo_poll_refused_iff]
  refine ⟨fun s a v w hw => ?_, fun s a v f n hout => ?_,
    fun s a v f n hwf hlo hhi => ⟨fun hmisaligned => ?_, fun halign r => ?_⟩, fun s r k hr => ?_⟩
  · have h := accessOffset_narrow s.platform w a hw
    exact ⟨h, h⟩
  · have h := accessOffset_outside s.platform a hout
    exact ⟨h, h, h⟩
  · have h := (accessOffset_inside s.platform a hwf hlo hhi).trans (if_neg hmisaligned)
    exact ⟨h, h, h⟩
  · rw [accessOffset_inside s.platform a hwf hlo hhi, if_pos halign]
    exact ⟨nofun, nofun, nofun⟩
  · rw [Nat.add_comm]
    exact run_add_refused core s r 1 k ((run_one core s).trans hr)

/-! ## The outcome is determined (`60_exceptions.md` rule R324, `10_state.md` rule R51) -/

/-- The checks and the result function look at the platform, the latch and the source bytes. -/
theorem outcome_congr (f : ResultFn) {s₁ s₂ : State} (hl : s₁.latch = s₂.latch)
    (hp : s₁.platform = s₂.platform) (hsrc : sourceBytes s₁ = sourceBytes s₂) :
    outcome f s₁ = outcome f s₂ := by
  unfold outcome
  rw [hl, hp, hsrc]

theorem exec_same_outcome (i : Instr) {s₁ s₂ : State} (hl : s₁.latch = s₂.latch)
    (hp : s₁.platform = s₂.platform) (hsrc : sourceBytes s₁ = sourceBytes s₂) :
    ∃ o, exec i s₁ = .next (complete o s₁) ∧ exec i s₂ = .next (complete o s₂) := by
  cases hi : resultOf i with
  | none =>
    obtain ⟨o, ho⟩ := exec_of_no_result i hi
    exact ⟨o, ho s₁, ho s₂⟩
  | some f =>
    rw [exec_of_resultOf i f s₁ hi, exec_of_resultOf i f s₂ hi, runCommand, runCommand,
      outcome_congr f hl hp hsrc]
    exact ⟨_, rfl, rfl⟩

theorem engineStep_same_outcome {s₁ s₂ : State} (hl : s₁.latch = s₂.latch)
    (hp : s₁.platform = s₂.platform) (hsrc : sourceBytes s₁ = sourceBytes s₂) :
    ∃ o, engineStep s₁ = .next (complete o s₁) ∧ engineStep s₂ = .next (complete o s₂) := by
  unfold engineStep
  rw [← hl]
  cases decode s₁.latch.cmd with
  | ok i => exact exec_same_outcome i hl hp hsrc
  | error e => exact ⟨_, rfl, rfl⟩

/-- A success stores the output's bytes, as many as OUT_LEN says, at the latched DST_ADDR. -/
theorem readByte_complete_ok (D : Bytes) (aux : Option Word) (s : State) {k : Nat}
    (hk : k < (complete (.ok D aux) s).outLen.toNat) :
    readByte (complete (.ok D aux) s).mem (s.latch.dstAddr.toNat + k) = D.getD k 0 := by
  rw [complete_ok_outLen, BitVec.toNat_ofNat] at hk
  rw [complete_ok_mem]
  exact readByte_writeBytes_inside _ _ _ _ (Nat.lt_of_lt_of_le hk (Nat.mod_le _ _))

/-- Settles O29: both steps complete with one outcome, and what it writes is the same from either
state. -/
theorem outcomeIsDetermined : Obligations.OutcomeIsDetermined := by
  intro s₁ s₂ t₁ t₂ hm₁ hm₂ hl haux hp hS h₁ h₂
  have hsrc : sourceBytes s₁ = sourceBytes s₂ := by
    rw [sourceBytes_eq s₁ hm₁, sourceBytes_eq s₂ hm₂, hS]
  obtain ⟨o, ho₁, ho₂⟩ := engineStep_same_outcome hl hp hsrc
  obtain rfl : complete o s₁ = t₁ := Host.Outcome.next.inj (ho₁.symm.trans h₁)
  obtain rfl : complete o s₂ = t₂ := Host.Outcome.next.inj (ho₂.symm.trans h₂)
  cases o with
  | ok D aux =>
    refine ⟨rfl, rfl, ?_, fun _ k hk => ?_⟩
    · rw [complete_ok_regs, complete_ok_regs, haux]
    · rw [readByte_complete_ok D aux s₁ hk, hl, readByte_complete_ok D aux s₂ hk]
  | fail c touched =>
    refine ⟨?_, rfl, ?_, fun hnone => ?_⟩
    · rw [complete_fail_errCode, complete_fail_errCode]
    · rw [complete_fail_aux, complete_fail_aux, haux]
    · rw [complete_fail_errCode] at hnone
      cases hnone

end Sys2Proof.Machine

/-! PROOFS. The reset family: what the host reads right after power-on, and that the engine then waits
for a command. -/

namespace Sys2Proof.Machine

/-! ## Power-on (`10_state.md` rule R52, `70_reset_and_hazards.md` rules R360, R362) -/

/-- A reset leaves the power-on state as it is. -/
theorem resetEngine_powerOn : resetEngine State.reset = State.reset := rfl

theorem statusWord_powerOn : statusWord State.reset = 0 := by
  rw [← resetEngine_powerOn, statusWord_resetEngine]

/-- In IDLE the engine has no step to take. -/
theorem nextAgent_ne_engine_of_idle (s : State) (hb : s.busy = false) :
    nextAgent s ≠ some .engine := fun h => by
  have hbusy := nextAgent_engine_busy s h
  simp [hb] at hbusy

/-- Settles O6: the registers read the constants of the power-on state, and in IDLE the engine waits,
whatever the host is about to do. -/
theorem powerOnState : Obligations.PowerOnState := by
  have hstep : step State.reset = .next State.reset :=
    stepTakesTheHostsNextAccess.2 State.reset rfl rfl
  exact ⟨rfl, rfl, rfl, statusWord_powerOn, rfl, rfl, rfl, rfl, rfl, rfl, rfl, rfl, rfl, rfl, rfl,
    hstep, fun _ _ => nextAgent_ne_engine_of_idle _ rfl⟩

end Sys2Proof.Machine
